-- ==== Sys2Proof/Word.lean ====
section
/-! DEFINITION. The word types of the Sensibus master block (00_scope.md R10): unsigned bytes and
unsigned 16-bit values. Everything else the block holds is an enumeration, a count or a number. -/

namespace Sys2Proof

/-- `u8` of R10: bit 7 is the most significant bit. -/
abbrev Byte := BitVec 8

/-- `u16` of R10; the signed latch `T10` (`i16`) has the same 16 bits, read with `BitVec.toInt`. -/
abbrev U16 := BitVec 16

end Sys2Proof
end

