-- ==== Sys2Proof/Config.lean ====
section
/-! DEFINITION. What the spec leaves to the implementation: the parameters of 00_scope.md R8 that are
OPEN or switchable, as plain data, and the free values, which are opaque so that no proof can see them. -/

namespace Sys2Proof

/-- `NUMERICS` (42_calibration.md R140): IEEE 754 binary64 with every operation rounded, or exact
rationals. -/
inductive Numerics where
  | b64
  | q
deriving DecidableEq, Repr

/-- `FAIL_RAW` (43_read_api.md R163): the raw value after a `measure` that did not return `Ok`. -/
inductive FailRaw where
  | any
  | zero
  | stale
deriving DecidableEq, Repr

/-- The parameters a model "takes as configuration" (R140, R161, R163). They are fixed for one machine:
no operation writes them. State carries them, so a statement about every state holds under every setting
(DESIGN CHOICE, log entry 10). -/
structure Params where
  numerics     : Numerics
  failRaw      : FailRaw
  lastErrClear : Bool
deriving DecidableEq, Repr

/-- The defaults of the table of R8: `B64`, `any`, `true`. -/
def Params.default : Params := ⟨.b64, .any, true⟩

/-- FREE VALUE (DESIGN CHOICE, log entry 1). The sensor's answer to the n-th sample since reset, for a sample that no
answer was supplied for (20_memory.md R56: each sample is a draw answered by the environment). `true` is
High. -/
opaque Config.sensorAnswer : Nat → Bool

/-- FREE VALUE (DESIGN CHOICE, log entry 2). The n-th substitute raw reading under `FAIL_RAW = any`
(43_read_api.md R163: "an unspecified u16, a fresh draw each time"). -/
opaque Config.freeRaw : Nat → U16

/-- FREE VALUE (DESIGN CHOICE, log entry 3). The level read by the n-th sample if the block drives the data wire High
while the sensor pulls it Low (20_memory.md R55: undefined). No operation of the block takes such a sample. -/
opaque Config.contentionLevel : Nat → Bool

/-- FREE VALUE (DESIGN CHOICE, log entry 4). `T_STEP_US - 1`, so that `T_STEP_US` is one of 1, 2, 3 (00_scope.md R8; OPEN). -/
opaque Config.tStepLessOne : Fin 3

/-- `T_STEP_US` of 00_scope.md R8: the length in microseconds of every short delay. No value the block
computes depends on it (70_reset_and_hazards.md R207). -/
def Config.tStepUs : Nat := Config.tStepLessOne.val + 1

end Sys2Proof
end

