-- ==== Sys2Proof/Syntax.lean ====
section
/-! DEFINITION. The instruction set of 00_scope.md R2: one constructor of `Instr` per row of
spec/opcode_table.json, the five command bytes of level 1 (30_encoding.md R82) and the eleven operations
of level 2 (R88), and the form in which one reaches the block (`Request`). -/

namespace Sys2Proof

/-- The operand of `measure` (30_encoding.md R89): no other kind exists. -/
inductive Kind where
  | temperature
  | humidity
deriving DecidableEq, Repr

/-- The five commands the block sends to the sensor (30_encoding.md R82). -/
inductive Command where
  | measureTemp
  | measureHumi
  | statusRegW
  | statusRegR
  | reset
deriving DecidableEq, Repr

/-- One constructor per row of spec/opcode_table.json. Level 1 (R82): a command byte stands for the frame
it heads (R85), and its operand is the one value byte that travels on the bus (R83). Level 2 (R88): the
operations with the operands of R89. -/
inductive Instr where
  | measureTemp
  | measureHumi
  | statusRegW (value : Byte)
  | statusRegR
  | resetCommand
  | read
  | rdstat
  | wrstat (value : Byte)
  | sreset
  | creset
  | tstart
  | rdbyte (sendAck : Bool)
  | wrbyte (value : Byte)
  | meas (kind : Kind)
  | tcels (raw : U16)
  | hpct (rawHumi : U16) (rawTemp : U16)
deriving DecidableEq, Repr

/-- Who may ask for an instruction: the host (R88 "public"), only the block's own layers (R88
"internal"), or nobody directly: it is a level-1 command byte, sent inside a frame (R82). -/
inductive Visibility where
  | hostPublic
  | internal
  | commandByte
deriving DecidableEq, Repr

/-- The column "visibility" of 30_encoding.md R88; the rows of R82 are command bytes. -/
def Instr.visibility : Instr → Visibility
  | .measureTemp => .commandByte
  | .measureHumi => .commandByte
  | .statusRegW _ => .commandByte
  | .statusRegR => .commandByte
  | .resetCommand => .commandByte
  | .read => .hostPublic
  | .rdstat => .hostPublic
  | .wrstat _ => .hostPublic
  | .sreset => .hostPublic
  | .creset => .hostPublic
  | .tstart => .internal
  | .rdbyte _ => .internal
  | .wrbyte _ => .internal
  | .meas _ => .internal
  | .tcels _ => .internal
  | .hpct _ _ => .internal

/-- One request, as the values on the ports that carry it (30_encoding.md R80, R88).
`host`: `OPSEL` and `ARG` at the host port with the strobe given. `component`: the same code presented to
the block's internal operations, with the two 16-bit operand ports of the calibration functions (`opA` is
`raw` or `raw_humi`, `opB` is `raw_temp`). `frame`: a command byte, with the value byte of a status
register write. The last two are the model's own way in for the rows a host cannot ask for (DESIGN CHOICE, log entry 5). -/
inductive Request where
  | host (opsel : BitVec 4) (arg : Byte)
  | component (opsel : BitVec 4) (arg : Byte) (opA opB : U16)
  | frame (command : Byte) (value : Byte)
deriving DecidableEq, Repr

end Sys2Proof
end

