-- ==== Sys2Proof/Machine/State.lean ====
section
/-! DEFINITION. The state of the block (10_state.md R20), the reasons a step can stop, and the state
after power-on reset (R36 to R41). -/

namespace Sys2Proof.Machine

/-- The two levels of a wire (00_scope.md R11). -/
inductive Level where
  | low
  | high
deriving DecidableEq, Repr

/-- The drive state of the data pin (00_scope.md R11, 10_state.md R24). -/
inductive Drive where
  | z
  | out0
  | out1
deriving DecidableEq, Repr

/-- The seven sequencer states (10_state.md R21). -/
inductive Seq where
  | idle
  | transmissionStarted
  | commandSent
  | measuring
  | awaitingByte
  | done
  | failed
deriving DecidableEq, Repr

/-- The result codes (60_exceptions.md R170). -/
inductive Code where
  | ok
  | writeError
  | timeout
deriving DecidableEq, Repr

/-- A value of the document's type `f64` (42_calibration.md R140): the 64 bits of a binary64 number under
`NUMERICS = B64`, an exact rational under `NUMERICS = Q`. -/
inductive Number where
  | b64 (bits : BitVec 64)
  | q (value : Rat)
deriving DecidableEq, Repr

/-- What `RES` can hold (10_state.md R30; the column "result" of 30_encoding.md R88; DEDUCED, log entry
14). -/
inductive Result where
  /-- No result: `transmission_start`. -/
  | none
  /-- A result code without payload. -/
  | code (c : Code)
  /-- `Ok` with the raw value of a `measure`. -/
  | okRaw (raw : U16)
  /-- `Ok` with the status byte and the checksum byte. -/
  | okStatus (status checksum : Byte)
  /-- The byte of a `read_byte`, which has no result code. -/
  | byte (value : Byte)
  /-- The number a calibration function returns. -/
  | number (x : Number)
  /-- The pair `read` returns (43_read_api.md R164): temperature, humidity. -/
  | readings (temperature humidity : Number)
deriving DecidableEq, Repr

/-- One entry of the trace the model keeps (70_reset_and_hazards.md R207: the delays "appear in the trace
as events so that a test can count them"): the line actions of 00_scope.md R11, a sample with its answer,
and the writes of `SEQ` (41_sequencer.md R120). `REL`, `DRV`, `CLK_HI`, `CLK_LO` each include their one
short delay (20_memory.md R53; DESIGN CHOICE, log entry 23). -/
inductive Event where
  | rel
  | drv (b : Bool)
  | clkHi
  | clkLo
  | smp (s : Bool)
  | waitMs
  | seq (q : Seq)
deriving DecidableEq, Repr

/-- The state of the block. The first twelve fields are the table of 10_state.md R20, "the complete state
of the block". The rest are the MODEL'S OWN (log entry 7), and no rule reads them as state of the block. -/
structure State where
  seq     : Seq
  clk     : Level
  ddrv    : Drive
  rawT    : U16
  rawH    : U16
  t10     : U16
  h10     : U16
  lastErr : Code
  sr      : Byte
  bitcnt  : Nat
  pollcnt : Nat
  res     : Result
  /-- Has an operation ended since reset? A host read of `RES` before that is a fault (R41). -/
  resWritten : Bool
  /-- A byte written now is the command of a frame: a transmission start has been sent and no byte written
  or read since (20_memory.md R67: the sensor takes the byte directly after it as a command). It serves the
  refusal of 30_encoding.md R90 only (DEDUCED, log entry 16). -/
  commandDue : Bool
  /-- The last output of the combinational calibration functions, which store nothing (R33, R142; DESIGN
  CHOICE, log entry 11). -/
  calOut : Result
  /-- The parameters of 00_scope.md R8; no operation writes them. -/
  params : Params
  /-- Answers the sensor will give to the next samples, in order, `true` for High (the "sample script" of
  95_test_vectors.md). When it is empty an answer is the free value `Config.sensorAnswer`. -/
  sensor : List Bool
  /-- How many samples have been taken since reset: the argument of the free answers. -/
  samples : Nat
  /-- How many substitute raw values have been drawn since reset: the argument of `Config.freeRaw`. -/
  rawDraws : Nat
  /-- The trace, newest event first. -/
  log : List Event
  /-- The requests put to the block and not yet taken, first one first (30_encoding.md R95). -/
  requests : List Request
deriving DecidableEq, Repr

/-- A fault stops the run with no next state. No step raises one: the block has no fault of its own
(60_exceptions.md R172). -/
inductive Fault where
  /-- A host read of `RES` before the first operation has ended. Raised by `hostRead`. Safe, and the
  spec's own: "a model must not read `RES` before the first operation has ended (treat such a read as a fault,
  not as a value)" (10_state.md R41); "fault if read before written" (93_implementation_defined.md U2). -/
  | resReadBeforeWritten
deriving DecidableEq, Repr

/-- A refusal: the run has no meaning from here on (30_encoding.md R91). All are safe: the model stops
where the spec gives no behaviour. -/
inductive Refusal where
  /-- An instruction without a meaning. No arm of `exec` answers it. -/
  | notModelled (mnemonic : String)
  /-- A reserved `OPSEL`. Raised by `step` (30_encoding.md R91). -/
  | reservedOpsel (opsel : BitVec 4)
  /-- An internal `OPSEL` at the host port. Raised by `step` (30_encoding.md R91). -/
  | internalAtHostPort (opsel : BitVec 4)
  /-- A frame headed by a byte that is no command. Raised by `step` for a frame request and by
  `execWrbyte` for a byte directly after a transmission start (30_encoding.md R90, "refuse";
  93_implementation_defined.md U6, 92_eei_decisions.md D21). -/
  | reservedCommand (command : Byte)
  /-- A request while the block is busy. Raised by every operation that is accepted as a request and by
  `hostRead` (30_encoding.md R91, 10_state.md R26). -/
  | busy
  /-- A request when the wires are not idle although the block is. Raised by every operation that is
  accepted as a request (93_implementation_defined.md U8: not a state of the block). -/
  | busNotIdle
  /-- A transport primitive started with the clock High. Raised by `execTstart`, `execRdbyte` and
  `execWrbyte` (40_transport.md R100 to R102; 93_implementation_defined.md U8). -/
  | clockHigh
deriving DecidableEq, Repr

/-- The state after power-on reset (10_state.md R36 to R41, 70_reset_and_hazards.md R190). `SR`, `BITCNT`,
`POLLCNT` and `RES` are unspecified there; the values here are the model's (DESIGN
CHOICE, log entry 8: unsafe). -/
def State.reset : State where
  seq := .idle
  clk := .low
  ddrv := .z
  rawT := 0#16
  rawH := 0#16
  t10 := 0#16
  h10 := 0#16
  lastErr := .ok
  sr := 0#8
  bitcnt := 0
  pollcnt := 0
  res := .none
  resWritten := false
  commandDue := false
  calOut := .none
  params := Params.default
  sensor := []
  samples := 0
  rawDraws := 0
  log := []
  requests := []

/-- What a host can look at (10_state.md R20, R26, R31; DESIGN CHOICE, log entry 24). -/
inductive HostReg where
  | seq
  | rawT
  | rawH
  | t10
  | h10
  | lastErr
  | res
deriving DecidableEq, Repr

/-- What a host read returns. -/
inductive HostValue where
  | seq (q : Seq)
  | word (v : U16)
  | code (c : Code)
  | result (r : Result)
deriving DecidableEq, Repr

end Sys2Proof.Machine
end

