-- ==== Sys2Proof/Machine/Flags.lean ====
section
/-! DEFINITION. Result codes. The block has no condition codes and no arithmetic flags (10_state.md R30);
its status values are the codes of 60_exceptions.md R170 and the slot `LAST_ERR` (43_read_api.md R161). -/

namespace Sys2Proof.Machine

/-- The numeric value of a code (60_exceptions.md R170). -/
def codeNumber : Code → Nat
  | .ok => 0
  | .writeError => 1
  | .timeout => 2

/-- The code a result carries; `none` for the results that have no code (60_exceptions.md R171). -/
def resultCode : Result → Option Code
  | .none => none
  | .code c => some c
  | .okRaw _ => some .ok
  | .okStatus _ _ => some .ok
  | .byte _ => none
  | .number _ => none
  | .readings _ _ => none

/-- A sample of 1 in the acknowledge slot is `WriteError`, a sample of 0 is `Ok` (40_transport.md R102). -/
def ackCode (sample : Bool) : Code :=
  if sample then .writeError else .ok

/-- The update of `LAST_ERR` from the codes of the two stages (43_read_api.md R161). -/
def lastErrAfter (clear : Bool) (codeT codeH old : Code) : Code :=
  if codeH ≠ .ok then codeH
  else if codeT ≠ .ok then codeT
  else if clear then .ok
  else old

end Sys2Proof.Machine
end

