-- ==== Sys2Proof/WellFormed.lean ====
section
/-! DEFINITION. Which instructions and which programs are well formed. -/

namespace Sys2Proof

/-- Every operand at every value of its type is legal: "`value` is any `u8`; the block does not restrict
it", "the two calibration functions take full `u16` operands" (30_encoding.md R89). The types of `Instr`
already say what R89 asks, so no instruction is ill formed by itself. -/
def Instr.wellFormed : Instr → Bool
  | .measureTemp => true
  | .measureHumi => true
  | .statusRegW _ => true
  | .statusRegR => true
  | .resetCommand => true
  | .read => true
  | .rdstat => true
  | .wrstat _ => true
  | .sreset => true
  | .creset => true
  | .tstart => true
  | .rdbyte _ => true
  | .wrbyte _ => true
  | .meas _ => true
  | .tcels _ => true
  | .hpct _ _ => true

/-- A program is "a finite sequence of public operations" (30_encoding.md R95). -/
def Program.wellFormed (p : List Instr) : Bool :=
  p.all fun i => i.wellFormed && decide (i.visibility = .hostPublic)

end Sys2Proof
end

