-- ==== Sys2Proof/Decode.lean ====
section
/-! DEFINITION. Decoding and encoding (30_encoding.md): the command byte (R80 to R82), the operation
select (R88), what is reserved (R90, R91), and the words of spec/opcode_table.json. -/

namespace Sys2Proof

/-- The 4-bit `cmd` field of a command (30_encoding.md R82). -/
def Command.cmdField : Command → BitVec 4
  | .measureTemp => 0b0001#4
  | .measureHumi => 0b0010#4
  | .statusRegW => 0b0011#4
  | .statusRegR => 0b0011#4
  | .reset => 0b1111#4

/-- The `rw` bit of a command: 1 where the frame has the sensor send bytes (30_encoding.md R81). -/
def Command.rwBit : Command → BitVec 1
  | .measureTemp => 1#1
  | .measureHumi => 1#1
  | .statusRegW => 0#1
  | .statusRegR => 1#1
  | .reset => 0#1

/-- The command byte: `addr` = 000 in bits 7:5, `cmd` in bits 4:1, `rw` in bit 0 (30_encoding.md R80). -/
def Command.byte (c : Command) : Byte :=
  0b000#3 ++ c.cmdField ++ c.rwBit

/-- The decoder match of 30_encoding.md R82 is the whole byte; the other 251 bytes are reserved (R90). -/
def Command.ofByte (b : Byte) : Option Command :=
  match b.toNat with
  | 0x03 => some .measureTemp
  | 0x05 => some .measureHumi
  | 0x06 => some .statusRegW
  | 0x07 => some .statusRegR
  | 0x1E => some .reset
  | _ => none

/-- `command_for(kind)` (30_encoding.md R83). -/
def commandFor : Kind → Command
  | .temperature => .measureTemp
  | .humidity => .measureHumi

/-- Why a request has no instruction. Safe: a request the spec reserves stops the run. -/
inductive DecodeError where
  /-- An `OPSEL` of no operation (30_encoding.md R91: 0x0, 0x6, 0x7, 0xE, 0xF), or one that is no
  internal operation presented to the internal operations. -/
  | reservedOpsel (opsel : BitVec 4)
  /-- An internal `OPSEL` (0x8 to 0xD) at the host port (30_encoding.md R91). -/
  | internalAtHostPort (opsel : BitVec 4)
  /-- A command byte that is none of the five (30_encoding.md R90). -/
  | reservedCommand (command : Byte)
deriving DecidableEq, Repr

/-- The host port: codes 0x1 to 0x5 "are the only ones a host may request" (30_encoding.md R88, R91). -/
def decodeHost (opsel : BitVec 4) (arg : Byte) : Except DecodeError Instr :=
  match opsel.toNat with
  | 0x1 => .ok .read
  | 0x2 => .ok .rdstat
  | 0x3 => .ok (.wrstat arg)
  | 0x4 => .ok .sreset
  | 0x5 => .ok .creset
  | 0x8 => .error (.internalAtHostPort opsel)
  | 0x9 => .error (.internalAtHostPort opsel)
  | 0xA => .error (.internalAtHostPort opsel)
  | 0xB => .error (.internalAtHostPort opsel)
  | 0xC => .error (.internalAtHostPort opsel)
  | 0xD => .error (.internalAtHostPort opsel)
  | _ => .error (.reservedOpsel opsel)

/-- `ARG[0]` of `MEAS`: 0 Temperature, 1 Humidity (30_encoding.md R88). -/
def kindOfBit (b : Bool) : Kind :=
  if b then .humidity else .temperature

/-- The internal operations, codes 0x8 to 0xD (30_encoding.md R88). Only `ARG[0]` is read where the table
says `ARG[0]` (DEDUCED, log entry 20). -/
def decodeComponent (opsel : BitVec 4) (arg : Byte) (opA opB : U16) : Except DecodeError Instr :=
  match opsel.toNat with
  | 0x8 => .ok .tstart
  | 0x9 => .ok (.rdbyte (arg.getLsbD 0))
  | 0xA => .ok (.wrbyte arg)
  | 0xB => .ok (.meas (kindOfBit (arg.getLsbD 0)))
  | 0xC => .ok (.tcels opA)
  | 0xD => .ok (.hpct opA opB)
  | _ => .error (.reservedOpsel opsel)

/-- A command byte stands for its frame (30_encoding.md R82, R85). -/
def decodeFrame (command value : Byte) : Except DecodeError Instr :=
  match Command.ofByte command with
  | some .measureTemp => .ok .measureTemp
  | some .measureHumi => .ok .measureHumi
  | some .statusRegW => .ok (.statusRegW value)
  | some .statusRegR => .ok .statusRegR
  | some .reset => .ok .resetCommand
  | none => .error (.reservedCommand command)

/-- Decoding, total on every value of every port. -/
def decode : Request → Except DecodeError Instr
  | .host opsel arg => decodeHost opsel arg
  | .component opsel arg opA opB => decodeComponent opsel arg opA opB
  | .frame command value => decodeFrame command value

/-- `OPSEL` 0x8 to 0xD name the internal operations (30_encoding.md R88). -/
def isInternalOpsel (opsel : BitVec 4) : Bool :=
  decide (8 ≤ opsel.toNat) && decide (opsel.toNat ≤ 13)

/-- `ARG` with bit 0 as given and the other bits zero. -/
def argOfBit (b : Bool) : Byte :=
  if b then 1#8 else 0#8

/-- The bit `ARG[0]` of a kind (30_encoding.md R88). -/
def bitOfKind : Kind → Bool
  | .temperature => false
  | .humidity => true

/-- The request that carries an instruction (30_encoding.md R82, R88); ports it does not use are zero. -/
def encode : Instr → Request
  | .measureTemp => .frame Command.measureTemp.byte 0#8
  | .measureHumi => .frame Command.measureHumi.byte 0#8
  | .statusRegW value => .frame Command.statusRegW.byte value
  | .statusRegR => .frame Command.statusRegR.byte 0#8
  | .resetCommand => .frame Command.reset.byte 0#8
  | .read => .host 0x1#4 0#8
  | .rdstat => .host 0x2#4 0#8
  | .wrstat value => .host 0x3#4 value
  | .sreset => .host 0x4#4 0#8
  | .creset => .host 0x5#4 0#8
  | .tstart => .component 0x8#4 0#8 0#16 0#16
  | .rdbyte sendAck => .component 0x9#4 (argOfBit sendAck) 0#16 0#16
  | .wrbyte value => .component 0xA#4 value 0#16 0#16
  | .meas kind => .component 0xB#4 (argOfBit (bitOfKind kind)) 0#16 0#16
  | .tcels raw => .component 0xC#4 0#8 raw 0#16
  | .hpct rawHumi rawTemp => .component 0xD#4 0#8 rawHumi rawTemp

/-- The request a word of spec/opcode_table.json stands for. A row of format `CMD8` has 8 bits, the whole
command byte; a row of format `HOSTOP` has the 4 bits of `OPSEL`. In both the next byte is the 8-bit
operand (`ARG`, or the value byte of the frame); the two operand ports follow. Where a whole byte is given
and it is one of the five command bytes, or has a bit above `OPSEL`, it is read as a command byte. That
settles 0x03 and 0x05, which are words of both levels (DESIGN CHOICE, log entry 6). -/
def Request.ofTableWord (nbits w : Nat) : Request :=
  let byte : Byte := BitVec.ofNat 8 w
  let arg : Byte := BitVec.ofNat 8 (w / 256)
  let opsel : BitVec 4 := BitVec.ofNat 4 w
  if decide (8 ≤ nbits) && ((Command.ofByte byte).isSome || decide (16 ≤ byte.toNat)) then
    .frame byte arg
  else if isInternalOpsel opsel then
    .component opsel arg (BitVec.ofNat 16 (w / 2 ^ 16)) (BitVec.ofNat 16 (w / 2 ^ 32))
  else
    .host opsel arg

/-- The instruction the decoder reads from an opcode-table word. -/
def decodeTableWord (nbits w : Nat) : Option Instr :=
  match decode (Request.ofTableWord nbits w) with
  | .ok i => some i
  | .error _ => none

/-- The request of a program's line (30_encoding.md R95). -/
def Program.requests (p : List Instr) : List Request :=
  p.map encode

end Sys2Proof
end

