-- ==== Sys2Proof/Machine/Operands.lean ====
section
/-! DEFINITION. Operand and result assembly (30_encoding.md R83, R84, R89), the bit order of a byte
(20_memory.md R62) and the fixed counts of the protocol (00_scope.md R8). -/

namespace Sys2Proof.Machine

/-- `POLL_MAX` (00_scope.md R8). -/
def pollMax : Nat := 240

/-- `POLL_SLEEP_MS` (00_scope.md R8). -/
def pollSleepMs : Nat := 1

/-- `CR_PULSES` (00_scope.md R8). -/
def crPulses : Nat := 9

/-- `BYTE_BITS` (00_scope.md R8). -/
def byteBits : Nat := 8

/-- `SR[i] <- b` (40_transport.md R101). -/
def setBit (v : Byte) (i : Nat) (b : Bool) : Byte :=
  if b then v ||| BitVec.twoPow 8 i else v &&& ~~~(BitVec.twoPow 8 i)

/-- The raw value of two received bytes: `zext_16(msb) * 256 + zext_16(lsb)` (30_encoding.md R84). -/
def assembleRaw (msb lsb : Byte) : U16 :=
  msb.zeroExtend 16 * 256#16 + lsb.zeroExtend 16

end Sys2Proof.Machine
end

