-- ==== Sys2Proof/Machine/Ops.lean ====
section
/-! DEFINITION. The named operations every meaning is built from: the line actions (00_scope.md R11,
20_memory.md R52) with the wire model (R55, R56), the write of `SEQ`, the acceptance of a request (10_state.md
R22), how an operation ends, well (`finish`) or by a failure (`failWith`, 60_exceptions.md R175), and the
host's reads (10_state.md R26, R31, R41). -/

namespace Sys2Proof.Machine

/-- The nine calls of the Line Driver (20_memory.md R50). -/
inductive LineCall where
  | setDataAsInput
  | setDataAsOutput
  | setDataHigh
  | setDataLow
  | getDataLevel (answer : Bool)
  | setClockHigh
  | setClockLow
  | delayMicroseconds (n : Nat)
  | delayMilliseconds (n : Nat)
deriving DecidableEq, Repr

/-- The expansion of a line action to Line Driver calls, in order (20_memory.md R52). A write of `SEQ`
calls nothing. -/
def eventCalls : Event → List LineCall
  | .rel => [.setDataAsInput, .delayMicroseconds Config.tStepUs]
  | .drv false => [.setDataLow, .setDataAsOutput, .delayMicroseconds Config.tStepUs]
  | .drv true => [.setDataHigh, .setDataAsOutput, .delayMicroseconds Config.tStepUs]
  | .clkHi => [.setClockHigh, .delayMicroseconds Config.tStepUs]
  | .clkLo => [.setClockLow, .delayMicroseconds Config.tStepUs]
  | .smp s => [.getDataLevel s]
  | .waitMs => [.delayMilliseconds pollSleepMs]
  | .seq _ => []

/-- The level of the data wire (20_memory.md R55): `none` is the undefined level of contention
(93_implementation_defined.md U5). -/
def dataWire (ddrv : Drive) (sensorPullsLow : Bool) : Option Level :=
  match ddrv, sensorPullsLow with
  | .out0, _ => some .low
  | .z, true => some .low
  | .z, false => some .high
  | .out1, false => some .high
  | .out1, true => none

/-- The drive state of `DRV(b)` (00_scope.md R11). -/
def driveOf (b : Bool) : Drive :=
  if b then .out1 else .out0

/-- `SEQ <- q`, with its place in the trace (41_sequencer.md R120). -/
def writeSeq (q : Seq) (s : State) : State :=
  { s with seq := q, log := .seq q :: s.log }

/-- `REL` (20_memory.md R52). -/
def actRel (s : State) : State :=
  { s with ddrv := .z, log := .rel :: s.log }

/-- `DRV(b)` (20_memory.md R52). -/
def actDrv (b : Bool) (s : State) : State :=
  { s with ddrv := driveOf b, log := .drv b :: s.log }

/-- `CLK_HI` (20_memory.md R52). -/
def actClkHi (s : State) : State :=
  { s with clk := .high, log := .clkHi :: s.log }

/-- `CLK_LO` (20_memory.md R52). -/
def actClkLo (s : State) : State :=
  { s with clk := .low, log := .clkLo :: s.log }

/-- `PULSE` is `CLK_HI; CLK_LO` (00_scope.md R11). -/
def actPulse (s : State) : State :=
  actClkLo (actClkHi s)

/-- `WAIT_MS` (20_memory.md R52). -/
def actWaitMs (s : State) : State :=
  { s with log := .waitMs :: s.log }

/-- The answer to the k-th sample from now, `true` for High: the one supplied for it, else a free value
numbered by the samples taken before it (20_memory.md R56; log entry 1). -/
def answerAt (script : List Bool) (taken k : Nat) : Bool :=
  match script[k]? with
  | some a => a
  | none => Config.sensorAnswer (taken + k)

/-- The sensor's answer to the k-th sample from now (20_memory.md R56). -/
def upcoming (s : State) (k : Nat) : Bool :=
  answerAt s.sensor s.samples k

/-- What `get_data_level()` returns: `true` when the wire is High (20_memory.md R51, R55). -/
def sampledLevel (s : State) : Bool :=
  match dataWire s.ddrv (!(upcoming s 0)) with
  | some .high => true
  | some .low => false
  | none => Config.contentionLevel s.samples

/-- `s <- SMP`: one sample of the data wire, which uses up one answer (20_memory.md R52, R56). -/
def actSmp (s : State) : Bool × State :=
  (sampledLevel s,
    { s with sensor := s.sensor.tail, samples := s.samples + 1, log := .smp (sampledLevel s) :: s.log })

/-- `SEQ` is `Idle`, `Done` or `Failed` (10_state.md R22). -/
def seqIdle : Seq → Bool
  | .idle => true
  | .done => true
  | .failed => true
  | .transmissionStarted => false
  | .commandSent => false
  | .measuring => false
  | .awaitingByte => false

/-- `CLK = Low` and `DDRV = Z` (10_state.md R25). -/
def wiresIdle (s : State) : Bool :=
  decide (s.clk = .low) && decide (s.ddrv = .z)

/-- An operation ends and gives its result (10_state.md R30; DEDUCED, log entry 14). -/
def finish (r : Result) (s : State) : State :=
  { s with res := r, resWritten := true }

/-- A failure inside a sequencer operation (60_exceptions.md R175): no further line action, `SEQ <- Failed`,
and the code goes to the caller. Nothing is saved and no handler runs; R177: there is nothing to return from. -/
def failWith (c : Code) (s : State) : Code × State :=
  (c, writeSeq .failed s)

/-- An operation that is accepted as a request: refused while the block is busy (30_encoding.md R91) or the
wires are not idle (93_implementation_defined.md U8; DEDUCED, log entry 18), else it runs to its end
(70_reset_and_hazards.md R202). -/
def accept (s : State) (run : State → State) : Host.Outcome State Fault Refusal :=
  if seqIdle s.seq then
    if wiresIdle s then .next (run s) else .refused .busNotIdle
  else .refused .busy

/-- A transport primitive on its own: its precondition is `CLK = Low` (40_transport.md R100 to R102; DEDUCED,
log entries 18, 19). -/
def withClockLow (s : State) (run : State → State) : Host.Outcome State Fault Refusal :=
  if s.clk = .low then .next (run s) else .refused .clockHigh

/-- A request that decodes to no instruction is refused by name (30_encoding.md R90, R91). -/
def refusalOf : DecodeError → Refusal
  | .reservedOpsel opsel => .reservedOpsel opsel
  | .internalAtHostPort opsel => .internalAtHostPort opsel
  | .reservedCommand command => .reservedCommand command

/-- A read by the host: any time the block is idle, with no effect (10_state.md R26, R31); `SEQ` says
busy or idle at any time (R20). `RES` only once an operation has ended: before that the read is "a fault, not
a value" (R41; 93_implementation_defined.md U2). That it is a function and not an instruction is log entry 24. -/
def hostRead (r : HostReg) (s : State) : Host.Outcome HostValue Fault Refusal :=
  match r with
  | .seq => .next (.seq s.seq)
  | .rawT => if seqIdle s.seq then .next (.word s.rawT) else .refused .busy
  | .rawH => if seqIdle s.seq then .next (.word s.rawH) else .refused .busy
  | .t10 => if seqIdle s.seq then .next (.word s.t10) else .refused .busy
  | .h10 => if seqIdle s.seq then .next (.word s.h10) else .refused .busy
  | .lastErr => if seqIdle s.seq then .next (.code s.lastErr) else .refused .busy
  | .res =>
    if seqIdle s.seq then
      if s.resWritten then .next (.result s.res) else .fault .resReadBeforeWritten
    else .refused .busy

end Sys2Proof.Machine
end

