-- ==== Sys2Proof/Machine/Transport.lean ====
section
/-! DEFINITION. Transport (40_transport.md R100 to R103) and the meanings of `TSTART`, `RDBYTE`, `WRBYTE`
and `CRESET`. The counter `BITCNT` is left as it stands at the end (DEDUCED, log entry 15). -/

namespace Sys2Proof.Machine

/-- `transmission_start()` (40_transport.md R100). The byte written next is a command (20_memory.md R67). -/
def transmissionStart (s : State) : State :=
  let s := actRel s
  let s := actClkHi s
  let s := actDrv false s
  let s := actClkLo s
  let s := actClkHi s
  let s := actRel s
  let s := actClkLo s
  { s with commandDue := true }

/-- One data bit of `read_byte`: `CLK_HI; s <- SMP; SR[i] <- s; CLK_LO` (40_transport.md R101). -/
def readBit (i : Nat) (s : State) : State :=
  let p := actSmp (actClkHi s)
  actClkLo { p.2 with sr := setBit p.2.sr i p.1, bitcnt := p.2.bitcnt + 1 }

/-- The data bits `n-1` down to 0 of `read_byte` (20_memory.md R62). -/
def readBits : Nat → State → State
  | 0, s => s
  | i + 1, s => readBits i (readBit i s)

/-- `read_byte(send_ack)` (40_transport.md R101): the byte, and the state after. A byte written next does not
stand directly after a transmission start (30_encoding.md R90). -/
def readByte (sendAck : Bool) (s : State) : Byte × State :=
  let s := actRel s
  let s := readBits byteBits { s with sr := 0#8, bitcnt := 0 }
  let s := if sendAck then actDrv false s else s
  let s := actPulse s
  let s := if sendAck then actRel s else s
  (s.sr, { s with commandDue := false })

/-- One data bit of `write_byte`: `DRV(SR[i]); CLK_HI; CLK_LO` (40_transport.md R102). -/
def writeBit (i : Nat) (s : State) : State :=
  let s := actPulse (actDrv (s.sr.getLsbD i) s)
  { s with bitcnt := s.bitcnt + 1 }

/-- The data bits `n-1` down to 0 of `write_byte` (20_memory.md R62). -/
def writeBits : Nat → State → State
  | 0, s => s
  | i + 1, s => writeBits i (writeBit i s)

/-- `write_byte(value)` (40_transport.md R102): `WriteError` if and only if the one sample is 1. -/
def writeByte (value : Byte) (s : State) : Code × State :=
  let s := writeBits byteBits { s with sr := value, bitcnt := 0 }
  let s := actRel s
  let p := actSmp (actClkHi s)
  let s := actClkLo p.2
  (ackCode p.1, { s with commandDue := false })

/-- `n` clock pulses, counted by `BITCNT` (40_transport.md R103). -/
def pulses : Nat → State → State
  | 0, s => s
  | n + 1, s =>
    let s := actPulse s
    pulses n { s with bitcnt := s.bitcnt + 1 }

/-- `connection_reset()` (40_transport.md R103): data released, nine pulses, a transmission start. -/
def connectionReset (s : State) : State :=
  let s := actRel s
  transmissionStart (pulses crPulses { s with bitcnt := 0 })

/-- `TSTART` (40_transport.md R100): no result, and `SEQ` as it is (DEDUCED, log entry 13). -/
def execTstart (s : State) : Host.Outcome State Fault Refusal :=
  withClockLow s fun s => finish .none (transmissionStart s)

/-- `RDBYTE` (40_transport.md R101): a byte, and no result code. -/
def execRdbyte (sendAck : Bool) (s : State) : Host.Outcome State Fault Refusal :=
  withClockLow s fun s =>
    let p := readByte sendAck s
    finish (.byte p.1) p.2

/-- `WRBYTE` (40_transport.md R102) takes any byte. Directly after a transmission start the byte heads a
frame, and one that is no command is then refused (30_encoding.md R90; DEDUCED, log entry 16). -/
def execWrbyte (value : Byte) (s : State) : Host.Outcome State Fault Refusal :=
  if s.commandDue && (Command.ofByte value).isNone then .refused (.reservedCommand value)
  else
    withClockLow s fun s =>
      let p := writeByte value s
      finish (.code p.1) p.2

/-- `CRESET` (40_transport.md R103) as a public operation: always `Ok` (90_conflicts.md C3), with the
`SEQ` events of 41_sequencer.md R120. -/
def execCreset (s : State) : Host.Outcome State Fault Refusal :=
  accept s fun s =>
    let s := connectionReset (writeSeq .idle s)
    let s := writeSeq .done (writeSeq .transmissionStarted s)
    finish (.code .ok) s

end Sys2Proof.Machine
end

