-- ==== Sys2Proof/Machine/Sequencer.lean ====
section
/-! DEFINITION. The Command Sequencer (41_sequencer.md R120 to R125) and the meanings of `MEAS`, `RDSTAT`,
`WRSTAT` and `SRESET`. -/

namespace Sys2Proof.Machine

/-- The head of a frame: transmission start and command byte (41_sequencer.md R121 steps 1 and 2, R123,
R124), with the `SEQ` events of R120. The code says whether the command byte was acknowledged. -/
def frameHead (c : Command) (s : State) : Code × State :=
  let s := writeSeq .transmissionStarted (transmissionStart s)
  let p := writeByte c.byte s
  if p.1 = .ok then (.ok, writeSeq .commandSent p.2) else failWith p.1 p.2

/-- The polls that are left: `WAIT_MS`, then one sample; the first Low sample ends the poll
(41_sequencer.md R122). -/
def pollLoop : Nat → State → Bool × State
  | 0, s => (false, s)
  | n + 1, s =>
    let p := actSmp (actWaitMs { s with pollcnt := s.pollcnt + 1 })
    if p.1 then pollLoop n p.2 else (true, p.2)

/-- `poll()` (41_sequencer.md R122): `REL`, then at most `POLL_MAX` polls counted by `POLLCNT`. -/
def poll (s : State) : Bool × State :=
  let s := writeSeq .measuring (actRel s)
  pollLoop pollMax { s with pollcnt := 0 }

/-- Steps 4 and 5 of `measure` (41_sequencer.md R121): two bytes with acknowledge, one checksum byte
without, which is dropped (30_encoding.md R86). -/
def readRaw (s : State) : U16 × State :=
  let msb := readByte true s
  let lsb := readByte true msb.2
  let chk := readByte false lsb.2
  (assembleRaw msb.1 lsb.1, chk.2)

/-- `measure(kind)` (41_sequencer.md R121): `okRaw`, or the code of the failure. -/
def measure (kind : Kind) (s : State) : Result × State :=
  let h := frameHead (commandFor kind) (writeSeq .idle s)
  if h.1 = .ok then
    let p := poll h.2
    if p.1 then
      let r := readRaw (writeSeq .awaitingByte p.2)
      (.okRaw r.1, writeSeq .done r.2)
    else
      let f := failWith .timeout p.2
      (.code f.1, f.2)
  else (.code h.1, h.2)

/-- `read_status_register()` (41_sequencer.md R123), from the accepted request on. -/
def readStatusRegister (s : State) : Result × State :=
  let h := frameHead .statusRegR (writeSeq .idle s)
  if h.1 = .ok then
    let status := readByte true (writeSeq .awaitingByte h.2)
    let chk := readByte false status.2
    (.okStatus status.1 chk.1, writeSeq .done chk.2)
  else (.code h.1, h.2)

/-- The last byte an operation writes ends it: `Done`, or a failure (41_sequencer.md R124, R125). -/
def endOnCode (p : Code × State) : Code × State :=
  if p.1 = .ok then (.ok, writeSeq .done p.2) else failWith p.1 p.2

/-- `write_status_register(value)` (41_sequencer.md R124), from the accepted request on. -/
def writeStatusRegister (value : Byte) (s : State) : Code × State :=
  let h := frameHead .statusRegW (writeSeq .idle s)
  if h.1 = .ok then endOnCode (writeByte value h.2) else h

/-- `soft_reset()` (41_sequencer.md R125), from the accepted request on: the transmission start is the one
inside `connection_reset`. -/
def softReset (s : State) : Code × State :=
  let s := writeSeq .transmissionStarted (connectionReset (writeSeq .idle s))
  let p := writeByte Command.reset.byte s
  if p.1 = .ok then endOnCode (.ok, writeSeq .commandSent p.2) else failWith p.1 p.2

/-- Run a measurement and give its result. -/
def runMeasure (kind : Kind) (s : State) : State :=
  let p := measure kind s
  finish p.1 p.2

/-- Run a status register read and give its result. -/
def runReadStatus (s : State) : State :=
  let p := readStatusRegister s
  finish p.1 p.2

/-- Run a status register write and give its result. -/
def runWriteStatus (value : Byte) (s : State) : State :=
  let p := writeStatusRegister value s
  finish (.code p.1) p.2

/-- Run a soft reset and give its result. -/
def runSoftReset (s : State) : State :=
  let p := softReset s
  finish (.code p.1) p.2

/-- `MEAS` (41_sequencer.md R121). -/
def execMeas (kind : Kind) (s : State) : Host.Outcome State Fault Refusal :=
  accept s (runMeasure kind)

/-- `RDSTAT` (41_sequencer.md R123). -/
def execRdstat (s : State) : Host.Outcome State Fault Refusal :=
  accept s runReadStatus

/-- `WRSTAT` (41_sequencer.md R124). -/
def execWrstat (value : Byte) (s : State) : Host.Outcome State Fault Refusal :=
  accept s (runWriteStatus value)

/-- `SRESET` (41_sequencer.md R125). -/
def execSreset (s : State) : Host.Outcome State Fault Refusal :=
  accept s runSoftReset

end Sys2Proof.Machine
end

