-- ==== Sys2Proof/Machine/Commands.lean ====
section
/-! DEFINITION. The meanings of the five command bytes (30_encoding.md R82). A command byte stands for the
frame it heads (R85); its row names the rule of the operation that sends it (DEDUCED, log entry 17). -/

namespace Sys2Proof.Machine

/-- `MEASURE_TEMP` 0x03: the frame of `measure(Temperature)` (41_sequencer.md R121). -/
def execMeasureTemp (s : State) : Host.Outcome State Fault Refusal :=
  accept s (runMeasure .temperature)

/-- `MEASURE_HUMI` 0x05: the frame of `measure(Humidity)` (41_sequencer.md R121). -/
def execMeasureHumi (s : State) : Host.Outcome State Fault Refusal :=
  accept s (runMeasure .humidity)

/-- `STATUS_REG_W` 0x06: the frame of `write_status_register(value)` (41_sequencer.md R124). -/
def execStatusRegW (value : Byte) (s : State) : Host.Outcome State Fault Refusal :=
  accept s (runWriteStatus value)

/-- `STATUS_REG_R` 0x07: the frame of `read_status_register()` (41_sequencer.md R123). -/
def execStatusRegR (s : State) : Host.Outcome State Fault Refusal :=
  accept s runReadStatus

/-- `RESET` 0x1E: the frame of `soft_reset()` (41_sequencer.md R125). -/
def execResetCommand (s : State) : Host.Outcome State Fault Refusal :=
  accept s runSoftReset

end Sys2Proof.Machine
end

