-- ==== Sys2Proof/Machine/Numerics.lean ====
section
/-! DEFINITION. The arithmetic of the calibration functions (42_calibration.md R140, R141). A number is
held as its exact rational value. Under `B64` an operation is the exact operation followed by one rounding
to the nearest binary64 number, ties to even; under `Q` nothing is rounded. Every value that arises is finite
and far from the ends of the binary64 range (R142, R145), and no result is a negative zero (PRESUMED, log
entry 21; DEDUCED, log entry 22). -/

namespace Sys2Proof.Machine

/-- The exponent `l` with `2^l ≤ n/d < 2^(l+1)`, for positive `n` and `d`. -/
def floorLog2 (n d : Nat) : Int :=
  let l : Int := (Nat.log2 n : Int) - (Nat.log2 d : Int)
  if d * 2 ^ l.toNat ≤ n * 2 ^ (-l).toNat then l else l - 1

/-- `a / b` rounded to the nearest integer, ties to even. -/
def divRoundEven (a b : Nat) : Nat :=
  let q := a / b
  let r := a % b
  if 2 * r < b then q else if b < 2 * r then q + 1 else q + q % 2

/-- The exponent of the last place of the binary64 numbers around `n/d`: 53 significant bits, and never
below the subnormal spacing. -/
def ulpExponent (n d : Nat) : Int :=
  max (floorLog2 n d - 52) (-1074)

/-- `m * 2^e`. -/
def scaleTwo (m : Nat) (e : Int) : Rat :=
  mkRat (m * 2 ^ e.toNat : Nat) (2 ^ (-e).toNat)

/-- The binary64 number nearest to `x`, ties to even, as its exact value (42_calibration.md R140). -/
def roundB64 (x : Rat) : Rat :=
  if x.num = 0 then 0
  else
    let n := x.num.natAbs
    let d := x.den
    let e := ulpExponent n d
    let v := scaleTwo (divRoundEven (n * 2 ^ (-e).toNat) (d * 2 ^ e.toNat)) e
    if x.num < 0 then -v else v

/-- The rounding of a setting of `NUMERICS`. -/
def roundNum : Numerics → Rat → Rat
  | .b64, x => roundB64 x
  | .q, x => x

/-- A decimal literal: the nearest binary64 number under `B64`, itself under `Q` (00_scope.md R13). -/
def literal (n : Numerics) (x : Rat) : Rat :=
  roundNum n x

/-- `+` (42_calibration.md R140). -/
def addNum (n : Numerics) (x y : Rat) : Rat :=
  roundNum n (x + y)

/-- `-` (42_calibration.md R140). -/
def subNum (n : Numerics) (x y : Rat) : Rat :=
  roundNum n (x - y)

/-- `*` (42_calibration.md R140). -/
def mulNum (n : Numerics) (x y : Rat) : Rat :=
  roundNum n (x * y)

/-- `/` (42_calibration.md R140). -/
def divNum (n : Numerics) (x y : Rat) : Rat :=
  roundNum n (x / y)

/-- A `u16` operand converts exactly (42_calibration.md R140). -/
def ofU16 (v : U16) : Rat :=
  (v.toNat : Rat)

/-- `trunc`: rounding toward zero (00_scope.md R13). -/
def truncRat (x : Rat) : Int :=
  Int.tdiv x.num x.den

/-- The 64 bits of the binary64 number whose exact value is `x`: sign, 11 bits of exponent, 52 bits of
fraction. A value past the range would read as an infinity; none arises. -/
def packB64 (x : Rat) : BitVec 64 :=
  if x.num = 0 then 0#64
  else
    let n := x.num.natAbs
    let d := x.den
    let sign : Nat := if x.num < 0 then 2 ^ 63 else 0
    let l := floorLog2 n d
    let e := ulpExponent n d
    let m := n * 2 ^ (-e).toNat / (d * 2 ^ e.toNat)
    if 1023 < l then BitVec.ofNat 64 (sign + 2047 * 2 ^ 52)
    else if l < -1022 then BitVec.ofNat 64 (sign + m)
    else BitVec.ofNat 64 (sign + (l + 1023).toNat * 2 ^ 52 + (m - 2 ^ 52))

/-- The exact value of a finite binary64 pattern. -/
def unpackB64 (b : BitVec 64) : Rat :=
  let frac : Nat := b.toNat % 2 ^ 52
  let field : Nat := b.toNat / 2 ^ 52 % 2 ^ 11
  let v := if field = 0 then scaleTwo frac (-1074) else scaleTwo (2 ^ 52 + frac) ((field : Int) - 1075)
  if b.toNat < 2 ^ 63 then v else -v

/-- A value of type `f64` in the form the setting gives it (42_calibration.md R140). -/
def toNumber : Numerics → Rat → Number
  | .b64, x => .b64 (packB64 x)
  | .q, x => .q x

end Sys2Proof.Machine
end

