-- ==== Sys2Proof/Machine/Calibration.lean ====
section
/-! DEFINITION. Calibration (42_calibration.md): the two combinational functions, the truncation to
tenths, and the meanings of `TCELS` and `HPCT`. -/

namespace Sys2Proof.Machine

/-- `T_SCALE` (42_calibration.md R141). -/
def tScale (n : Numerics) : Rat := literal n (1 / 100)
/-- `T_OFFSET` (42_calibration.md R141). -/
def tOffset (n : Numerics) : Rat := literal n 40
/-- `C1` (42_calibration.md R141). -/
def c1 (n : Numerics) : Rat := literal n (-4)
/-- `C2` (42_calibration.md R141). -/
def c2 (n : Numerics) : Rat := literal n (81 / 2000)
/-- `C3` (42_calibration.md R141). -/
def c3 (n : Numerics) : Rat := literal n (-7 / 2500000)
/-- `T_REF` (42_calibration.md R141). -/
def tRef (n : Numerics) : Rat := literal n 25
/-- `T1` (42_calibration.md R141). -/
def t1 (n : Numerics) : Rat := literal n (1 / 100)
/-- `T2` (42_calibration.md R141). -/
def t2 (n : Numerics) : Rat := literal n (1 / 12500)
/-- `RH_MIN` (42_calibration.md R141). -/
def rhMin (n : Numerics) : Rat := literal n (1 / 10)
/-- `RH_MAX` (42_calibration.md R141). -/
def rhMax (n : Numerics) : Rat := literal n 100
/-- `TEN` (42_calibration.md R141). -/
def ten (n : Numerics) : Rat := literal n 10

/-- `(raw * T_SCALE) - T_OFFSET` (42_calibration.md R142). -/
def temperatureCelsius (n : Numerics) (raw : U16) : Rat :=
  subNum n (mulNum n (ofU16 raw) (tScale n)) (tOffset n)

/-- `((C3 * sq) + (C2 * h)) + C1` with `sq = h * h` (42_calibration.md R143). -/
def rhLinear (n : Numerics) (rawHumi : U16) : Rat :=
  let h := ofU16 rawHumi
  let sq := mulNum n h h
  addNum n (addNum n (mulNum n (c3 n) sq) (mulNum n (c2 n) h)) (c1 n)

/-- `((t_C - T_REF) * (T1 + (T2 * h))) + rh_lin` (42_calibration.md R144). -/
def rhTrue (n : Numerics) (rawHumi rawTemp : U16) : Rat :=
  let tC := temperatureCelsius n rawTemp
  addNum n
    (mulNum n (subNum n tC (tRef n)) (addNum n (t1 n) (mulNum n (t2 n) (ofU16 rawHumi))))
    (rhLinear n rawHumi)

/-- The clamp to the closed interval (42_calibration.md R145). -/
def clampRh (n : Numerics) (rh : Rat) : Rat :=
  if rhMax n < rh then rhMax n else if rh < rhMin n then rhMin n else rh

/-- `humidity_percent` (42_calibration.md R146). -/
def humidityPercent (n : Numerics) (rawHumi rawTemp : U16) : Rat :=
  clampRh n (rhTrue n rawHumi rawTemp)

/-- `tenths(x) = trunc(x * TEN)` (42_calibration.md R147). -/
def tenths (n : Numerics) (x : Rat) : Int :=
  truncRat (mulNum n x (ten n))

/-- The value of `T10` for a raw temperature (43_read_api.md R160 step 1). -/
def tempTenths (n : Numerics) (raw : U16) : Int :=
  tenths n (temperatureCelsius n raw)

/-- The value of `H10` for a raw humidity and a raw temperature (43_read_api.md R160 step 2). -/
def humiTenths (n : Numerics) (rawHumi rawTemp : U16) : Int :=
  tenths n (humidityPercent n rawHumi rawTemp)

/-- A tenths value converted to the numeric type and divided by ten once (43_read_api.md R164). -/
def tenthsToNumber (n : Numerics) (v : Int) : Number :=
  toNumber n (divNum n (v : Rat) (ten n))

/-- `TCELS` (42_calibration.md R142): combinational, nothing is stored (10_state.md R33). -/
def execTcels (raw : U16) (s : State) : Host.Outcome State Fault Refusal :=
  .next { s with
    calOut := .number (toNumber s.params.numerics (temperatureCelsius s.params.numerics raw)) }

/-- `HPCT` (42_calibration.md R146): combinational, nothing is stored (10_state.md R33). -/
def execHpct (rawHumi rawTemp : U16) (s : State) : Host.Outcome State Fault Refusal :=
  .next { s with
    calOut := .number (toNumber s.params.numerics (humidityPercent s.params.numerics rawHumi rawTemp)) }

end Sys2Proof.Machine
end

