-- ==== Sys2Proof/Machine/ReadApi.lean ====
section
/-! DEFINITION. The Public Read API (43_read_api.md R160 to R164) and the meaning of `READ`. -/

namespace Sys2Proof.Machine

/-- `fail_raw(old)` (43_read_api.md R163). -/
def failRaw (old : U16) (s : State) : U16 × State :=
  match s.params.failRaw with
  | .any => (Config.freeRaw s.rawDraws, { s with rawDraws := s.rawDraws + 1 })
  | .zero => (0#16, s)
  | .stale => (old, s)

/-- The raw value a stage leaves, and the state after: what was measured, or the substitute
(43_read_api.md R160 steps 1 and 2). -/
def stageRaw (r : Result) (old : U16) (s : State) : U16 × State :=
  match r with
  | .okRaw raw => (raw, s)
  | _ => failRaw old s

/-- The code of a stage (43_read_api.md R160: `code(r)`). -/
def stageCode (r : Result) : Code :=
  match r with
  | .code c => c
  | _ => .ok

/-- Step 1 of `read` (43_read_api.md R160). -/
def readTemperature (s : State) : Code × State :=
  let r := measure .temperature s
  let v := stageRaw r.1 r.2.rawT r.2
  let s := { v.2 with rawT := v.1 }
  (stageCode r.1, { s with t10 := BitVec.ofInt 16 (tempTenths s.params.numerics s.rawT) })

/-- Step 2 of `read`, always attempted (43_read_api.md R160). -/
def readHumidity (s : State) : Code × State :=
  let r := measure .humidity s
  let v := stageRaw r.1 r.2.rawH r.2
  let s := { v.2 with rawH := v.1 }
  (stageCode r.1, { s with h10 := BitVec.ofInt 16 (humiTenths s.params.numerics s.rawH s.rawT) })

/-- The pair `read` returns in every case (43_read_api.md R162, R164). -/
def returnedPair (s : State) : Result :=
  .readings (tenthsToNumber s.params.numerics s.t10.toInt)
    (tenthsToNumber s.params.numerics (s.h10.toNat : Int))

/-- `read()` (43_read_api.md R160), from the accepted request on. -/
def runRead (s : State) : State :=
  let rt := readTemperature (writeSeq .idle s)
  let rh := readHumidity rt.2
  let s := { rh.2 with lastErr := lastErrAfter rh.2.params.lastErrClear rt.1 rh.1 rh.2.lastErr }
  finish (returnedPair s) s

/-- `READ` (43_read_api.md R160): it always completes; failure shows only in `LAST_ERR`. -/
def execRead (s : State) : Host.Outcome State Fault Refusal :=
  accept s runRead

end Sys2Proof.Machine
end

