-- ==== Sys2Proof/Machine/Dispatch.lean ====
section
/-! DEFINITION. exec: one arm per constructor of Instr, each one direct call of its meaning. -/

namespace Sys2Proof.Machine

def exec (i : Instr) (s : State) : Host.Outcome State Fault Refusal :=
  match i with
  | .measureTemp => Sys2Proof.Machine.execMeasureTemp s
  | .measureHumi => Sys2Proof.Machine.execMeasureHumi s
  | .statusRegW value => Sys2Proof.Machine.execStatusRegW value s
  | .statusRegR => Sys2Proof.Machine.execStatusRegR s
  | .resetCommand => Sys2Proof.Machine.execResetCommand s
  | .read => Sys2Proof.Machine.execRead s
  | .rdstat => Sys2Proof.Machine.execRdstat s
  | .wrstat value => Sys2Proof.Machine.execWrstat value s
  | .sreset => Sys2Proof.Machine.execSreset s
  | .creset => Sys2Proof.Machine.execCreset s
  | .tstart => Sys2Proof.Machine.execTstart s
  | .rdbyte sendAck => Sys2Proof.Machine.execRdbyte sendAck s
  | .wrbyte value => Sys2Proof.Machine.execWrbyte value s
  | .meas kind => Sys2Proof.Machine.execMeas kind s
  | .tcels raw => Sys2Proof.Machine.execTcels raw s
  | .hpct rawHumi rawTemp => Sys2Proof.Machine.execHpct rawHumi rawTemp s

end Sys2Proof.Machine
end

