-- ==== Sys2Proof/Machine/Step.lean ====
section
/-! DEFINITION. One step (DEDUCED, log entry 12): the block takes the next request and performs it whole (70_reset_and_hazards.md
R195), or does nothing if there is none (R190). -/

namespace Sys2Proof.Machine

/-- The first request is taken and its instruction executed. With no request the block stays as it is
(70_reset_and_hazards.md R190: it "does nothing until the host makes its first request"). -/
def step (s : State) : Host.Outcome State Fault Refusal :=
  match s.requests with
  | [] => .next s
  | r :: rest =>
    match decode r with
    | .ok i => exec i { s with requests := rest }
    | .error e => .refused (refusalOf e)

/-- The state in which an opcode-table word is the next request. A program comes from outside the block:
this stands for the request made at the port (DESIGN CHOICE, log entry 9). -/
def State.withFetchWord (s : State) (nbits w : Nat) : State :=
  { s with requests := Request.ofTableWord nbits w :: s.requests }

end Sys2Proof.Machine
end

