-- ==== Sys2Proof/Safety.lean ====
section
/-! DEFINITION. The terms claims are stated in: the events of each protocol pattern as the spec's worked
examples list them, what the sensor's answers decide about a measurement, what an operation leaves alone,
the Line Driver pins behind the trace, and the states the block is in between operations. -/

namespace Sys2Proof.Machine

/-! ### Patterns on the wires -/

/-- The bits of a byte in the order of the wire, bit 7 first (20_memory.md R62). -/
def bitsMsb (v : Byte) : List Bool :=
  [v.getLsbD 7, v.getLsbD 6, v.getLsbD 5, v.getLsbD 4, v.getLsbD 3, v.getLsbD 2, v.getLsbD 1, v.getLsbD 0]

/-- The byte whose bits arrive as `f 0, …, f 7`, the first being bit 7 (20_memory.md R62). -/
def byteOf (f : Nat → Bool) : Byte :=
  BitVec.ofBoolListBE [f 0, f 1, f 2, f 3, f 4, f 5, f 6, f 7]

/-- The transmission start, `TS` (40_transport.md R100). -/
def tsEvents : List Event :=
  [.rel, .clkHi, .drv false, .clkLo, .clkHi, .rel, .clkLo]

/-- A byte written, with the answer in its acknowledge slot (40_transport.md R102). -/
def writeEvents (v : Byte) (ack : Bool) : List Event :=
  (bitsMsb v).flatMap (fun b => [.drv b, .clkHi, .clkLo]) ++ [.rel, .clkHi, .smp ack, .clkLo]

/-- A byte read (40_transport.md R101). -/
def readEvents (sendAck : Bool) (v : Byte) : List Event :=
  [.rel] ++ (bitsMsb v).flatMap (fun b => [.clkHi, .smp b, .clkLo]) ++
    (if sendAck then [.drv false, .clkHi, .clkLo, .rel] else [.clkHi, .clkLo])

/-- The connection reset, `CR` (40_transport.md R103). -/
def crEvents : List Event :=
  [.rel] ++ (List.replicate 9 [Event.clkHi, .clkLo]).flatten ++ tsEvents

/-- The polls before the last one all answered High; `n` of them (41_sequencer.md R122). -/
def highPolls (n : Nat) : List Event :=
  (List.replicate n [Event.waitMs, .smp true]).flatten

/-- The delays of a trace: short ones, one for each `REL`, `DRV`, `CLK_HI` and `CLK_LO` (20_memory.md R53). -/
def shortDelays : List Event → Nat
  | [] => 0
  | .rel :: l => shortDelays l + 1
  | .drv _ :: l => shortDelays l + 1
  | .clkHi :: l => shortDelays l + 1
  | .clkLo :: l => shortDelays l + 1
  | .smp _ :: l => shortDelays l
  | .waitMs :: l => shortDelays l
  | .seq _ :: l => shortDelays l

/-- The one-millisecond delays of a trace (70_reset_and_hazards.md R206). -/
def msDelays (l : List Event) : Nat :=
  l.countP fun e => decide (e = .waitMs)

/-- The operation that leads from `s` to `t` added the events `es`, in this order. -/
def Adds (s t : State) (es : List Event) : Prop :=
  t.log = es.reverse ++ s.log

/-- The line actions of a trace that act on the wires or wait (00_scope.md R11), without the samples and the
writes of `SEQ`. -/
def lineActions (l : List Event) : List Event :=
  l.filter fun e => match e with
    | .rel => true
    | .drv _ => true
    | .clkHi => true
    | .clkLo => true
    | .smp _ => false
    | .waitMs => true
    | .seq _ => false

/-- The levels driven onto the data wire, in order. -/
def drivenBits (l : List Event) : List Bool :=
  l.filterMap fun e => match e with
    | .rel => none
    | .drv b => some b
    | .clkHi => none
    | .clkLo => none
    | .smp _ => none
    | .waitMs => none
    | .seq _ => none

/-- The answers sampled in a trace, in order. -/
def samplesOf (l : List Event) : List Bool :=
  l.filterMap fun e => match e with
    | .rel => none
    | .drv _ => none
    | .clkHi => none
    | .clkLo => none
    | .smp a => some a
    | .waitMs => none
    | .seq _ => none

/-- `CLK` and `DDRV` as they are observed, and the samples and waits between (20_memory.md R54). -/
inductive WireEvent where
  | wire (clk : Level) (drive : Drive)
  | sample (answer : Bool)
  | ms
deriving DecidableEq, Repr

/-- What is seen on the wires of a list of events, from a start state (20_memory.md R54; the notation of
95_test_vectors.md). -/
def wireTrace : Level → Drive → List Event → List WireEvent
  | _, _, [] => []
  | c, _, .rel :: l => .wire c .z :: wireTrace c .z l
  | c, _, .drv b :: l => .wire c (driveOf b) :: wireTrace c (driveOf b) l
  | _, d, .clkHi :: l => .wire .high d :: wireTrace .high d l
  | _, d, .clkLo :: l => .wire .low d :: wireTrace .low d l
  | c, d, .smp a :: l => .sample a :: wireTrace c d l
  | c, d, .waitMs :: l => .ms :: wireTrace c d l
  | c, d, .seq _ :: l => wireTrace c d l

/-! ### What the answers decide -/

/-- How a measurement ends and how many answers it uses. -/
structure Stage where
  code  : Code
  raw   : U16
  polls : Nat
  used  : Nat
deriving DecidableEq, Repr

/-- The measurement whose first sample is the k-th from now: the acknowledge slot of the command byte, at
most 240 polls up to the first Low one, then three bytes of which the third is dropped (41_sequencer.md
R121, R122). `raw` is meant only where the code is `Ok`. -/
def stageAt (s : State) (k : Nat) : Stage :=
  if upcoming s k then ⟨.writeError, 0#16, 0, 1⟩
  else
    match (List.range 240).find? fun j => !(upcoming s (k + 1 + j)) with
    | none => ⟨.timeout, 0#16, 240, 241⟩
    | some j =>
      let b := k + 2 + j
      ⟨.ok, byteOf (fun i => upcoming s (b + i)) ++ byteOf (fun i => upcoming s (b + 8 + i)), j + 1, 26 + j⟩

/-- The three bytes of a measurement whose first data bit is the b-th answer (41_sequencer.md R121 step 4). -/
def rawEvents (s : State) (b : Nat) : List Event :=
  readEvents true (byteOf fun i => upcoming s (b + i)) ++
    readEvents true (byteOf fun i => upcoming s (b + 8 + i)) ++
    readEvents false (byteOf fun i => upcoming s (b + 16 + i))

/-- The trace of the measurement whose first sample is the k-th from now (41_sequencer.md R120 to R122). -/
def measureEvents (kind : Kind) (s : State) (k : Nat) : List Event :=
  let g := stageAt s k
  [.seq .idle] ++ tsEvents ++ [.seq .transmissionStarted] ++ writeEvents (commandFor kind).byte (upcoming s k) ++
    match g.code with
    | .writeError => [.seq .failed]
    | .timeout => [.seq .commandSent, .rel, .seq .measuring] ++ highPolls 240 ++ [.seq .failed]
    | .ok =>
      [.seq .commandSent, .rel, .seq .measuring] ++ highPolls (g.polls - 1) ++ [.waitMs, .smp false] ++
        [.seq .awaitingByte] ++ rawEvents s (k + 1 + g.polls) ++ [.seq .done]

/-- The end state of a measurement (41_sequencer.md R120). -/
def seqOfCode : Code → Seq
  | .ok => .done
  | .writeError => .failed
  | .timeout => .failed

/-- The result of a measurement (41_sequencer.md R121). -/
def Stage.result (g : Stage) : Result :=
  match g.code with
  | .ok => .okRaw g.raw
  | .writeError => .code .writeError
  | .timeout => .code .timeout

/-- The instructions that are one measurement, and of what kind (30_encoding.md R82, R88). -/
def measures : Instr → Option Kind
  | .meas k => some k
  | .measureTemp => some .temperature
  | .measureHumi => some .humidity
  | .statusRegW _ => none
  | .statusRegR => none
  | .resetCommand => none
  | .read => none
  | .rdstat => none
  | .wrstat _ => none
  | .sreset => none
  | .creset => none
  | .tstart => none
  | .rdbyte _ => none
  | .wrbyte _ => none
  | .tcels _ => none
  | .hpct _ _ => none

/-- The sequencer operations, which end in `Done` or `Failed` by their own result (41_sequencer.md R120). -/
def isSequencerOp : Instr → Bool
  | .measureTemp => true
  | .measureHumi => true
  | .statusRegW _ => true
  | .statusRegR => true
  | .resetCommand => true
  | .rdstat => true
  | .wrstat _ => true
  | .sreset => true
  | .meas _ => true
  | .read => false
  | .creset => false
  | .tstart => false
  | .rdbyte _ => false
  | .wrbyte _ => false
  | .tcels _ => false
  | .hpct _ _ => false

/-- The raw value a stage of `read` leaves: what was measured, else the substitute that `FAIL_RAW` selects
(43_read_api.md R160, R163). `draw` numbers the substitute draws. -/
def rawAfter (p : Params) (draw : Nat) (old : U16) (g : Stage) : U16 :=
  match g.code, p.failRaw with
  | .ok, _ => g.raw
  | _, .any => Config.freeRaw draw
  | _, .zero => 0#16
  | _, .stale => old

/-- How many substitute values a stage draws (43_read_api.md R163: "a fresh draw each time"). -/
def drawsOf (p : Params) (g : Stage) : Nat :=
  match g.code, p.failRaw with
  | .ok, _ => 0
  | _, .any => 1
  | _, .zero => 0
  | _, .stale => 0

/-! ### What an operation leaves alone -/

/-- The data registers and the last-error slot, which only `read` writes (10_state.md R26, R31). -/
structure KeepsData (s t : State) : Prop where
  rawT : t.rawT = s.rawT
  rawH : t.rawH = s.rawH
  t10 : t.t10 = s.t10
  h10 : t.h10 = s.h10
  lastErr : t.lastErr = s.lastErr

/-- What no bus operation writes but `read`: the data registers, the output of the calibration functions,
the parameters, the substitute draws and the requests that wait. -/
structure KeepsRest (s t : State) : Prop extends KeepsData s t where
  calOut : t.calOut = s.calOut
  params : t.params = s.params
  rawDraws : t.rawDraws = s.rawDraws
  requests : t.requests = s.requests

/-- An operation that took `n` samples used up `n` answers (20_memory.md R56). -/
structure Takes (n : Nat) (s t : State) : Prop where
  sensor : t.sensor = s.sensor.drop n
  samples : t.samples = s.samples + n

/-- An operation has ended with this result and left the wires idle (10_state.md R25, R30). -/
structure EndsWith (r : Result) (t : State) : Prop where
  res : t.res = r
  resWritten : t.resWritten = true
  clk : t.clk = .low
  ddrv : t.ddrv = .z

/-! ### The pins behind the trace -/

/-- What the Line Driver keeps: the clock level, the direction of the data pin and its output level
(10_state.md R24). -/
structure Pins where
  clk    : Level
  output : Bool
  level  : Level
deriving DecidableEq, Repr

/-- The effect of one call on the pins (20_memory.md R50). -/
def callPins (p : Pins) : LineCall → Pins
  | .setDataAsInput => { p with output := false }
  | .setDataAsOutput => { p with output := true }
  | .setDataHigh => { p with level := .high }
  | .setDataLow => { p with level := .low }
  | .getDataLevel _ => p
  | .setClockHigh => { p with clk := .high }
  | .setClockLow => { p with clk := .low }
  | .delayMicroseconds _ => p
  | .delayMilliseconds _ => p

/-- The drive state of the pins (10_state.md R24). -/
def Pins.drive (p : Pins) : Drive :=
  match p.output, p.level with
  | false, _ => .z
  | true, .low => .out0
  | true, .high => .out1

/-- The pins at power-on reset; the output level of a pin that is an input does not matter. -/
def Pins.reset : Pins := ⟨.low, false, .low⟩

/-- Every call since reset, in order (20_memory.md R50, R52). -/
def calls (s : State) : List LineCall :=
  s.log.reverse.flatMap eventCalls

/-- The pins after every call of the trace are the pins of the state. -/
def PinsAgree (s : State) : Prop :=
  ((calls s).foldl callPins Pins.reset).clk = s.clk ∧ ((calls s).foldl callPins Pins.reset).drive = s.ddrv

/-- No sample is taken unless the data pin is an input (20_memory.md R56), over a trace oldest first. -/
def samplesReleased : Drive → List Event → Bool
  | _, [] => true
  | _, .rel :: l => samplesReleased .z l
  | _, .drv b :: l => samplesReleased (driveOf b) l
  | d, .clkHi :: l => samplesReleased d l
  | d, .clkLo :: l => samplesReleased d l
  | d, .smp _ :: l => decide (d = .z) && samplesReleased d l
  | d, .waitMs :: l => samplesReleased d l
  | d, .seq _ :: l => samplesReleased d l

/-- The data drive state does not change while the clock is High (20_memory.md R72), over a trace oldest
first. -/
def dataStableWhileHigh : Level → Drive → List Event → Bool
  | _, _, [] => true
  | c, d, .rel :: l => (decide (c = .low) || decide (d = .z)) && dataStableWhileHigh c .z l
  | c, d, .drv b :: l => (decide (c = .low) || decide (d = driveOf b)) && dataStableWhileHigh c (driveOf b) l
  | _, d, .clkHi :: l => dataStableWhileHigh .high d l
  | _, d, .clkLo :: l => dataStableWhileHigh .low d l
  | c, d, .smp _ :: l => dataStableWhileHigh c d l
  | c, d, .waitMs :: l => dataStableWhileHigh c d l
  | c, d, .seq _ :: l => dataStableWhileHigh c d l

/-- The clock level after a list of events. -/
def clockAfter : Level → List Event → Level
  | c, [] => c
  | _, .clkHi :: l => clockAfter .high l
  | _, .clkLo :: l => clockAfter .low l
  | c, .rel :: l => clockAfter c l
  | c, .drv _ :: l => clockAfter c l
  | c, .smp _ :: l => clockAfter c l
  | c, .waitMs :: l => clockAfter c l
  | c, .seq _ :: l => clockAfter c l

/-- Every `REL` and every `DRV` is issued while the clock is Low (20_memory.md R72), over a trace oldest
first. -/
def drivesOnlyWhileLow : Level → List Event → Bool
  | _, [] => true
  | c, .rel :: l => decide (c = .low) && drivesOnlyWhileLow c l
  | c, .drv _ :: l => decide (c = .low) && drivesOnlyWhileLow c l
  | _, .clkHi :: l => drivesOnlyWhileLow .high l
  | _, .clkLo :: l => drivesOnlyWhileLow .low l
  | c, .smp _ :: l => drivesOnlyWhileLow c l
  | c, .waitMs :: l => drivesOnlyWhileLow c l
  | c, .seq _ :: l => drivesOnlyWhileLow c l

/-- A trace cut into pieces: each is a transmission start, or issues `REL` and `DRV` only while the clock is
Low (20_memory.md R72). -/
def drivesLowOutsideStarts : Level → List (List Event) → Bool
  | _, [] => true
  | c, p :: ps => (decide (p = tsEvents) || drivesOnlyWhileLow c p) && drivesLowOutsideStarts (clockAfter c p) ps

/-- How many transmission starts an instruction makes (30_encoding.md R94). -/
def transmissionStarts : Instr → Nat
  | .measureTemp => 1
  | .measureHumi => 1
  | .statusRegW _ => 1
  | .statusRegR => 1
  | .resetCommand => 1
  | .read => 2
  | .rdstat => 1
  | .wrstat _ => 1
  | .sreset => 1
  | .creset => 1
  | .tstart => 1
  | .rdbyte _ => 0
  | .wrbyte _ => 0
  | .meas _ => 1
  | .tcels _ => 0
  | .hpct _ _ => 0

/-! ### Between operations -/

/-- The block can take a request: it is idle and so are the wires (10_state.md R22, R25). -/
structure Ready (s : State) : Prop where
  seq : seqIdle s.seq = true
  clk : s.clk = .low
  ddrv : s.ddrv = .z

/-- What holds between operations: the block is ready, the counters are in their ranges (10_state.md R20),
and so are the readings (R28; before the first `read` they are 0, R39). -/
structure Inv (s : State) : Prop extends Ready s where
  bitcnt : s.bitcnt ≤ 9
  pollcnt : s.pollcnt ≤ 240
  t10 : -400 ≤ s.t10.toInt ∧ s.t10.toInt ≤ 6153
  h10 : s.h10.toNat ≤ 1000

/-- The instructions that are accepted as requests of the block; the others are the transport primitives
and the calibration functions, which look at no `SEQ` (40_transport.md R104, 42_calibration.md; DEDUCED, log entry
19). -/
def acceptsRequest : Instr → Bool
  | .measureTemp => true
  | .measureHumi => true
  | .statusRegW _ => true
  | .statusRegR => true
  | .resetCommand => true
  | .read => true
  | .rdstat => true
  | .wrstat _ => true
  | .sreset => true
  | .creset => true
  | .meas _ => true
  | .tstart => false
  | .rdbyte _ => false
  | .wrbyte _ => false
  | .tcels _ => false
  | .hpct _ _ => false

/-- Which port a request comes in by and the code it carries, without its operands. -/
def requestCode : Request → Nat × Nat
  | .host opsel _ => (0, opsel.toNat)
  | .component opsel _ _ _ => (1, opsel.toNat)
  | .frame command _ => (2, command.toNat)

/-- The codes an instruction's result may carry (60_exceptions.md R171). -/
def allowedCodes : Instr → List (Option Code)
  | .measureTemp => [some .ok, some .writeError, some .timeout]
  | .measureHumi => [some .ok, some .writeError, some .timeout]
  | .statusRegW _ => [some .ok, some .writeError]
  | .statusRegR => [some .ok, some .writeError]
  | .resetCommand => [some .ok, some .writeError]
  | .read => [none]
  | .rdstat => [some .ok, some .writeError]
  | .wrstat _ => [some .ok, some .writeError]
  | .sreset => [some .ok, some .writeError]
  | .creset => [some .ok]
  | .tstart => [none]
  | .rdbyte _ => [none]
  | .wrbyte _ => [some .ok, some .writeError]
  | .meas _ => [some .ok, some .writeError, some .timeout]
  | .tcels _ => [none]
  | .hpct _ _ => [none]

/-- The scaled integer `N(h, t)` of 42_calibration.md R148. -/
def scaledRh (h t : Int) : Int :=
  (t - 6500) * (1000 + 8 * h) + 405000 * h - 28 * h * h - 40000000

/-- The raw temperatures on which the two settings of `NUMERICS` give different tenths (42_calibration.md
R151). -/
def differingTemperatures : List Nat :=
  [1470, 1520, 1570, 1740, 1790, 1840, 1890, 1940, 1990, 2040, 2090, 2140, 2190, 2240, 2290, 2340,
    2390, 2440, 2490, 2540] ++
  [2590, 2640, 2690, 2740, 2760, 2790, 2810, 2840, 2860, 2890, 2910, 2940, 2960, 2990, 3010, 3040,
    3060, 3090, 3110, 3140] ++
  [3160, 3190, 3210, 3220, 3260, 3270, 3310, 3320, 3360, 3370, 3410, 3420, 3430, 3460, 3470, 3480,
    3510, 3520, 3530, 3560] ++
  [3570, 3580, 3610, 3620, 3630, 3660, 3670, 3680, 3710, 3720, 3730, 3760, 3770, 3780, 3810, 3820,
    3830, 3860, 3870, 3880] ++
  [3910, 3920, 3930, 3960, 3970, 3980, 4040, 4090, 4140, 4190, 4240, 4290, 4340, 4390, 4440, 4490,
    4540, 4590, 4640, 4690] ++
  [4740, 4790, 4840, 4890, 4940, 4990, 5040, 5090, 5140, 5190, 5240, 6410, 6430, 6460, 6480, 6510,
    6530, 6560, 6610, 6660] ++
  [6710, 6760, 6810, 12820, 12870, 12920, 12970, 13020, 13070, 13120, 13170, 13220, 13270, 13320,
    13370, 13420, 13470, 13520, 13570, 13620]

/-- A finite number binary64 can represent: at most 53 significant bits, and an exponent in its range
(42_calibration.md R140). -/
def IsB64 (y : Rat) : Prop :=
  ∃ (m : Nat) (e : Int), m < 2 ^ 53 ∧ -1074 ≤ e ∧ e ≤ 971 ∧ (y = scaleTwo m e ∨ y = -scaleTwo m e)

/-- A binary64 number whose significand is even, as "ties to even" means it (42_calibration.md R140). An odd
significand of 53 bits, or one at the lowest exponent, cannot be written with another exponent. -/
def IsEvenB64 (y : Rat) : Prop :=
  ∃ (m : Nat) (e : Int), m < 2 ^ 53 ∧ m % 2 = 0 ∧ -1074 ≤ e ∧ e ≤ 971 ∧ (y = scaleTwo m e ∨ y = -scaleTwo m e)

end Sys2Proof.Machine
end

