-- ==== Sys2Proof/Certificates/Slice0/Obligations.lean ====
section
/-! DEFINITION. The statements for the provers, from the numbered rules of spec/. A statement that rests on
a choice of the model names its log entry. -/

open Sys2Proof Sys2Proof.Machine

/-! ### Encoding and dispatch -/

/-- 30_encoding.md R82 and R88: some codes written out, with operands. -/
def Obligations.CodesDecodeToTheirInstruction : Prop :=
  decode (.frame 0b00000011#8 0#8) = .ok .measureTemp ∧
  decode (.frame 0b00000101#8 0#8) = .ok .measureHumi ∧
  decode (.frame 0b00000110#8 0x5A#8) = .ok (.statusRegW 0x5A#8) ∧
  decode (.frame 0b00000111#8 0#8) = .ok .statusRegR ∧
  decode (.frame 0b00011110#8 0#8) = .ok .resetCommand ∧
  decode (.host 0b0001#4 0#8) = .ok .read ∧
  decode (.host 0b0011#4 0x01#8) = .ok (.wrstat 0x01#8) ∧
  decode (.component 0b1001#4 0x01#8 0#16 0#16) = .ok (.rdbyte true) ∧
  decode (.component 0b1011#4 0x01#8 0#16 0#16) = .ok (.meas .humidity) ∧
  decode (.component 0b1101#4 0#8 400#16 6000#16) = .ok (.hpct 400#16 6000#16)

/-- 30_encoding.md R82, R88 (log entry 5): every instruction decodes from its own encoding with every
operand kept, and whatever decodes to an instruction carries the port and the code of its encoding. -/
def Obligations.DecodeAndEncodeAgree : Prop :=
  (∀ i : Instr, i.wellFormed = true → decode (encode i) = .ok i) ∧
  ∀ (r : Request) (i : Instr), decode r = .ok i → requestCode r = requestCode (encode i)

/-- 30_encoding.md R82: the table of the five commands, field by field and byte by byte; the decoder matches
the whole byte, so no other byte is a command; and which operation sends which, seen in the byte left in `SR`
when the command is not acknowledged. -/
def Obligations.CommandBytesHaveTheirFields : Prop :=
  (∀ c : Command, c.byte = 0b000#3 ++ c.cmdField ++ c.rwBit ∧ c.byte.extractLsb 7 5 = 0#3 ∧
    c.byte.extractLsb 4 1 = c.cmdField ∧ c.byte.extractLsb 0 0 = c.rwBit) ∧
  (∀ c : Command, c.byte.getLsbD 0 = true ↔ c = .measureTemp ∨ c = .measureHumi ∨ c = .statusRegR) ∧
  Command.measureTemp.cmdField = 0b0001#4 ∧ Command.measureHumi.cmdField = 0b0010#4 ∧
  Command.statusRegW.cmdField = 0b0011#4 ∧ Command.statusRegR.cmdField = 0b0011#4 ∧
  Command.reset.cmdField = 0b1111#4 ∧
  Command.measureTemp.byte = 0x03#8 ∧ Command.measureHumi.byte = 0x05#8 ∧ Command.statusRegW.byte = 0x06#8 ∧
  Command.statusRegR.byte = 0x07#8 ∧ Command.reset.byte = 0x1E#8 ∧
  (∀ (b : Byte) (c : Command), Command.ofByte b = some c ↔ b = c.byte) ∧
  ∀ s : State, Ready s → upcoming s 0 = true →
    (∃ t, exec (.meas .temperature) s = .next t ∧ t.sr = Command.measureTemp.byte) ∧
    (∃ t, exec (.meas .humidity) s = .next t ∧ t.sr = Command.measureHumi.byte) ∧
    (∀ value, ∃ t, exec (.wrstat value) s = .next t ∧ t.sr = Command.statusRegW.byte) ∧
    (∃ t, exec .rdstat s = .next t ∧ t.sr = Command.statusRegR.byte) ∧
    ∃ t, exec .sreset s = .next t ∧ t.sr = Command.reset.byte

/-- 30_encoding.md R91: at the host port a reserved code, an internal code, and any request while the
block is busy are refused; a refusal carries no state, so nothing has changed. -/
def Obligations.ReservedAndBusyRequestsRefused : Prop :=
  ∀ (s : State) (opsel : BitVec 4) (arg : Byte) (rest : List Request),
    s.requests = .host opsel arg :: rest →
      ((opsel.toNat = 0 ∨ opsel.toNat = 6 ∨ opsel.toNat = 7 ∨ opsel.toNat = 14 ∨ opsel.toNat = 15) →
        step s = .refused (.reservedOpsel opsel)) ∧
      (8 ≤ opsel.toNat ∧ opsel.toNat ≤ 13 → step s = .refused (.internalAtHostPort opsel)) ∧
      (seqIdle s.seq = false → ∃ why, step s = .refused why)

/-- 30_encoding.md R88, R95: the host port gives only public operations, and the requests of a well-formed
program are host requests that decode to its lines. -/
def Obligations.OnlyPublicOperationsAtTheHostPort : Prop :=
  (∀ (opsel : BitVec 4) (arg : Byte) (i : Instr), decode (.host opsel arg) = .ok i →
    i.visibility = .hostPublic ∧ 1 ≤ opsel.toNat ∧ opsel.toNat ≤ 5) ∧
  ∀ p : List Instr, Program.wellFormed p = true →
    (Program.requests p).map decode = p.map .ok ∧
    ∀ r ∈ Program.requests p, ∃ opsel arg, r = .host opsel arg

/-- 30_encoding.md R90: a byte that is none of the five commands is refused where it would head a frame. -/
def Obligations.ReservedCommandBytesRefused : Prop :=
  ∀ (s : State) (b v : Byte) (rest : List Request),
    b ≠ 0x03#8 → b ≠ 0x05#8 → b ≠ 0x06#8 → b ≠ 0x07#8 → b ≠ 0x1E#8 →
      (s.requests = .frame b v :: rest → step s = .refused (.reservedCommand b)) ∧
      (s.commandDue = true → exec (.wrbyte b) s = .refused (.reservedCommand b)) ∧
      (s.commandDue = false → s.clk = .low → ∃ t, exec (.wrbyte b) s = .next t)

/-- A step takes the first request and is exec of the instruction it decodes to (20_memory.md R65: in
request order). -/
def Obligations.StepRunsDecodedInstruction : Prop :=
  ∀ (s : State) (r : Request) (rest : List Request) (i : Instr),
    s.requests = r :: rest → decode r = .ok i → i.wellFormed = true →
      step s = exec i { s with requests := rest }

/-- An opcode-table word put where the next request is taken runs as its instruction (log entries 6, 9). -/
def Obligations.TableWordRunsAsNextInstruction : Prop :=
  ∀ (s : State) (nbits w : Nat) (i : Instr),
    decodeTableWord nbits w = some i → step (s.withFetchWord nbits w) = exec i s

/-- 70_reset_and_hazards.md R190: with no request the block does nothing, so from reset it stays in the
reset state until the host makes its first request. -/
def Obligations.NoRequestNoAction : Prop :=
  (∀ s : State, s.requests = [] → step s = .next s) ∧
  step State.reset = .next State.reset

/-- 10_state.md R36 to R40: the reset values the spec gives. -/
def Obligations.PowerOnReset : Prop :=
  State.reset.seq = .idle ∧ State.reset.clk = .low ∧ State.reset.ddrv = .z ∧
  State.reset.rawT = 0#16 ∧ State.reset.rawH = 0#16 ∧ State.reset.t10 = 0#16 ∧ State.reset.h10 = 0#16 ∧
  State.reset.lastErr = .ok

/-! ### Transport -/

/-- 40_transport.md R100: the pattern, step for step, with what is seen on the wires; nothing is sampled
and there is no result. With the clock High the start state is refused. Decisions D2, D7; that a bare `TSTART`
leaves `SEQ` alone is log entry 13, that it leaves `RES` without a result log entry 14, and that a command is
due afterwards log entry 16. The third clause, that every operation accepted as a request contains the pattern
followed by `SEQ <- TransmissionStarted`, does not come from R100: it rests on 41_sequencer.md R120 (decision
D10) with the expansions of 30_encoding.md R94 and 40_transport.md R103, and for the five command bytes on log
entry 17. The component form of the encoding is log entry 5. -/
def Obligations.TransmissionStartPattern : Prop :=
  (∀ s : State, s.clk = .low → ∃ t, exec .tstart s = .next t ∧
    Adds s t [.rel, .clkHi, .drv false, .clkLo, .clkHi, .rel, .clkLo] ∧
    wireTrace s.clk s.ddrv [.rel, .clkHi, .drv false, .clkLo, .clkHi, .rel, .clkLo] =
      [.wire .low .z, .wire .high .z, .wire .high .out0, .wire .low .out0, .wire .high .out0, .wire .high .z,
        .wire .low .z] ∧
    EndsWith .none t ∧ KeepsRest s t ∧ Takes 0 s t ∧
    t.seq = s.seq ∧ t.sr = s.sr ∧ t.bitcnt = s.bitcnt ∧ t.pollcnt = s.pollcnt ∧ t.commandDue = true) ∧
  (∀ s : State, s.clk = .high → exec .tstart s = .refused .clockHigh) ∧
  (∀ (i : Instr) (s : State), acceptsRequest i = true → Ready s → ∃ t before after,
    exec i s = .next t ∧
    Adds s t (before ++ [.rel, .clkHi, .drv false, .clkLo, .clkHi, .rel, .clkLo, .seq .transmissionStarted] ++
      after)) ∧
  shortDelays [.rel, .clkHi, .drv false, .clkLo, .clkHi, .rel, .clkLo] = 7 ∧
  encode .tstart = .component 0x8#4 0#8 0#16 0#16

/-- 40_transport.md R101: the byte is the next eight answers, bit 7 first, whatever they are; there is no
result code; 19 or 21 line actions. Decisions D2, D5; `RES` holding the byte is log entry 14, `BITCNT` ending
at 8 log entry 15, no command being due afterwards log entry 16, and the component form of the encoding log
entry 5. -/
def Obligations.ReadByteReturnsTheAnswers : Prop :=
  (∀ (sendAck : Bool) (s : State), s.clk = .low → ∃ v t, exec (.rdbyte sendAck) s = .next t ∧
    (∀ i, i < 8 → v.getLsbD i = upcoming s (7 - i)) ∧
    EndsWith (.byte v) t ∧ resultCode t.res = none ∧ t.sr = v ∧ t.bitcnt = 8 ∧
    Adds s t (readEvents sendAck v) ∧ shortDelays (readEvents sendAck v) = (if sendAck then 21 else 19) ∧
    Takes 8 s t ∧ KeepsRest s t ∧
    t.seq = s.seq ∧ t.pollcnt = s.pollcnt ∧ t.commandDue = false) ∧
  ∀ sendAck : Bool, encode (.rdbyte sendAck) = .component 0x9#4 (if sendAck then 1#8 else 0#8) 0#16 0#16

/-- 40_transport.md R102: the bits of the byte on the wire, one sample, and `WriteError` if and only if it
is 1; 27 line actions on both outcomes. A byte that would head a frame is a command (30_encoding.md R90).
Decisions D2, D3, D6; `BITCNT` ending at 8 is log entry 15, the refusal of a reserved byte where a command is
due log entry 16 (ReservedCommandBytesRefused states it), the component form of the encoding log entry 5. -/
def Obligations.WriteByteChecksTheAcknowledge : Prop :=
  (∀ (v : Byte) (s : State), s.clk = .low → (s.commandDue = true → (Command.ofByte v).isSome = true) →
    ∃ t code, exec (.wrbyte v) s = .next t ∧
      EndsWith (.code code) t ∧ (code = .writeError ↔ upcoming s 0 = true) ∧
      (code = .ok ↔ upcoming s 0 = false) ∧ t.sr = v ∧ t.bitcnt = 8 ∧
      Adds s t (writeEvents v (upcoming s 0)) ∧ shortDelays (writeEvents v (upcoming s 0)) = 27 ∧
      Takes 1 s t ∧ KeepsRest s t ∧ t.seq = s.seq ∧ t.pollcnt = s.pollcnt ∧ t.commandDue = false) ∧
  ∀ v : Byte, encode (.wrbyte v) = .component 0xA#4 v 0#16 0#16

/-- 20_memory.md R62: the first bit on the wire is bit 7 and the eighth is bit 0, read or written. Where the byte
read is found (`RES`) is log entry 14, and which bytes may be written where a command is due log entry 16. -/
def Obligations.BitsGoMostSignificantFirst : Prop :=
  (∀ (sendAck : Bool) (s : State), s.clk = .low → ∃ v t, exec (.rdbyte sendAck) s = .next t ∧
    t.res = .byte v ∧ ∀ i, i < 8 → v.getLsbD (7 - i) = upcoming s i) ∧
  ∀ (v : Byte) (s : State), s.clk = .low → (s.commandDue = true → (Command.ofByte v).isSome = true) →
    ∃ t es, exec (.wrbyte v) s = .next t ∧ Adds s t es ∧ (drivenBits es).length = 8 ∧
      ∀ i, i < 8 → (drivenBits es)[i]? = some (v.getLsbD (7 - i))

/-- 40_transport.md R105: of the transport operations only the byte write can fail, and only with
`WriteError`; the other three complete with the same line actions whatever the sensor does. The lists of line
actions are those of R100, R101 and R103 (decisions D2, D5), `Ok` after `CRESET` is D11, and `RES` after
`TSTART` and `RDBYTE` is log entry 14. -/
def Obligations.OnlyWriteByteCanFail : Prop :=
  (∀ s : State, s.clk = .low → ∃ t es, exec .tstart s = .next t ∧ t.res = .none ∧ Adds s t es ∧
    lineActions es = tsEvents) ∧
  (∀ (sendAck : Bool) (s : State), s.clk = .low → ∃ t v es, exec (.rdbyte sendAck) s = .next t ∧
    t.res = .byte v ∧ Adds s t es ∧ lineActions es = lineActions (readEvents sendAck 0#8)) ∧
  (∀ s : State, Ready s → ∃ t es, exec .creset s = .next t ∧ t.res = .code .ok ∧ Adds s t es ∧
    lineActions es = crEvents) ∧
  (∀ (v : Byte) (s t : State), exec (.wrbyte v) s = .next t → t.res = .code .ok ∨ t.res = .code .writeError) ∧
  ∃ (v : Byte) (s t : State), exec (.wrbyte v) s = .next t ∧ t.res = .code .writeError

/-- 40_transport.md R103: nine pulses with the data released, a transmission start, no sample, `Ok` always;
26 line actions. `SEQ` ends in `Done` straight after `TransmissionStarted` (41_sequencer.md R120). Decisions D2,
D10, D11; `BITCNT` ending at 9 is log entry 15, a command being due afterwards log entry 16. -/
def Obligations.ConnectionResetPattern : Prop :=
  (∀ s : State, Ready s → ∃ t, exec .creset s = .next t ∧
    EndsWith (.code .ok) t ∧ t.seq = .done ∧ t.bitcnt = 9 ∧ t.commandDue = true ∧
    Adds s t ([.seq .idle, .rel] ++ (List.replicate 9 [Event.clkHi, .clkLo]).flatten ++
      [.rel, .clkHi, .drv false, .clkLo, .clkHi, .rel, .clkLo] ++ [.seq .transmissionStarted, .seq .done]) ∧
    Takes 0 s t ∧ KeepsRest s t ∧ t.sr = s.sr ∧ t.pollcnt = s.pollcnt) ∧
  shortDelays crEvents = 26 ∧ encode .creset = .host 0x5#4 0#8

/-- 93_implementation_defined.md U8 with 40_transport.md R100 to R102: no transport primitive runs with the
clock High. -/
def Obligations.PrimitivesNeedTheClockLow : Prop :=
  ∀ (s : State) (v : Byte) (sendAck : Bool), s.clk = .high →
    exec .tstart s = .refused .clockHigh ∧ exec (.rdbyte sendAck) s = .refused .clockHigh ∧
    ((s.commandDue = false ∨ (Command.ofByte v).isSome = true) → exec (.wrbyte v) s = .refused .clockHigh)

/-- 10_state.md R22, 30_encoding.md R91, 93_implementation_defined.md U8: an operation that is accepted as
a request runs exactly when the block and the wires are idle, and says why where it does not. -/
def Obligations.RequestsRunExactlyWhenReady : Prop :=
  ∀ (i : Instr) (s : State), acceptsRequest i = true →
    ((∃ t, exec i s = .next t) ↔ Ready s) ∧
    (seqIdle s.seq = false → exec i s = .refused .busy) ∧
    (seqIdle s.seq = true → ¬ (s.clk = .low ∧ s.ddrv = .z) → exec i s = .refused .busNotIdle)

/-! ### Sequencer -/

/-- 41_sequencer.md R121, R122: the sensor's answers decide a measurement, its trace, its result and its
end state, for `MEAS` and for the two measure commands (log entry 17). Decisions D8, D9, D10; `BITCNT` ending at
8 is log entry 15, and no command being due afterwards log entry 16. -/
def Obligations.MeasurementFollowsTheAnswers : Prop :=
  ∀ (i : Instr) (kind : Kind) (s : State), measures i = some kind → Ready s →
    ∃ t, exec i s = .next t ∧
      EndsWith (stageAt s 0).result t ∧ t.seq = seqOfCode (stageAt s 0).code ∧
      t.pollcnt = (if (stageAt s 0).code = .writeError then s.pollcnt else (stageAt s 0).polls) ∧
      t.bitcnt = 8 ∧ t.commandDue = false ∧
      Adds s t (measureEvents kind s 0) ∧ Takes (stageAt s 0).used s t ∧ KeepsRest s t

/-- 41_sequencer.md R121: a command byte that is not acknowledged ends the measurement at once. The
forms by command byte are log entry 17. -/
def Obligations.MeasurementWithoutAcknowledge : Prop :=
  ∀ (i : Instr) (kind : Kind) (s : State), measures i = some kind → Ready s → upcoming s 0 = true →
    ∃ t, exec i s = .next t ∧ EndsWith (.code .writeError) t ∧ t.seq = .failed ∧
      Adds s t ([.seq .idle] ++ tsEvents ++ [.seq .transmissionStarted] ++
        writeEvents (if kind = .temperature then 0x03#8 else 0x05#8) true ++ [.seq .failed]) ∧
      Takes 1 s t ∧ KeepsRest s t ∧ t.pollcnt = s.pollcnt

/-- 41_sequencer.md R122: 240 polls all answered High are a `Timeout`, after 240 waits and no byte read. The
forms by command byte are log entry 17. -/
def Obligations.MeasurementTimesOut : Prop :=
  ∀ (i : Instr) (kind : Kind) (s : State), measures i = some kind → Ready s → upcoming s 0 = false →
    (∀ j, j < 240 → upcoming s (1 + j) = true) →
    ∃ t, exec i s = .next t ∧ EndsWith (.code .timeout) t ∧ t.seq = .failed ∧ t.pollcnt = 240 ∧
      Adds s t ([.seq .idle] ++ tsEvents ++ [.seq .transmissionStarted] ++
        writeEvents (if kind = .temperature then 0x03#8 else 0x05#8) false ++
        [.seq .commandSent, .rel, .seq .measuring] ++ highPolls 240 ++ [.seq .failed]) ∧
      Takes 241 s t ∧ KeepsRest s t

/-- 41_sequencer.md R121, R122 with 30_encoding.md R84: if the p-th poll is the first Low one the result is
`Ok` with the first two bytes, most significant first; the third is read and dropped. The forms by command
byte are log entry 17. -/
def Obligations.MeasurementReturnsBothBytes : Prop :=
  ∀ (i : Instr) (kind : Kind) (s : State) (p : Nat), measures i = some kind → Ready s → upcoming s 0 = false →
    1 ≤ p → p ≤ 240 → (∀ j, 1 ≤ j → j < p → upcoming s j = true) → upcoming s p = false →
    ∃ t raw, exec i s = .next t ∧ EndsWith (.okRaw raw) t ∧ t.seq = .done ∧ t.pollcnt = p ∧
      raw.toNat = (byteOf fun j => upcoming s (p + 1 + j)).toNat * 256 +
        (byteOf fun j => upcoming s (p + 9 + j)).toNat ∧
      Adds s t ([.seq .idle] ++ tsEvents ++ [.seq .transmissionStarted] ++
        writeEvents (if kind = .temperature then 0x03#8 else 0x05#8) false ++
        [.seq .commandSent, .rel, .seq .measuring] ++ highPolls (p - 1) ++ [.waitMs, .smp false] ++
        [.seq .awaitingByte] ++ readEvents true (byteOf fun j => upcoming s (p + 1 + j)) ++
        readEvents true (byteOf fun j => upcoming s (p + 9 + j)) ++
        readEvents false (byteOf fun j => upcoming s (p + 17 + j)) ++ [.seq .done]) ∧
      Takes (25 + p) s t ∧ KeepsRest s t

/-- 30_encoding.md R86: a read frame ends with one checksum byte, the last eight answers it uses. `measure`
reads it and does nothing with it: no other answers in its place change the result. `read_status_register`
returns it unexamined. It has no relation to the data: every pair of both occurs. -/
def Obligations.ChecksumDoesNotReachTheResult : Prop :=
  (∀ (kind : Kind) (s t : State) (raw : U16), exec (.meas kind) s = .next t → t.res = .okRaw raw →
    ∃ n es, Takes (n + 8) s t ∧ Adds s t es ∧
      (samplesOf es).drop n = bitsMsb (byteOf fun j => upcoming s (n + j)) ∧
      ∀ s' t' : State, (∀ j, j < n → upcoming s' j = upcoming s j) → exec (.meas kind) s' = .next t' →
        t'.res = t.res ∧ Takes (n + 8) s' t') ∧
  (∀ (s t : State) (status chk : Byte), exec .rdstat s = .next t → t.res = .okStatus status chk →
    ∃ n, Takes (n + 8) s t ∧ chk = byteOf (fun j => upcoming s (n + j)) ∧
      ∀ s' t' : State, (∀ j, j < n → upcoming s' j = upcoming s j) → exec .rdstat s' = .next t' →
        t'.res = .okStatus status (byteOf fun j => upcoming s' (n + j)) ∧ Takes (n + 8) s' t') ∧
  (∀ (kind : Kind) (raw : U16) (chk : Byte), ∃ s t n, exec (.meas kind) s = .next t ∧ t.res = .okRaw raw ∧
    Takes (n + 8) s t ∧ chk = byteOf fun j => upcoming s (n + j)) ∧
  ∀ status chk : Byte, ∃ s t, exec .rdstat s = .next t ∧ t.res = .okStatus status chk

/-- 30_encoding.md R84: how results are put together from received bytes: no sign extension, no shift, no
mask, and the status bytes in the order received. Which answers are the bytes of a measurement rests on the
poll (R121, R122: decisions D8, D9), and the measure command bytes are log entry 17. -/
def Obligations.ResultAssembly : Prop :=
  (∀ msb lsb : Byte, (assembleRaw msb lsb).extractLsb 15 8 = msb ∧ (assembleRaw msb lsb).extractLsb 7 0 = lsb ∧
    assembleRaw msb lsb = msb.zeroExtend 16 * 256#16 + lsb.zeroExtend 16 ∧
    (assembleRaw msb lsb).toNat = msb.toNat * 256 + lsb.toNat) ∧
  (∀ (i : Instr) (kind : Kind) (s : State), measures i = some kind → Ready s → upcoming s 0 = false →
    upcoming s 1 = false → ∃ t, exec i s = .next t ∧
      t.res = .okRaw (assembleRaw (byteOf fun j => upcoming s (2 + j)) (byteOf fun j => upcoming s (10 + j)))) ∧
  ∀ s : State, Ready s → upcoming s 0 = false → ∃ t, exec .rdstat s = .next t ∧
    t.res = .okStatus (byteOf fun j => upcoming s (1 + j)) (byteOf fun j => upcoming s (9 + j))

/-- 60_exceptions.md R175: a failure ends the operation: `SEQ` is `Failed` exactly when the result is a
failure code, the failing sample is the last one taken, nothing but the end of its clock pulse follows it on
the wires, and no other state than the operation's own is written. -/
def Obligations.FailureEndsTheOperation : Prop :=
  ∀ (i : Instr) (s t : State), isSequencerOp i = true → exec i s = .next t →
    (t.seq = .failed ↔ t.res = .code .writeError ∨ t.res = .code .timeout) ∧ (t.seq = .failed ∨ t.seq = .done) ∧
    KeepsRest s t ∧
    (t.res = .code .writeError → ∃ before, Adds s t (before ++ [.smp true, .clkLo, .seq .failed])) ∧
    (t.res = .code .timeout → ∃ before, Adds s t (before ++ [.smp true, .seq .failed]))

/-- 41_sequencer.md R123: for `RDSTAT` and for the command byte `STATUS_REG_R` (log entry 17, its frame request
log entry 5). `SEQ <- Idle` at the head is R120 (decision D10), the line actions rest on D2, D3, D5, D6. -/
def Obligations.StatusRegisterRead : Prop :=
  (∀ (i : Instr) (s : State), (i = .rdstat ∨ i = .statusRegR) → Ready s →
    ∃ t, exec i s = .next t ∧ KeepsRest s t ∧ t.pollcnt = s.pollcnt ∧
      (upcoming s 0 = true → EndsWith (.code .writeError) t ∧ t.seq = .failed ∧ Takes 1 s t ∧
        Adds s t ([.seq .idle] ++ tsEvents ++ [.seq .transmissionStarted] ++ writeEvents 0x07#8 true ++
          [.seq .failed])) ∧
      (upcoming s 0 = false →
        EndsWith (.okStatus (byteOf fun j => upcoming s (1 + j)) (byteOf fun j => upcoming s (9 + j))) t ∧
        t.seq = .done ∧ Takes 17 s t ∧
        Adds s t ([.seq .idle] ++ tsEvents ++ [.seq .transmissionStarted] ++ writeEvents 0x07#8 false ++
          [.seq .commandSent, .seq .awaitingByte] ++ readEvents true (byteOf fun j => upcoming s (1 + j)) ++
          readEvents false (byteOf fun j => upcoming s (9 + j)) ++ [.seq .done]))) ∧
  encode .rdstat = .host 0x2#4 0#8 ∧ encode .statusRegR = .frame 0x07#8 0#8

/-- 41_sequencer.md R124: for `WRSTAT` and for the command byte `STATUS_REG_W` (log entry 17, its frame request
log entry 5); the value goes out as it is. `SEQ <- Idle` at the head is R120 (decision D10), the line actions
rest on D2, D3, D6. -/
def Obligations.StatusRegisterWrite : Prop :=
  (∀ (i : Instr) (value : Byte) (s : State), (i = .wrstat value ∨ i = .statusRegW value) → Ready s →
    ∃ t, exec i s = .next t ∧ KeepsRest s t ∧ t.pollcnt = s.pollcnt ∧
      (upcoming s 0 = true → EndsWith (.code .writeError) t ∧ t.seq = .failed ∧ Takes 1 s t ∧
        Adds s t ([.seq .idle] ++ tsEvents ++ [.seq .transmissionStarted] ++ writeEvents 0x06#8 true ++
          [.seq .failed])) ∧
      (upcoming s 0 = false → upcoming s 1 = true → EndsWith (.code .writeError) t ∧ t.seq = .failed ∧
        Takes 2 s t ∧
        Adds s t ([.seq .idle] ++ tsEvents ++ [.seq .transmissionStarted] ++ writeEvents 0x06#8 false ++
          [.seq .commandSent] ++ writeEvents value true ++ [.seq .failed])) ∧
      (upcoming s 0 = false → upcoming s 1 = false → EndsWith (.code .ok) t ∧ t.seq = .done ∧ Takes 2 s t ∧
        Adds s t ([.seq .idle] ++ tsEvents ++ [.seq .transmissionStarted] ++ writeEvents 0x06#8 false ++
          [.seq .commandSent] ++ writeEvents value false ++ [.seq .done]))) ∧
  ∀ value : Byte, encode (.wrstat value) = .host 0x3#4 value ∧ encode (.statusRegW value) = .frame 0x06#8 value

/-- 41_sequencer.md R125: for `SRESET` and for the command byte `RESET` (log entry 17, its frame request log
entry 5); one transmission start, the one inside the connection reset. `SEQ <- Idle` at the head is R120
(decision D10), the line actions rest on D2, D3, D6. -/
def Obligations.SoftReset : Prop :=
  (∀ (i : Instr) (s : State), (i = .sreset ∨ i = .resetCommand) → Ready s →
    ∃ t, exec i s = .next t ∧ KeepsRest s t ∧ Takes 1 s t ∧ t.pollcnt = s.pollcnt ∧
      (upcoming s 0 = true → EndsWith (.code .writeError) t ∧ t.seq = .failed ∧
        Adds s t ([.seq .idle] ++ crEvents ++ [.seq .transmissionStarted] ++ writeEvents 0x1E#8 true ++
          [.seq .failed])) ∧
      (upcoming s 0 = false → EndsWith (.code .ok) t ∧ t.seq = .done ∧
        Adds s t ([.seq .idle] ++ crEvents ++ [.seq .transmissionStarted] ++ writeEvents 0x1E#8 false ++
          [.seq .commandSent, .seq .done]))) ∧
  encode .sreset = .host 0x4#4 0#8 ∧ encode .resetCommand = .frame 0x1E#8 0#8

/-! ### The compound read -/

/-- 43_read_api.md R160: `read` always completes, with the two stages its answers decide, one after the
other; the substitute raw values are those of R163 (under `FAIL_RAW = any` the free value of log entry 2), and
the pair is one division each (R164). Decisions D14, D15, D16, D30; `RES` holding the pair is log entry 14,
`BITCNT` ending at 8 log entry 15, no command being due afterwards log entry 16. -/
def Obligations.ReadRunsBothStages : Prop :=
  ∀ s : State, Ready s → ∃ t, exec .read s = .next t ∧
    t.rawT = rawAfter s.params s.rawDraws s.rawT (stageAt s 0) ∧
    t.t10 = BitVec.ofInt 16 (tenths s.params.numerics (temperatureCelsius s.params.numerics t.rawT)) ∧
    t.rawH = rawAfter s.params (s.rawDraws + drawsOf s.params (stageAt s 0)) s.rawH
      (stageAt s (stageAt s 0).used) ∧
    t.h10 = BitVec.ofInt 16 (tenths s.params.numerics (humidityPercent s.params.numerics t.rawH t.rawT)) ∧
    t.lastErr = lastErrAfter s.params.lastErrClear (stageAt s 0).code
      (stageAt s (stageAt s 0).used).code s.lastErr ∧
    EndsWith (.readings
      (toNumber s.params.numerics (roundNum s.params.numerics
        ((t.t10.toInt : Rat) / literal s.params.numerics 10)))
      (toNumber s.params.numerics (roundNum s.params.numerics
        ((t.h10.toNat : Rat) / literal s.params.numerics 10)))) t ∧
    resultCode t.res = none ∧
    t.seq = seqOfCode (stageAt s (stageAt s 0).used).code ∧
    Adds s t ([.seq .idle] ++ measureEvents .temperature s 0 ++ measureEvents .humidity s (stageAt s 0).used) ∧
    Takes ((stageAt s 0).used + (stageAt s (stageAt s 0).used).used) s t ∧
    t.rawDraws = s.rawDraws + drawsOf s.params (stageAt s 0) + drawsOf s.params (stageAt s (stageAt s 0).used) ∧
    t.calOut = s.calOut ∧ t.params = s.params ∧ t.requests = s.requests ∧ t.bitcnt = 8 ∧ t.commandDue = false

/-- 43_read_api.md R161: the table of the last-error slot, and that no other instruction writes it. -/
def Obligations.LastErrorSlot : Prop :=
  (∀ s : State, Ready s → ∃ t, exec .read s = .next t ∧
    ((stageAt s (stageAt s 0).used).code ≠ .ok → t.lastErr = (stageAt s (stageAt s 0).used).code) ∧
    ((stageAt s (stageAt s 0).used).code = .ok → (stageAt s 0).code ≠ .ok → t.lastErr = (stageAt s 0).code) ∧
    ((stageAt s (stageAt s 0).used).code = .ok → (stageAt s 0).code = .ok →
      t.lastErr = if s.params.lastErrClear then .ok else s.lastErr)) ∧
  ∀ (i : Instr) (s t : State), exec i s = .next t → i ≠ .read → t.lastErr = s.lastErr

/-- 43_read_api.md R163: the raw value after a failed temperature stage under each setting, and the tenths
it gives under `zero` (the free value under `any` is that of log entry 2). -/
def Obligations.FailedTemperatureStage : Prop :=
  ∀ s : State, Ready s → (stageAt s 0).code ≠ .ok → ∃ t, exec .read s = .next t ∧
    (s.params.failRaw = .zero → t.rawT = 0#16 ∧ t.t10.toInt = -400) ∧
    (s.params.failRaw = .stale → t.rawT = s.rawT) ∧
    (s.params.failRaw = .any → t.rawT = Config.freeRaw s.rawDraws ∧ s.rawDraws + 1 ≤ t.rawDraws)

/-- 43_read_api.md R160, 95_test_vectors.md P2: a read in which both stages answer at their first poll
leaves what was sent, and its tenths. -/
def Obligations.GoodReadKeepsWhatWasSent : Prop :=
  ∀ s : State, Ready s → upcoming s 0 = false → upcoming s 1 = false → upcoming s 26 = false →
    upcoming s 27 = false → ∃ t, exec .read s = .next t ∧
      t.rawT.toNat = (byteOf fun j => upcoming s (2 + j)).toNat * 256 + (byteOf fun j => upcoming s (10 + j)).toNat ∧
      t.rawH.toNat = (byteOf fun j => upcoming s (28 + j)).toNat * 256 + (byteOf fun j => upcoming s (36 + j)).toNat ∧
      t.t10 = BitVec.ofInt 16 (tempTenths s.params.numerics t.rawT) ∧
      t.h10 = BitVec.ofInt 16 (humiTenths s.params.numerics t.rawH t.rawT) ∧
      (s.params.lastErrClear = true → t.lastErr = .ok) ∧ t.seq = .done ∧ Takes 52 s t

/-- 10_state.md R26, R31: the data registers and the last-error slot are written only by `read`; the
parameters by nothing; an instruction leaves the waiting requests alone. -/
def Obligations.OnlyReadWritesTheDataRegisters : Prop :=
  ∀ (i : Instr) (s t : State), exec i s = .next t →
    (i ≠ .read → KeepsData s t ∧ t.rawDraws = s.rawDraws) ∧ t.params = s.params ∧ t.requests = s.requests

/-! ### Calibration -/

/-- 42_calibration.md R142, R146 with 10_state.md R33: the two functions store nothing; their output is the
value of the formula in the form of the setting (log entry 11: the output field is the model's). -/
def Obligations.CalibrationStoresNothing : Prop :=
  (∀ (raw : U16) (s : State), exec (.tcels raw) s = .next { s with
    calOut := .number (toNumber s.params.numerics (subNum s.params.numerics
      (mulNum s.params.numerics (raw.toNat : Rat) (literal s.params.numerics (1 / 100)))
      (literal s.params.numerics 40))) }) ∧
  ∀ (rawHumi rawTemp : U16) (s : State), exec (.hpct rawHumi rawTemp) s = .next { s with
    calOut := .number (toNumber s.params.numerics
      (humidityPercent s.params.numerics rawHumi rawTemp)) }

/-- 42_calibration.md R143, R144, R145: the three stages of the humidity, each operation rounded as the
setting says, in the order of the pseudocode. -/
def Obligations.HumidityStages : Prop :=
  ∀ (n : Numerics) (rawHumi rawTemp : U16),
    let h : Rat := (rawHumi.toNat : Rat)
    let lin := roundNum n (roundNum n (roundNum n (literal n (-28 / 10000000) * roundNum n (h * h)) +
      roundNum n (literal n (405 / 10000) * h)) + literal n (-4))
    let tC := roundNum n (roundNum n ((rawTemp.toNat : Rat) * literal n (1 / 100)) - literal n 40)
    let true' := roundNum n (roundNum n (roundNum n (tC - literal n 25) *
      roundNum n (literal n (1 / 100) + roundNum n (literal n (8 / 100000) * h))) + lin)
    (literal n 100 < true' → humidityPercent n rawHumi rawTemp = literal n 100) ∧
    (true' < literal n (1 / 10) → humidityPercent n rawHumi rawTemp = literal n (1 / 10)) ∧
    (literal n (1 / 10) ≤ true' → true' ≤ literal n 100 → humidityPercent n rawHumi rawTemp = true')

/-- 42_calibration.md R148: the exact integer form of the setting `Q`. -/
def Obligations.ExactIntegerForm : Prop :=
  ∀ (h t : U16),
    let hi : Int := (h.toNat : Int)
    let ti : Int := (t.toNat : Int)
    let nc : Int := min (max (scaledRh hi ti) (10 ^ 6)) (10 ^ 9)
    temperatureCelsius .q t = ((ti : Rat) - 4000) / 100 ∧
    tempTenths .q t = Int.sign (ti - 4000) * (|ti - 4000| / 10) ∧
    rhTrue .q h t = (scaledRh hi ti : Rat) / 10 ^ 7 ∧
    humidityPercent .q h t = (nc : Rat) / 10 ^ 7 ∧
    humiTenths .q h t = nc / 10 ^ 6 ∧
    28 * hi * hi ≤ 120255414300 ∧ -97168059300 ≤ scaledRh hi ti ∧ scaledRh 65535 0 = -97168059300 ∧
    scaledRh 400 6000 = 115420000 ∧
    |scaledRh hi ti| < 2 ^ 63 ∧ |(ti - 6500) * (1000 + 8 * hi)| < 2 ^ 63 ∧ 405000 * hi < 2 ^ 63

/-- 42_calibration.md R149 under the setting `Q`. -/
def Obligations.ExactTenthsRanges : Prop :=
  ∀ h t : U16, -400 ≤ tempTenths .q t ∧ tempTenths .q t ≤ 6153 ∧
    1 ≤ humiTenths .q h t ∧ humiTenths .q h t ≤ 1000

/-- 42_calibration.md R149: the ranges under both settings, with the raw values at their ends. -/
def Obligations.TenthsRanges : Prop :=
  (∀ (n : Numerics) (raw : U16), -400 ≤ tempTenths n raw ∧ tempTenths n raw ≤ 6153) ∧
  (∀ (n : Numerics) (raw : U16), raw.toNat < 2 ^ 14 → tempTenths n raw ≤ 1238) ∧
  (∀ n : Numerics, tempTenths n 0#16 = -400 ∧ tempTenths n 65535#16 = 6153) ∧
  (∀ (n : Numerics) (raw : U16), 3991 ≤ raw.toNat → raw.toNat ≤ 4009 → tempTenths n raw = 0) ∧
  (∀ n : Numerics, mulNum n (rhMin n) (ten n) = 1 ∧ mulNum n (rhMax n) (ten n) = 1000) ∧
  ∀ (n : Numerics) (h t : U16), 1 ≤ humiTenths n h t ∧ humiTenths n h t ≤ 1000

/-- 42_calibration.md R147: ten times the value, rounded toward zero, for negative values too; with the
rule's examples. -/
def Obligations.TenthsRoundTowardZero : Prop :=
  (∀ (n : Numerics) (x : Rat), |(tenths n x : Rat)| ≤ |mulNum n x (ten n)| ∧
    |mulNum n x (ten n)| < |(tenths n x : Rat)| + 1 ∧
    (0 ≤ mulNum n x (ten n) → 0 ≤ tenths n x) ∧ (mulNum n x (ten n) ≤ 0 → tenths n x ≤ 0)) ∧
  ∀ n : Numerics, tenths n (literal n (-5 / 100)) = 0 ∧ tenths n (literal n (-19 / 100)) = -1 ∧
    tenths n (literal n (2534 / 100)) = 253 ∧ tempTenths n 6534#16 = 253 ∧
    tenths n (literal n (11542 / 1000)) = 115

/-- 42_calibration.md R142: the temperature is negative exactly below 4000 and zero exactly at 4000, under
both settings. -/
def Obligations.TemperatureSign : Prop :=
  ∀ (n : Numerics) (raw : U16), (temperatureCelsius n raw < 0 ↔ raw.toNat < 4000) ∧
    (temperatureCelsius n raw = 0 ↔ raw.toNat = 4000)

/-- 42_calibration.md R151, the half about temperature: the tenths differ for exactly the 140 listed raw
values, and there `B64` gives one less in magnitude. -/
def Obligations.SettingsDifferOnListedTemperatures : Prop :=
  differingTemperatures.length = 140 ∧
  ∀ raw : U16, (tempTenths .b64 raw ≠ tempTenths .q raw ↔ raw.toNat ∈ differingTemperatures) ∧
    (raw.toNat ∈ differingTemperatures → |tempTenths .b64 raw| = |tempTenths .q raw| - 1)

/-- 42_calibration.md R145: the humidity lies in the closed interval, under both settings. -/
def Obligations.HumidityInClampInterval : Prop :=
  ∀ (n : Numerics) (h t : U16), rhMin n ≤ humidityPercent n h t ∧ humidityPercent n h t ≤ rhMax n

/-- 42_calibration.md R150, the half about `Q`: strictly increasing in the raw humidity up to 6304 and in
the raw temperature, and the clamped value does not decrease. -/
def Obligations.HumidityIncreasesExactly : Prop :=
  (∀ (h h' t : U16), h'.toNat = h.toNat + 1 → h.toNat ≤ 6303 →
    rhTrue .q h t < rhTrue .q h' t ∧ humidityPercent .q h t ≤ humidityPercent .q h' t) ∧
  ∀ (h t t' : U16), t.toNat < t'.toNat → rhTrue .q h t < rhTrue .q h t'

/-- 42_calibration.md R140: `B64` rounds to the nearest number binary64 can represent: the result is one,
no other is nearer, and where another is as near it is the one with the even significand (that `f64` is
binary64 is log entry 21). -/
def Obligations.RoundingIsToNearest : Prop :=
  ∀ x : Rat, |x| < 2 ^ 1000 → IsB64 (roundB64 x) ∧
    (∀ y : Rat, IsB64 y → |roundB64 x - x| ≤ |y - x|) ∧
    ∀ y : Rat, IsB64 y → y ≠ roundB64 x → |y - x| = |roundB64 x - x| → IsEvenB64 (roundB64 x)

/-- 42_calibration.md R140: a number binary64 can represent is not changed by rounding, so an operation
whose exact result is representable is exact. -/
def Obligations.RoundingKeepsRepresentables : Prop :=
  ∀ y : Rat, IsB64 y → roundB64 y = y

/-- 42_calibration.md R140, R141: the 64 bits given out stand for the number computed, through the normal
range of binary64. -/
def Obligations.BitsStandForTheNumber : Prop :=
  ∀ x : Rat, |x| < 2 ^ 1000 → unpackB64 (packB64 (roundB64 x)) = roundB64 x

/-- 42_calibration.md R141: the bit patterns of the constants. -/
def Obligations.ConstantBitPatterns : Prop :=
  packB64 (tScale .b64) = 0x3F847AE147AE147B#64 ∧ packB64 (tOffset .b64) = 0x4044000000000000#64 ∧
  packB64 (c1 .b64) = 0xC010000000000000#64 ∧ packB64 (c2 .b64) = 0x3FA4BC6A7EF9DB23#64 ∧
  packB64 (c3 .b64) = 0xBEC77CF44765195F#64 ∧ packB64 (tRef .b64) = 0x4039000000000000#64 ∧
  packB64 (t1 .b64) = 0x3F847AE147AE147B#64 ∧ packB64 (t2 .b64) = 0x3F14F8B588E368F1#64 ∧
  packB64 (rhMin .b64) = 0x3FB999999999999A#64 ∧ packB64 (rhMax .b64) = 0x4059000000000000#64 ∧
  packB64 (ten .b64) = 0x4024000000000000#64 ∧
  tScale .q = 1 / 100 ∧ tOffset .q = 40 ∧ c1 .q = -4 ∧ c2 .q = 81 / 2000 ∧ c3 .q = -7 / 2500000 ∧
  tRef .q = 25 ∧ t1 .q = 1 / 100 ∧ t2 .q = 1 / 12500 ∧ rhMin .q = 1 / 10 ∧ rhMax .q = 100 ∧ ten .q = 10

/-- 95_test_vectors.md A1, A2, A3 and the examples of 42_calibration.md R151 on which the settings differ. -/
def Obligations.SourceExamplesAndDifferences : Prop :=
  (∀ n : Numerics, temperatureCelsius n 6000#16 = 20 ∧ tempTenths n 6000#16 = 200 ∧
    humiTenths n 400#16 6000#16 = 115 ∧ tempTenths n 6534#16 = 253) ∧
  rhLinear .q 400#16 = 1469 / 125 ∧ rhTrue .q 400#16 6000#16 = 5771 / 500 ∧
  tempTenths .q 1470#16 = -253 ∧ tempTenths .b64 1470#16 = -252 ∧
  tempTenths .q 6510#16 = 251 ∧ tempTenths .b64 6510#16 = 250 ∧
  tempTenths .q 13620#16 = 962 ∧ tempTenths .b64 13620#16 = 961 ∧
  humiTenths .q 3000#16 6460#16 = 922 ∧ humiTenths .b64 3000#16 6460#16 = 921

/-! ### The whole machine -/

/-- 10_state.md R22, R25 and the ranges of R20 and R28: between operations the block and the wires are idle
and the counters and the stored readings in range, and every step keeps it so. A `READ` leaves `H10` at 1 or
more, and no step takes it back to 0, so the 0 of R39 means that no `READ` has run. -/
def Obligations.EveryStepLeavesTheBlockReady : Prop :=
  ∀ s t : State, Inv s → step s = .next t →
    Inv t ∧ (1 ≤ s.h10.toNat → 1 ≤ t.h10.toNat) ∧
    ∀ (r : Request) (rest : List Request), s.requests = r :: rest → decode r = .ok .read → 1 ≤ t.h10.toNat

/-- The invariants hold at reset (10_state.md R36, R37). -/
def Obligations.ResetMeetsTheInvariants : Prop :=
  Inv State.reset ∧ PinsAgree State.reset ∧ samplesReleased .z State.reset.log.reverse = true

/-- 10_state.md R25: every primitive ends with the wires idle, whatever the outcome of the operation. -/
def Obligations.BusOperationsEndWithIdleWires : Prop :=
  ∀ (i : Instr) (s t : State), exec i s = .next t → (∀ raw, i ≠ .tcels raw) → (∀ h t', i ≠ .hpct h t') →
    t.clk = .low ∧ t.ddrv = .z

/-- 20_memory.md R50, R52, 10_state.md R24: the Line Driver calls of the trace put the pins where the state
says they are, and every step keeps it so. -/
def Obligations.CallsDriveThePins : Prop :=
  ∀ s t : State, PinsAgree s → step s = .next t → PinsAgree t

/-- 20_memory.md R56: no sample is taken while the block drives the data pin, at any step. -/
def Obligations.SamplesOnlyWhileReleased : Prop :=
  ∀ s t : State, PinsAgree s → samplesReleased .z s.log.reverse = true → step s = .next t →
    samplesReleased .z t.log.reverse = true

/-- 20_memory.md R72: the events of every instruction can be cut into pieces of which as many as the
instruction makes transmission starts are exactly that pattern, and every other piece issues `REL` and `DRV`
only while the clock is Low. So reading or writing a byte never changes the data drive state while the clock is
High, and the transmission start does. The trace is log entry 23. -/
def Obligations.DataStableWhileClockHigh : Prop :=
  (∀ (i : Instr) (s t : State) (es : List Event), ((∃ a, i = .rdbyte a) ∨ ∃ v, i = .wrbyte v) →
    exec i s = .next t → Adds s t es → dataStableWhileHigh s.clk s.ddrv es = true) ∧
  (∀ (i : Instr) (s t : State) (es : List Event), exec i s = .next t → Adds s t es →
    ∃ pieces : List (List Event), pieces.flatten = es ∧
      pieces.countP (fun p => decide (p = tsEvents)) = transmissionStarts i ∧
      drivesLowOutsideStarts s.clk pieces = true) ∧
  dataStableWhileHigh .low .z tsEvents = false

/-- 20_memory.md R65: a step takes one request, adds its events after all earlier ones, and changes no
parameter. -/
def Obligations.StepsHappenInRequestOrder : Prop :=
  ∀ s t : State, step s = .next t →
    (∃ es, Adds s t es) ∧ t.requests = s.requests.tail ∧ t.params = s.params

/-- 60_exceptions.md R171: which operation can end with which code; no other occurs. -/
def Obligations.ResultCodesByOperation : Prop :=
  ∀ (i : Instr) (s t : State), exec i s = .next t → (∀ raw, i ≠ .tcels raw) → (∀ h t', i ≠ .hpct h t') →
    resultCode t.res ∈ allowedCodes i ∧ t.resWritten = true

/-- 70_reset_and_hazards.md R206: the delay and sample counts of every row of the table, for the operations and
for the command bytes that stand for their frames (log entry 17). -/
def Obligations.DelayCounts : Prop :=
  ∀ (i : Instr) (s t : State) (es : List Event), exec i s = .next t → Adds s t es →
    (i = .tstart → shortDelays es = 7 ∧ msDelays es = 0 ∧ t.samples = s.samples) ∧
    (i = .rdbyte false → shortDelays es = 19 ∧ msDelays es = 0 ∧ t.samples = s.samples + 8) ∧
    (i = .rdbyte true → shortDelays es = 21 ∧ msDelays es = 0 ∧ t.samples = s.samples + 8) ∧
    (∀ v, i = .wrbyte v → shortDelays es = 27 ∧ msDelays es = 0 ∧ t.samples = s.samples + 1) ∧
    (i = .creset → shortDelays es = 26 ∧ msDelays es = 0 ∧ t.samples = s.samples) ∧
    ((measures i).isSome = true → t.res = .code .writeError →
      shortDelays es = 34 ∧ msDelays es = 0 ∧ t.samples = s.samples + 1) ∧
    ((measures i).isSome = true → t.res = .code .timeout →
      shortDelays es = 35 ∧ msDelays es = 240 ∧ t.samples = s.samples + 241) ∧
    (∀ raw, (measures i).isSome = true → t.res = .okRaw raw →
      shortDelays es = 96 ∧ msDelays es = t.pollcnt ∧ t.samples = s.samples + (25 + t.pollcnt)) ∧
    ((i = .rdstat ∨ i = .statusRegR) → upcoming s 0 = false →
      shortDelays es = 74 ∧ msDelays es = 0 ∧ t.samples = s.samples + 17) ∧
    ((i = .rdstat ∨ i = .statusRegR) → upcoming s 0 = true →
      shortDelays es = 34 ∧ msDelays es = 0 ∧ t.samples = s.samples + 1) ∧
    (∀ v, (i = .wrstat v ∨ i = .statusRegW v) → upcoming s 0 = false →
      shortDelays es = 61 ∧ msDelays es = 0 ∧ t.samples = s.samples + 2) ∧
    (∀ v, (i = .wrstat v ∨ i = .statusRegW v) → upcoming s 0 = true →
      shortDelays es = 34 ∧ msDelays es = 0 ∧ t.samples = s.samples + 1) ∧
    ((i = .sreset ∨ i = .resetCommand) → shortDelays es = 53 ∧ msDelays es = 0 ∧ t.samples = s.samples + 1) ∧
    (i = .read → (stageAt s 0).code = .ok → (stageAt s (stageAt s 0).used).code = .ok →
      shortDelays es = 192 ∧
      msDelays es = (stageAt s 0).polls + (stageAt s (stageAt s 0).used).polls ∧
      t.samples = s.samples + (50 + (stageAt s 0).polls + (stageAt s (stageAt s 0).used).polls))

/-- 10_state.md R26, R31, R41: what the host can read, when, and the fault that R41 asks for where `RES` is read
before the first operation has ended. That a host's look is a function and not an instruction is log entry 24. -/
def Obligations.HostReads : Prop :=
  ∀ s : State,
    hostRead .seq s = .next (.seq s.seq) ∧
    (seqIdle s.seq = true →
      hostRead .rawT s = .next (.word s.rawT) ∧ hostRead .rawH s = .next (.word s.rawH) ∧
      hostRead .t10 s = .next (.word s.t10) ∧ hostRead .h10 s = .next (.word s.h10) ∧
      hostRead .lastErr s = .next (.code s.lastErr) ∧
      (s.resWritten = true → hostRead .res s = .next (.result s.res)) ∧
      (s.resWritten = false → hostRead .res s = .fault .resReadBeforeWritten)) ∧
    (seqIdle s.seq = false → ∀ r, r ≠ .seq → hostRead r s = .refused .busy)

/-- 20_memory.md R51, R55: with the data pin released a sample is 1 exactly when the sensor does not pull
low, and it uses up one answer. -/
def Obligations.SampleIsTheSensorsAnswer : Prop :=
  ∀ s : State, s.ddrv = .z → (actSmp s).1 = upcoming s 0 ∧ Takes 1 s (actSmp s).2 ∧
    dataWire s.ddrv (!(upcoming s 0)) = some (if upcoming s 0 then .high else .low)

/-- 43_read_api.md R163: the raw value after a failed humidity stage under each setting, the substitute draw
after the one of a failed temperature stage (log entry 2), and `H10 = 1` under `zero` for every `RAW_T` up to
47500 (42_calibration.md R146). -/
def Obligations.FailedHumidityStage : Prop :=
  ∀ s : State, Ready s → (stageAt s (stageAt s 0).used).code ≠ .ok → ∃ t, exec .read s = .next t ∧
    (s.params.failRaw = .zero → t.rawH = 0#16 ∧ (t.rawT.toNat ≤ 47500 → t.h10 = 1#16)) ∧
    (s.params.failRaw = .stale → t.rawH = s.rawH) ∧
    (s.params.failRaw = .any →
      t.rawH = Config.freeRaw (if (stageAt s 0).code = .ok then s.rawDraws else s.rawDraws + 1) ∧
      t.rawDraws = (if (stageAt s 0).code = .ok then s.rawDraws else s.rawDraws + 1) + 1)
end

