-- ==== Sys2Proof/Laws/State.lean ====
section
/-! SUPPORT. One lemma per field per update of the state: what each line action, the write of `SEQ`, a
sample and the end of an operation do to every field. They let a proof read a field without unfolding a
record update. -/

namespace Sys2Proof.Machine

@[simp] theorem writeSeq_seq (q : Seq) (s : State) : (writeSeq q s).seq = q := rfl
@[simp] theorem writeSeq_clk (q : Seq) (s : State) : (writeSeq q s).clk = s.clk := rfl
@[simp] theorem writeSeq_ddrv (q : Seq) (s : State) : (writeSeq q s).ddrv = s.ddrv := rfl
@[simp] theorem writeSeq_rawT (q : Seq) (s : State) : (writeSeq q s).rawT = s.rawT := rfl
@[simp] theorem writeSeq_rawH (q : Seq) (s : State) : (writeSeq q s).rawH = s.rawH := rfl
@[simp] theorem writeSeq_t10 (q : Seq) (s : State) : (writeSeq q s).t10 = s.t10 := rfl
@[simp] theorem writeSeq_h10 (q : Seq) (s : State) : (writeSeq q s).h10 = s.h10 := rfl
@[simp] theorem writeSeq_lastErr (q : Seq) (s : State) : (writeSeq q s).lastErr = s.lastErr := rfl
@[simp] theorem writeSeq_sr (q : Seq) (s : State) : (writeSeq q s).sr = s.sr := rfl
@[simp] theorem writeSeq_bitcnt (q : Seq) (s : State) : (writeSeq q s).bitcnt = s.bitcnt := rfl
@[simp] theorem writeSeq_pollcnt (q : Seq) (s : State) : (writeSeq q s).pollcnt = s.pollcnt := rfl
@[simp] theorem writeSeq_res (q : Seq) (s : State) : (writeSeq q s).res = s.res := rfl
@[simp] theorem writeSeq_resWritten (q : Seq) (s : State) : (writeSeq q s).resWritten = s.resWritten := rfl
@[simp] theorem writeSeq_commandDue (q : Seq) (s : State) : (writeSeq q s).commandDue = s.commandDue := rfl
@[simp] theorem writeSeq_calOut (q : Seq) (s : State) : (writeSeq q s).calOut = s.calOut := rfl
@[simp] theorem writeSeq_params (q : Seq) (s : State) : (writeSeq q s).params = s.params := rfl
@[simp] theorem writeSeq_sensor (q : Seq) (s : State) : (writeSeq q s).sensor = s.sensor := rfl
@[simp] theorem writeSeq_samples (q : Seq) (s : State) : (writeSeq q s).samples = s.samples := rfl
@[simp] theorem writeSeq_rawDraws (q : Seq) (s : State) : (writeSeq q s).rawDraws = s.rawDraws := rfl
@[simp] theorem writeSeq_log (q : Seq) (s : State) : (writeSeq q s).log = .seq q :: s.log := rfl
@[simp] theorem writeSeq_requests (q : Seq) (s : State) : (writeSeq q s).requests = s.requests := rfl

@[simp] theorem actRel_seq (s : State) : (actRel s).seq = s.seq := rfl
@[simp] theorem actRel_clk (s : State) : (actRel s).clk = s.clk := rfl
@[simp] theorem actRel_ddrv (s : State) : (actRel s).ddrv = .z := rfl
@[simp] theorem actRel_rawT (s : State) : (actRel s).rawT = s.rawT := rfl
@[simp] theorem actRel_rawH (s : State) : (actRel s).rawH = s.rawH := rfl
@[simp] theorem actRel_t10 (s : State) : (actRel s).t10 = s.t10 := rfl
@[simp] theorem actRel_h10 (s : State) : (actRel s).h10 = s.h10 := rfl
@[simp] theorem actRel_lastErr (s : State) : (actRel s).lastErr = s.lastErr := rfl
@[simp] theorem actRel_sr (s : State) : (actRel s).sr = s.sr := rfl
@[simp] theorem actRel_bitcnt (s : State) : (actRel s).bitcnt = s.bitcnt := rfl
@[simp] theorem actRel_pollcnt (s : State) : (actRel s).pollcnt = s.pollcnt := rfl
@[simp] theorem actRel_res (s : State) : (actRel s).res = s.res := rfl
@[simp] theorem actRel_resWritten (s : State) : (actRel s).resWritten = s.resWritten := rfl
@[simp] theorem actRel_commandDue (s : State) : (actRel s).commandDue = s.commandDue := rfl
@[simp] theorem actRel_calOut (s : State) : (actRel s).calOut = s.calOut := rfl
@[simp] theorem actRel_params (s : State) : (actRel s).params = s.params := rfl
@[simp] theorem actRel_sensor (s : State) : (actRel s).sensor = s.sensor := rfl
@[simp] theorem actRel_samples (s : State) : (actRel s).samples = s.samples := rfl
@[simp] theorem actRel_rawDraws (s : State) : (actRel s).rawDraws = s.rawDraws := rfl
@[simp] theorem actRel_log (s : State) : (actRel s).log = .rel :: s.log := rfl
@[simp] theorem actRel_requests (s : State) : (actRel s).requests = s.requests := rfl

@[simp] theorem actDrv_seq (b : Bool) (s : State) : (actDrv b s).seq = s.seq := rfl
@[simp] theorem actDrv_clk (b : Bool) (s : State) : (actDrv b s).clk = s.clk := rfl
@[simp] theorem actDrv_ddrv (b : Bool) (s : State) : (actDrv b s).ddrv = driveOf b := rfl
@[simp] theorem actDrv_rawT (b : Bool) (s : State) : (actDrv b s).rawT = s.rawT := rfl
@[simp] theorem actDrv_rawH (b : Bool) (s : State) : (actDrv b s).rawH = s.rawH := rfl
@[simp] theorem actDrv_t10 (b : Bool) (s : State) : (actDrv b s).t10 = s.t10 := rfl
@[simp] theorem actDrv_h10 (b : Bool) (s : State) : (actDrv b s).h10 = s.h10 := rfl
@[simp] theorem actDrv_lastErr (b : Bool) (s : State) : (actDrv b s).lastErr = s.lastErr := rfl
@[simp] theorem actDrv_sr (b : Bool) (s : State) : (actDrv b s).sr = s.sr := rfl
@[simp] theorem actDrv_bitcnt (b : Bool) (s : State) : (actDrv b s).bitcnt = s.bitcnt := rfl
@[simp] theorem actDrv_pollcnt (b : Bool) (s : State) : (actDrv b s).pollcnt = s.pollcnt := rfl
@[simp] theorem actDrv_res (b : Bool) (s : State) : (actDrv b s).res = s.res := rfl
@[simp] theorem actDrv_resWritten (b : Bool) (s : State) : (actDrv b s).resWritten = s.resWritten := rfl
@[simp] theorem actDrv_commandDue (b : Bool) (s : State) : (actDrv b s).commandDue = s.commandDue := rfl
@[simp] theorem actDrv_calOut (b : Bool) (s : State) : (actDrv b s).calOut = s.calOut := rfl
@[simp] theorem actDrv_params (b : Bool) (s : State) : (actDrv b s).params = s.params := rfl
@[simp] theorem actDrv_sensor (b : Bool) (s : State) : (actDrv b s).sensor = s.sensor := rfl
@[simp] theorem actDrv_samples (b : Bool) (s : State) : (actDrv b s).samples = s.samples := rfl
@[simp] theorem actDrv_rawDraws (b : Bool) (s : State) : (actDrv b s).rawDraws = s.rawDraws := rfl
@[simp] theorem actDrv_log (b : Bool) (s : State) : (actDrv b s).log = .drv b :: s.log := rfl
@[simp] theorem actDrv_requests (b : Bool) (s : State) : (actDrv b s).requests = s.requests := rfl

@[simp] theorem actClkHi_seq (s : State) : (actClkHi s).seq = s.seq := rfl
@[simp] theorem actClkHi_clk (s : State) : (actClkHi s).clk = .high := rfl
@[simp] theorem actClkHi_ddrv (s : State) : (actClkHi s).ddrv = s.ddrv := rfl
@[simp] theorem actClkHi_rawT (s : State) : (actClkHi s).rawT = s.rawT := rfl
@[simp] theorem actClkHi_rawH (s : State) : (actClkHi s).rawH = s.rawH := rfl
@[simp] theorem actClkHi_t10 (s : State) : (actClkHi s).t10 = s.t10 := rfl
@[simp] theorem actClkHi_h10 (s : State) : (actClkHi s).h10 = s.h10 := rfl
@[simp] theorem actClkHi_lastErr (s : State) : (actClkHi s).lastErr = s.lastErr := rfl
@[simp] theorem actClkHi_sr (s : State) : (actClkHi s).sr = s.sr := rfl
@[simp] theorem actClkHi_bitcnt (s : State) : (actClkHi s).bitcnt = s.bitcnt := rfl
@[simp] theorem actClkHi_pollcnt (s : State) : (actClkHi s).pollcnt = s.pollcnt := rfl
@[simp] theorem actClkHi_res (s : State) : (actClkHi s).res = s.res := rfl
@[simp] theorem actClkHi_resWritten (s : State) : (actClkHi s).resWritten = s.resWritten := rfl
@[simp] theorem actClkHi_commandDue (s : State) : (actClkHi s).commandDue = s.commandDue := rfl
@[simp] theorem actClkHi_calOut (s : State) : (actClkHi s).calOut = s.calOut := rfl
@[simp] theorem actClkHi_params (s : State) : (actClkHi s).params = s.params := rfl
@[simp] theorem actClkHi_sensor (s : State) : (actClkHi s).sensor = s.sensor := rfl
@[simp] theorem actClkHi_samples (s : State) : (actClkHi s).samples = s.samples := rfl
@[simp] theorem actClkHi_rawDraws (s : State) : (actClkHi s).rawDraws = s.rawDraws := rfl
@[simp] theorem actClkHi_log (s : State) : (actClkHi s).log = .clkHi :: s.log := rfl
@[simp] theorem actClkHi_requests (s : State) : (actClkHi s).requests = s.requests := rfl

@[simp] theorem actClkLo_seq (s : State) : (actClkLo s).seq = s.seq := rfl
@[simp] theorem actClkLo_clk (s : State) : (actClkLo s).clk = .low := rfl
@[simp] theorem actClkLo_ddrv (s : State) : (actClkLo s).ddrv = s.ddrv := rfl
@[simp] theorem actClkLo_rawT (s : State) : (actClkLo s).rawT = s.rawT := rfl
@[simp] theorem actClkLo_rawH (s : State) : (actClkLo s).rawH = s.rawH := rfl
@[simp] theorem actClkLo_t10 (s : State) : (actClkLo s).t10 = s.t10 := rfl
@[simp] theorem actClkLo_h10 (s : State) : (actClkLo s).h10 = s.h10 := rfl
@[simp] theorem actClkLo_lastErr (s : State) : (actClkLo s).lastErr = s.lastErr := rfl
@[simp] theorem actClkLo_sr (s : State) : (actClkLo s).sr = s.sr := rfl
@[simp] theorem actClkLo_bitcnt (s : State) : (actClkLo s).bitcnt = s.bitcnt := rfl
@[simp] theorem actClkLo_pollcnt (s : State) : (actClkLo s).pollcnt = s.pollcnt := rfl
@[simp] theorem actClkLo_res (s : State) : (actClkLo s).res = s.res := rfl
@[simp] theorem actClkLo_resWritten (s : State) : (actClkLo s).resWritten = s.resWritten := rfl
@[simp] theorem actClkLo_commandDue (s : State) : (actClkLo s).commandDue = s.commandDue := rfl
@[simp] theorem actClkLo_calOut (s : State) : (actClkLo s).calOut = s.calOut := rfl
@[simp] theorem actClkLo_params (s : State) : (actClkLo s).params = s.params := rfl
@[simp] theorem actClkLo_sensor (s : State) : (actClkLo s).sensor = s.sensor := rfl
@[simp] theorem actClkLo_samples (s : State) : (actClkLo s).samples = s.samples := rfl
@[simp] theorem actClkLo_rawDraws (s : State) : (actClkLo s).rawDraws = s.rawDraws := rfl
@[simp] theorem actClkLo_log (s : State) : (actClkLo s).log = .clkLo :: s.log := rfl
@[simp] theorem actClkLo_requests (s : State) : (actClkLo s).requests = s.requests := rfl

@[simp] theorem actPulse_seq (s : State) : (actPulse s).seq = s.seq := rfl
@[simp] theorem actPulse_clk (s : State) : (actPulse s).clk = .low := rfl
@[simp] theorem actPulse_ddrv (s : State) : (actPulse s).ddrv = s.ddrv := rfl
@[simp] theorem actPulse_rawT (s : State) : (actPulse s).rawT = s.rawT := rfl
@[simp] theorem actPulse_rawH (s : State) : (actPulse s).rawH = s.rawH := rfl
@[simp] theorem actPulse_t10 (s : State) : (actPulse s).t10 = s.t10 := rfl
@[simp] theorem actPulse_h10 (s : State) : (actPulse s).h10 = s.h10 := rfl
@[simp] theorem actPulse_lastErr (s : State) : (actPulse s).lastErr = s.lastErr := rfl
@[simp] theorem actPulse_sr (s : State) : (actPulse s).sr = s.sr := rfl
@[simp] theorem actPulse_bitcnt (s : State) : (actPulse s).bitcnt = s.bitcnt := rfl
@[simp] theorem actPulse_pollcnt (s : State) : (actPulse s).pollcnt = s.pollcnt := rfl
@[simp] theorem actPulse_res (s : State) : (actPulse s).res = s.res := rfl
@[simp] theorem actPulse_resWritten (s : State) : (actPulse s).resWritten = s.resWritten := rfl
@[simp] theorem actPulse_commandDue (s : State) : (actPulse s).commandDue = s.commandDue := rfl
@[simp] theorem actPulse_calOut (s : State) : (actPulse s).calOut = s.calOut := rfl
@[simp] theorem actPulse_params (s : State) : (actPulse s).params = s.params := rfl
@[simp] theorem actPulse_sensor (s : State) : (actPulse s).sensor = s.sensor := rfl
@[simp] theorem actPulse_samples (s : State) : (actPulse s).samples = s.samples := rfl
@[simp] theorem actPulse_rawDraws (s : State) : (actPulse s).rawDraws = s.rawDraws := rfl
@[simp] theorem actPulse_log (s : State) : (actPulse s).log = .clkLo :: .clkHi :: s.log := rfl
@[simp] theorem actPulse_requests (s : State) : (actPulse s).requests = s.requests := rfl

@[simp] theorem actWaitMs_seq (s : State) : (actWaitMs s).seq = s.seq := rfl
@[simp] theorem actWaitMs_clk (s : State) : (actWaitMs s).clk = s.clk := rfl
@[simp] theorem actWaitMs_ddrv (s : State) : (actWaitMs s).ddrv = s.ddrv := rfl
@[simp] theorem actWaitMs_rawT (s : State) : (actWaitMs s).rawT = s.rawT := rfl
@[simp] theorem actWaitMs_rawH (s : State) : (actWaitMs s).rawH = s.rawH := rfl
@[simp] theorem actWaitMs_t10 (s : State) : (actWaitMs s).t10 = s.t10 := rfl
@[simp] theorem actWaitMs_h10 (s : State) : (actWaitMs s).h10 = s.h10 := rfl
@[simp] theorem actWaitMs_lastErr (s : State) : (actWaitMs s).lastErr = s.lastErr := rfl
@[simp] theorem actWaitMs_sr (s : State) : (actWaitMs s).sr = s.sr := rfl
@[simp] theorem actWaitMs_bitcnt (s : State) : (actWaitMs s).bitcnt = s.bitcnt := rfl
@[simp] theorem actWaitMs_pollcnt (s : State) : (actWaitMs s).pollcnt = s.pollcnt := rfl
@[simp] theorem actWaitMs_res (s : State) : (actWaitMs s).res = s.res := rfl
@[simp] theorem actWaitMs_resWritten (s : State) : (actWaitMs s).resWritten = s.resWritten := rfl
@[simp] theorem actWaitMs_commandDue (s : State) : (actWaitMs s).commandDue = s.commandDue := rfl
@[simp] theorem actWaitMs_calOut (s : State) : (actWaitMs s).calOut = s.calOut := rfl
@[simp] theorem actWaitMs_params (s : State) : (actWaitMs s).params = s.params := rfl
@[simp] theorem actWaitMs_sensor (s : State) : (actWaitMs s).sensor = s.sensor := rfl
@[simp] theorem actWaitMs_samples (s : State) : (actWaitMs s).samples = s.samples := rfl
@[simp] theorem actWaitMs_rawDraws (s : State) : (actWaitMs s).rawDraws = s.rawDraws := rfl
@[simp] theorem actWaitMs_log (s : State) : (actWaitMs s).log = .waitMs :: s.log := rfl
@[simp] theorem actWaitMs_requests (s : State) : (actWaitMs s).requests = s.requests := rfl

@[simp] theorem actSmp_seq (s : State) : ((actSmp s).2).seq = s.seq := rfl
@[simp] theorem actSmp_clk (s : State) : ((actSmp s).2).clk = s.clk := rfl
@[simp] theorem actSmp_ddrv (s : State) : ((actSmp s).2).ddrv = s.ddrv := rfl
@[simp] theorem actSmp_rawT (s : State) : ((actSmp s).2).rawT = s.rawT := rfl
@[simp] theorem actSmp_rawH (s : State) : ((actSmp s).2).rawH = s.rawH := rfl
@[simp] theorem actSmp_t10 (s : State) : ((actSmp s).2).t10 = s.t10 := rfl
@[simp] theorem actSmp_h10 (s : State) : ((actSmp s).2).h10 = s.h10 := rfl
@[simp] theorem actSmp_lastErr (s : State) : ((actSmp s).2).lastErr = s.lastErr := rfl
@[simp] theorem actSmp_sr (s : State) : ((actSmp s).2).sr = s.sr := rfl
@[simp] theorem actSmp_bitcnt (s : State) : ((actSmp s).2).bitcnt = s.bitcnt := rfl
@[simp] theorem actSmp_pollcnt (s : State) : ((actSmp s).2).pollcnt = s.pollcnt := rfl
@[simp] theorem actSmp_res (s : State) : ((actSmp s).2).res = s.res := rfl
@[simp] theorem actSmp_resWritten (s : State) : ((actSmp s).2).resWritten = s.resWritten := rfl
@[simp] theorem actSmp_commandDue (s : State) : ((actSmp s).2).commandDue = s.commandDue := rfl
@[simp] theorem actSmp_calOut (s : State) : ((actSmp s).2).calOut = s.calOut := rfl
@[simp] theorem actSmp_params (s : State) : ((actSmp s).2).params = s.params := rfl
@[simp] theorem actSmp_sensor (s : State) : ((actSmp s).2).sensor = s.sensor.tail := rfl
@[simp] theorem actSmp_samples (s : State) : ((actSmp s).2).samples = s.samples + 1 := rfl
@[simp] theorem actSmp_rawDraws (s : State) : ((actSmp s).2).rawDraws = s.rawDraws := rfl
@[simp] theorem actSmp_log (s : State) : ((actSmp s).2).log = .smp (sampledLevel s) :: s.log := rfl
@[simp] theorem actSmp_requests (s : State) : ((actSmp s).2).requests = s.requests := rfl

@[simp] theorem finish_seq (r : Result) (s : State) : (finish r s).seq = s.seq := rfl
@[simp] theorem finish_clk (r : Result) (s : State) : (finish r s).clk = s.clk := rfl
@[simp] theorem finish_ddrv (r : Result) (s : State) : (finish r s).ddrv = s.ddrv := rfl
@[simp] theorem finish_rawT (r : Result) (s : State) : (finish r s).rawT = s.rawT := rfl
@[simp] theorem finish_rawH (r : Result) (s : State) : (finish r s).rawH = s.rawH := rfl
@[simp] theorem finish_t10 (r : Result) (s : State) : (finish r s).t10 = s.t10 := rfl
@[simp] theorem finish_h10 (r : Result) (s : State) : (finish r s).h10 = s.h10 := rfl
@[simp] theorem finish_lastErr (r : Result) (s : State) : (finish r s).lastErr = s.lastErr := rfl
@[simp] theorem finish_sr (r : Result) (s : State) : (finish r s).sr = s.sr := rfl
@[simp] theorem finish_bitcnt (r : Result) (s : State) : (finish r s).bitcnt = s.bitcnt := rfl
@[simp] theorem finish_pollcnt (r : Result) (s : State) : (finish r s).pollcnt = s.pollcnt := rfl
@[simp] theorem finish_res (r : Result) (s : State) : (finish r s).res = r := rfl
@[simp] theorem finish_resWritten (r : Result) (s : State) : (finish r s).resWritten = true := rfl
@[simp] theorem finish_commandDue (r : Result) (s : State) : (finish r s).commandDue = s.commandDue := rfl
@[simp] theorem finish_calOut (r : Result) (s : State) : (finish r s).calOut = s.calOut := rfl
@[simp] theorem finish_params (r : Result) (s : State) : (finish r s).params = s.params := rfl
@[simp] theorem finish_sensor (r : Result) (s : State) : (finish r s).sensor = s.sensor := rfl
@[simp] theorem finish_samples (r : Result) (s : State) : (finish r s).samples = s.samples := rfl
@[simp] theorem finish_rawDraws (r : Result) (s : State) : (finish r s).rawDraws = s.rawDraws := rfl
@[simp] theorem finish_log (r : Result) (s : State) : (finish r s).log = s.log := rfl
@[simp] theorem finish_requests (r : Result) (s : State) : (finish r s).requests = s.requests := rfl

end Sys2Proof.Machine
end

