-- ==== Sys2Proof/Laws/Ops.lean ====
section
/-! SUPPORT. What each shared operation can do, said once: the sensor's answers, a sample, acceptance, the
refusals, the host's reads. -/

namespace Sys2Proof.Machine

/-- Using up answers moves the numbering of the rest. -/
theorem answerAt_drop (l : List Bool) (n j k : Nat) :
    answerAt (l.drop j) (n + j) k = answerAt l n (j + k) := by
  simp [answerAt, Nat.add_assoc]

theorem answerAt_tail (l : List Bool) (n k : Nat) :
    answerAt l.tail (n + 1) k = answerAt l n (k + 1) := by
  have h := answerAt_drop l n 1 k
  rwa [List.drop_one, Nat.add_comm 1 k] at h

theorem answerAt_drop_fun (l : List Bool) (n j : Nat) :
    answerAt (l.drop j) (n + j) = fun k => answerAt l n (j + k) :=
  funext (answerAt_drop l n j)

theorem upcoming_eq (s : State) : upcoming s = answerAt s.sensor s.samples := rfl

/-- A state that has used up `n` answers numbers the rest from `n` on. -/
theorem Takes.upcoming {n : Nat} {s t : State} (h : Takes n s t) (k : Nat) :
    upcoming t k = upcoming s (n + k) := by
  unfold Machine.upcoming
  rw [h.sensor, h.samples, answerAt_drop]

theorem Takes.trans {m n : Nat} {s t u : State} (h : Takes m s t) (h' : Takes n t u) :
    Takes (m + n) s u :=
  ⟨by rw [h'.sensor, h.sensor, List.drop_drop], by rw [h'.samples, h.samples, Nat.add_assoc]⟩

/-- With the data pin released a sample is the sensor's answer (20_memory.md R55, R56). -/
theorem sampledLevel_released {s : State} (h : s.ddrv = .z) : sampledLevel s = upcoming s 0 := by
  unfold sampledLevel
  rw [h]
  cases upcoming s 0 <;> rfl

/-- An accepted request runs; nothing else gives a next state. -/
theorem accept_next {s t : State} {run : State → State} :
    accept s run = .next t ↔ Ready s ∧ run s = t := by
  unfold accept wiresIdle
  constructor
  · intro h
    split at h
    · split at h
      · rename_i hq hw
        simp only [Bool.and_eq_true, decide_eq_true_eq] at hw
        exact ⟨⟨hq, hw.1, hw.2⟩, by injection h⟩
      · cases h
    · cases h
  · rintro ⟨⟨hq, hc, hd⟩, rfl⟩
    simp [hq, hc, hd]

theorem accept_ready {s : State} (h : Ready s) (run : State → State) :
    accept s run = .next (run s) :=
  accept_next.mpr ⟨h, rfl⟩

theorem accept_busy {s : State} (h : seqIdle s.seq = false) (run : State → State) :
    accept s run = .refused .busy := by
  simp [accept, h]

theorem accept_busNotIdle {s : State} (h : seqIdle s.seq = true) (hw : wiresIdle s = false)
    (run : State → State) : accept s run = .refused .busNotIdle := by
  simp [accept, h, hw]

/-- A transport primitive runs with the clock Low; nothing else gives a next state. -/
theorem withClockLow_next {s t : State} {run : State → State} :
    withClockLow s run = .next t ↔ s.clk = .low ∧ run s = t := by
  unfold withClockLow
  split <;> simp_all

theorem withClockLow_low {s : State} (h : s.clk = .low) (run : State → State) :
    withClockLow s run = .next (run s) :=
  withClockLow_next.mpr ⟨h, rfl⟩

theorem withClockLow_high {s : State} (h : s.clk = .high) (run : State → State) :
    withClockLow s run = .refused .clockHigh := by
  simp [withClockLow, h]

/-- A failure ends in `Failed` and gives its code; it does nothing else (60_exceptions.md R175). -/
theorem failWith_eq (c : Code) (s : State) :
    failWith c s = (c, { s with seq := .failed, log := .seq .failed :: s.log }) :=
  rfl

end Sys2Proof.Machine
end

