-- ==== Sys2Proof/Laws/Transport.lean ====
section
/-! SUPPORT. Transport in closed form: what each primitive of 40_transport.md does to the whole state. -/

namespace Sys2Proof.Machine

/-- `transmission_start` (40_transport.md R100). -/
theorem transmissionStart_eq (s : State) :
    transmissionStart s =
      { s with clk := .low, ddrv := .z, commandDue := true, log := tsEvents.reverse ++ s.log } :=
  rfl

/-- One data bit read with the pin released. -/
theorem readBit_eq {s : State} (h : s.ddrv = .z) (i : Nat) :
    readBit i s =
      { s with
        clk := .low
        sr := setBit s.sr i (upcoming s 0)
        bitcnt := s.bitcnt + 1
        sensor := s.sensor.tail
        samples := s.samples + 1
        log := .clkLo :: .smp (upcoming s 0) :: .clkHi :: s.log } := by
  have h' : sampledLevel (actClkHi s) = upcoming s 0 := sampledLevel_released (s := actClkHi s) h
  unfold readBit actSmp
  simp only [h']
  rfl

/-- The bits of a byte put in one by one, bit 7 first, are the byte. -/
theorem setBits_eq_byteOf (f : Nat → Bool) :
    setBit (setBit (setBit (setBit (setBit (setBit (setBit (setBit 0#8 7 (f 0)) 6 (f 1)) 5 (f 2)) 4 (f 3))
      3 (f 4)) 2 (f 5)) 1 (f 6)) 0 (f 7) = byteOf f := by
  unfold byteOf
  generalize f 0 = a; generalize f 1 = b; generalize f 2 = c; generalize f 3 = d
  generalize f 4 = e; generalize f 5 = g; generalize f 6 = h; generalize f 7 = i
  revert a b c d e g h i
  decide

theorem bitsMsb_byteOf (f : Nat → Bool) :
    bitsMsb (byteOf f) = [f 0, f 1, f 2, f 3, f 4, f 5, f 6, f 7] := by
  unfold byteOf
  generalize f 0 = a; generalize f 1 = b; generalize f 2 = c; generalize f 3 = d
  generalize f 4 = e; generalize f 5 = g; generalize f 6 = h; generalize f 7 = i
  revert a b c d e g h i
  decide

/-- The i-th answer is bit `7 - i` of the byte (20_memory.md R62). -/
theorem byteOf_getLsbD (f : Nat → Bool) (i : Nat) (hi : i < 8) : (byteOf f).getLsbD i = f (7 - i) := by
  have h : ∀ a b c d e g h k : Bool, ∀ i : Fin 8,
      (BitVec.ofBoolListBE [a, b, c, d, e, g, h, k]).getLsbD i = [k, h, g, e, d, c, b, a][i] := by
    decide
  have := h (f 0) (f 1) (f 2) (f 3) (f 4) (f 5) (f 6) (f 7) ⟨i, hi⟩
  unfold byteOf
  rw [this]
  interval_cases i <;> rfl

/-- Eight data bits read with the pin released. -/
theorem readBits_eight {s : State} (h : s.ddrv = .z) (hsr : s.sr = 0#8) :
    readBits 8 s =
      { s with
        clk := .low
        sr := byteOf (upcoming s)
        bitcnt := s.bitcnt + 8
        sensor := s.sensor.drop 8
        samples := s.samples + 8
        log := ((bitsMsb (byteOf (upcoming s))).flatMap fun b => [.clkHi, .smp b, .clkLo]).reverse ++ s.log } := by
  simp only [readBits, readBit_eq, h, upcoming, answerAt_tail, hsr, bitsMsb_byteOf]
  simp only [Nat.zero_add, Nat.reduceAdd, List.flatMap_cons, List.flatMap_nil, Nat.add_assoc,
    ← List.drop_one, List.drop_drop]
  rw [setBits_eq_byteOf (answerAt s.sensor s.samples)]
  rfl

/-- `read_byte` (40_transport.md R101): the byte is the next eight answers. -/
theorem readByte_eq (a : Bool) (s : State) :
    readByte a s = (byteOf (upcoming s),
      { s with
        clk := .low
        ddrv := .z
        sr := byteOf (upcoming s)
        bitcnt := 8
        commandDue := false
        sensor := s.sensor.drop 8
        samples := s.samples + 8
        log := (readEvents a (byteOf (upcoming s))).reverse ++ s.log }) := by
  have hb := readBits_eight (s := { actRel s with sr := 0#8, bitcnt := 0 }) rfl rfl
  unfold readByte byteBits
  simp only [hb]
  cases a <;>
  · simp [actDrv, actPulse, actClkHi, actClkLo, actRel, readEvents]
    exact ⟨rfl, rfl⟩

/-- Eight data bits written. -/
theorem writeBits_eight (s : State) (hc : s.clk = .low) :
    writeBits 8 s =
      { s with
        ddrv := driveOf (s.sr.getLsbD 0)
        bitcnt := s.bitcnt + 8
        log := ((bitsMsb s.sr).flatMap fun b => [.drv b, .clkHi, .clkLo]).reverse ++ s.log } := by
  cases s
  cases hc
  rfl

/-- `write_byte` (40_transport.md R102): the code is decided by the next answer. -/
theorem writeByte_eq (v : Byte) {s : State} (hc : s.clk = .low) :
    writeByte v s = (ackCode (upcoming s 0),
      { s with
        clk := .low
        ddrv := .z
        sr := v
        bitcnt := 8
        commandDue := false
        sensor := s.sensor.tail
        samples := s.samples + 1
        log := (writeEvents v (upcoming s 0)).reverse ++ s.log }) := by
  have hb := writeBits_eight { s with sr := v, bitcnt := 0 } hc
  unfold writeByte byteBits
  simp only [hb]
  unfold actSmp
  rw [sampledLevel_released rfl]
  simp [actClkHi, actClkLo, actRel, writeEvents, upcoming]

/-- `connection_reset` (40_transport.md R103). -/
theorem connectionReset_eq (s : State) :
    connectionReset s =
      { s with
        clk := .low
        ddrv := .z
        bitcnt := 9
        commandDue := true
        log := crEvents.reverse ++ s.log } := by
  cases s
  rfl

end Sys2Proof.Machine
end

