-- ==== Sys2Proof/Laws/Sequencer.lean ====
section
/-! SUPPORT. The Command Sequencer in closed form: what a frame head, a poll and a measurement do to the
whole state, in terms of the sensor's answers (41_sequencer.md R120 to R125). -/

namespace Sys2Proof.Machine

theorem ackCode_ok {b : Bool} : ackCode b = .ok ↔ b = false := by
  cases b <;> decide

/-- The head of a frame: the next answer decides whether the command byte was acknowledged. -/
theorem frameHead_eq (c : Command) (s : State) :
    frameHead c s = (ackCode (upcoming s 0),
      { s with
        seq := if upcoming s 0 then .failed else .commandSent
        clk := .low
        ddrv := .z
        sr := c.byte
        bitcnt := 8
        commandDue := false
        sensor := s.sensor.tail
        samples := s.samples + 1
        log := (tsEvents ++ [Event.seq .transmissionStarted] ++ writeEvents c.byte (upcoming s 0) ++
          [Event.seq (if upcoming s 0 then .failed else .commandSent)]).reverse ++ s.log }) := by
  have hu : upcoming (writeSeq .transmissionStarted (transmissionStart s)) 0 = upcoming s 0 := rfl
  have h := writeByte_eq c.byte (s := writeSeq .transmissionStarted (transmissionStart s)) rfl
  rw [hu] at h
  unfold frameHead
  simp only [h]
  cases upcoming s 0 <;> simp [ackCode, failWith_eq, writeSeq, transmissionStart_eq]

/-- The state after one poll that was answered `b`. -/
def polled (b : Bool) (s : State) : State :=
  { s with
    pollcnt := s.pollcnt + 1
    sensor := s.sensor.tail
    samples := s.samples + 1
    log := .smp b :: .waitMs :: s.log }

theorem polled_upcoming (b : Bool) (s : State) (k : Nat) : upcoming (polled b s) k = upcoming s (k + 1) :=
  answerAt_tail s.sensor s.samples k

/-- One poll: the next answer decides whether the polling goes on (41_sequencer.md R122). -/
theorem pollLoop_succ (n : Nat) {s : State} (hd : s.ddrv = .z) :
    pollLoop (n + 1) s = if upcoming s 0 then pollLoop n (polled true s) else (true, polled false s) := by
  have h : sampledLevel (actWaitMs { s with pollcnt := s.pollcnt + 1 }) = upcoming s 0 :=
    sampledLevel_released hd
  rw [pollLoop]
  simp only [actSmp, h]
  cases upcoming s 0 <;> rfl

/-- Polls that are all answered High use up their budget (41_sequencer.md R122). -/
theorem pollLoop_high (n : Nat) {s : State} (hd : s.ddrv = .z) (h : ∀ j, j < n → upcoming s j = true) :
    pollLoop n s = (false,
      { s with
        pollcnt := s.pollcnt + n
        sensor := s.sensor.drop n
        samples := s.samples + n
        log := (highPolls n).reverse ++ s.log }) := by
  induction n generalizing s with
  | zero => rfl
  | succ n ih =>
    rw [pollLoop_succ n hd, if_pos (h 0 (Nat.succ_pos n)), ih (s := polled true s) hd]
    · simp [polled, highPolls, List.replicate_succ, Nat.add_assoc, Nat.add_comm 1 n]
    · intro j hj
      rw [polled_upcoming]
      exact h (j + 1) (Nat.succ_lt_succ hj)

/-- The first poll answered Low ends the polling (41_sequencer.md R122). -/
theorem pollLoop_low (n j : Nat) (hj : j < n) {s : State} (hd : s.ddrv = .z)
    (h : ∀ i, i < j → upcoming s i = true) (hl : upcoming s j = false) :
    pollLoop n s = (true,
      { s with
        pollcnt := s.pollcnt + (j + 1)
        sensor := s.sensor.drop (j + 1)
        samples := s.samples + (j + 1)
        log := (highPolls j ++ [Event.waitMs, .smp false]).reverse ++ s.log }) := by
  induction n generalizing s j with
  | zero => exact absurd hj (Nat.not_lt_zero j)
  | succ n ih =>
    rw [pollLoop_succ n hd]
    cases j with
    | zero => simp [hl, polled, highPolls]
    | succ j =>
      rw [if_pos (h 0 (Nat.succ_pos j)), ih j (Nat.lt_of_succ_lt_succ hj) (s := polled true s) hd]
      · simp [polled, highPolls, List.replicate_succ, Nat.add_assoc, Nat.add_comm 1]
      · intro i hi
        rw [polled_upcoming]
        exact h (i + 1) (Nat.succ_lt_succ hi)
      · rw [polled_upcoming]
        exact hl

/-- The three bytes of a measurement (41_sequencer.md R121 steps 4 and 5). -/
theorem assembleRaw_eq (m l : Byte) : assembleRaw m l = m ++ l := by
  apply BitVec.eq_of_toNat_eq
  have hm := m.isLt
  have hl := l.isLt
  rw [BitVec.toNat_append, ← Nat.shiftLeft_add_eq_or_of_lt hl, Nat.shiftLeft_eq]
  simp only [assembleRaw, BitVec.toNat_add, BitVec.toNat_mul, BitVec.truncate_eq_setWidth, BitVec.toNat_setWidth,
    BitVec.toNat_ofNat]
  omega

theorem readRaw_eq (s : State) :
    readRaw s = (byteOf (upcoming s) ++ byteOf (fun i => upcoming s (8 + i)),
      { s with
        clk := .low
        ddrv := .z
        sr := byteOf fun i => upcoming s (16 + i)
        bitcnt := 8
        commandDue := false
        sensor := s.sensor.drop 24
        samples := s.samples + 24
        log := (rawEvents s 0).reverse ++ s.log }) := by
  unfold readRaw
  simp only [readByte_eq, assembleRaw_eq, rawEvents, upcoming_eq, answerAt_drop_fun, List.drop_drop, Nat.add_assoc,
    Nat.reduceAdd, Nat.zero_add, List.reverse_append, List.append_assoc]

/-- `poll` when every answer is High (41_sequencer.md R122). -/
theorem poll_high {s : State} (h : ∀ j, j < 240 → upcoming s j = true) :
    poll s = (false,
      { s with
        seq := .measuring
        ddrv := .z
        pollcnt := 240
        sensor := s.sensor.drop 240
        samples := s.samples + 240
        log := ([Event.rel, .seq .measuring] ++ highPolls 240).reverse ++ s.log }) := by
  have hp := pollLoop_high 240 (s := { writeSeq .measuring (actRel s) with pollcnt := 0 }) rfl h
  unfold poll pollMax
  simp only [hp]
  simp [writeSeq, actRel]

/-- `poll` when the `j`-th answer is the first Low one (41_sequencer.md R122). -/
theorem poll_low {s : State} (j : Nat) (hj : j < 240) (h : ∀ i, i < j → upcoming s i = true)
    (hl : upcoming s j = false) :
    poll s = (true,
      { s with
        seq := .measuring
        ddrv := .z
        pollcnt := j + 1
        sensor := s.sensor.drop (j + 1)
        samples := s.samples + (j + 1)
        log := ([Event.rel, .seq .measuring] ++ highPolls j ++ [Event.waitMs, .smp false]).reverse ++ s.log }) := by
  have hp := pollLoop_low 240 j hj (s := { writeSeq .measuring (actRel s) with pollcnt := 0 }) rfl h hl
  unfold poll pollMax
  simp only [hp]
  simp [writeSeq, actRel]

/-- The three ways a measurement can go, by the answers (41_sequencer.md R121). -/
theorem stageAt_cases (s : State) (k : Nat) :
    (upcoming s k = true ∧ stageAt s k = ⟨.writeError, 0#16, 0, 1⟩) ∨
    (upcoming s k = false ∧ (∀ j, j < 240 → upcoming s (k + 1 + j) = true) ∧
      stageAt s k = ⟨.timeout, 0#16, 240, 241⟩) ∨
    ∃ j, upcoming s k = false ∧ j < 240 ∧ (∀ i, i < j → upcoming s (k + 1 + i) = true) ∧
      upcoming s (k + 1 + j) = false ∧
      stageAt s k = ⟨.ok, byteOf (fun i => upcoming s (k + 2 + j + i)) ++
        byteOf (fun i => upcoming s (k + 2 + j + 8 + i)), j + 1, 26 + j⟩ := by
  unfold stageAt
  cases hk : upcoming s k with
  | true => exact .inl ⟨rfl, rfl⟩
  | false =>
    right
    rw [if_neg Bool.false_ne_true]
    cases hf : (List.range 240).find? fun j => !(upcoming s (k + 1 + j)) with
    | none =>
      left
      refine ⟨rfl, fun j hj => ?_, rfl⟩
      have := List.find?_eq_none.mp hf j (List.mem_range.mpr hj)
      simpa using this
    | some j =>
      right
      rw [List.find?_range_eq_some] at hf
      obtain ⟨hl, hj, hh⟩ := hf
      refine ⟨j, rfl, List.mem_range.mp hj, fun i hi => ?_, by simpa using hl, rfl⟩
      simpa using hh i hi

/-- What a measurement leaves in the shift register: the last byte moved. -/
def stageSr (kind : Kind) (s : State) (k : Nat) : Byte :=
  match (stageAt s k).code with
  | .writeError => (commandFor kind).byte
  | .timeout => (commandFor kind).byte
  | .ok => byteOf fun i => upcoming s (k + 1 + (stageAt s k).polls + 16 + i)

/-- The state a measurement leaves (41_sequencer.md R121). -/
def measured (kind : Kind) (s : State) : State :=
  { s with
    seq := seqOfCode (stageAt s 0).code
    clk := .low
    ddrv := .z
    sr := stageSr kind s 0
    bitcnt := 8
    pollcnt := if (stageAt s 0).code = .writeError then s.pollcnt else (stageAt s 0).polls
    commandDue := false
    sensor := s.sensor.drop (stageAt s 0).used
    samples := s.samples + (stageAt s 0).used
    log := (measureEvents kind s 0).reverse ++ s.log }

/-- `measure` is decided by the answers (41_sequencer.md R121). -/
theorem measure_eq (kind : Kind) (s : State) : measure kind s = ((stageAt s 0).result, measured kind s) := by
  have hh := frameHead_eq (commandFor kind) (writeSeq .idle s)
  have hu : ∀ k, upcoming (writeSeq .idle s) k = upcoming s k := fun _ => rfl
  rw [hu] at hh
  unfold measure
  simp only [hh, ackCode_ok]
  rcases stageAt_cases s 0 with ⟨h0, hg⟩ | ⟨h0, hp, hg⟩ | ⟨j, h0, hj, hp, hl, hg⟩
  · simp [h0, hg, measured, Stage.result, measureEvents, seqOfCode, stageSr, ackCode]
  · simp only [h0, if_true]
    rw [poll_high]
    · simp [hg, measured, Stage.result, measureEvents, seqOfCode, stageSr, failWith_eq, h0, ← List.drop_one]
    · intro j hj
      have := hp j hj
      simpa [upcoming_eq, answerAt_tail, Nat.add_comm] using this
  · simp only [h0, if_true]
    rw [poll_low j hj]
    · have e1 : 1 + (j + 1) = j + 2 := by omega
      have e2 : 2 + j = j + 2 := by omega
      have e3 : 26 + j = j + 26 := by omega
      have e4 : ∀ i, 2 + (8 + i) = 10 + i := by omega
      have e5 : ∀ i, 2 + (16 + i) = 18 + i := by omega
      simp [readRaw_eq, hg, measured, Stage.result, measureEvents, seqOfCode, stageSr, h0, ← List.drop_one,
        upcoming_eq, e1, e2, e3, e4, e5,
        answerAt_drop_fun, rawEvents, writeSeq, Nat.add_assoc]
    · intro i hi
      have := hp i hi
      simpa [upcoming_eq, answerAt_tail, Nat.add_comm] using this
    · simpa [upcoming_eq, answerAt_tail, Nat.add_comm] using hl

/-- `read_status_register` when the command byte is not acknowledged (41_sequencer.md R123). -/
theorem readStatusRegister_refused {s : State} (h : upcoming s 0 = true) :
    readStatusRegister s = (.code .writeError,
      { s with
        seq := .failed
        clk := .low
        ddrv := .z
        sr := 0x07#8
        bitcnt := 8
        commandDue := false
        sensor := s.sensor.drop 1
        samples := s.samples + 1
        log := ([Event.seq .idle] ++ tsEvents ++ [Event.seq .transmissionStarted] ++ writeEvents 0x07#8 true ++
          [Event.seq .failed]).reverse ++ s.log }) := by
  have hh := frameHead_eq .statusRegR (writeSeq .idle s)
  have hu : upcoming (writeSeq .idle s) 0 = true := h
  have hb : Command.statusRegR.byte = 0x07#8 := by decide
  rw [hu, hb] at hh
  unfold readStatusRegister
  simp [hh, ackCode]

/-- `read_status_register` when the command byte is acknowledged (41_sequencer.md R123). -/
theorem readStatusRegister_ok {s : State} (h : upcoming s 0 = false) :
    readStatusRegister s =
      (.okStatus (byteOf fun i => upcoming s (1 + i)) (byteOf fun i => upcoming s (9 + i)),
      { s with
        seq := .done
        clk := .low
        ddrv := .z
        sr := byteOf fun i => upcoming s (9 + i)
        bitcnt := 8
        commandDue := false
        sensor := s.sensor.drop 17
        samples := s.samples + 17
        log := ([Event.seq .idle] ++ tsEvents ++ [Event.seq .transmissionStarted] ++ writeEvents 0x07#8 false ++
          [Event.seq .commandSent, .seq .awaitingByte] ++ readEvents true (byteOf fun i => upcoming s (1 + i)) ++
          readEvents false (byteOf fun i => upcoming s (9 + i)) ++ [Event.seq .done]).reverse ++ s.log }) := by
  have hh := frameHead_eq .statusRegR (writeSeq .idle s)
  have hu : upcoming (writeSeq .idle s) 0 = false := h
  have hb : Command.statusRegR.byte = 0x07#8 := by decide
  rw [hu, hb] at hh
  unfold readStatusRegister
  simp only [hh]
  simp [readByte_eq, writeSeq, upcoming_eq, ← List.drop_one, answerAt_drop_fun, ackCode]

/-- `write_status_register` when the command byte is not acknowledged: the value byte is not sent
(41_sequencer.md R124). -/
theorem writeStatusRegister_refused (v : Byte) {s : State} (h : upcoming s 0 = true) :
    writeStatusRegister v s = (.writeError,
      { s with
        seq := .failed
        clk := .low
        ddrv := .z
        sr := 0x06#8
        bitcnt := 8
        commandDue := false
        sensor := s.sensor.drop 1
        samples := s.samples + 1
        log := ([Event.seq .idle] ++ tsEvents ++ [Event.seq .transmissionStarted] ++ writeEvents 0x06#8 true ++
          [Event.seq .failed]).reverse ++ s.log }) := by
  have hh := frameHead_eq .statusRegW (writeSeq .idle s)
  have hu : upcoming (writeSeq .idle s) 0 = true := h
  have hb : Command.statusRegW.byte = 0x06#8 := by decide
  rw [hu, hb] at hh
  unfold writeStatusRegister
  simp [hh, ackCode]

/-- `write_status_register` when the command byte is acknowledged: the value byte's answer decides
(41_sequencer.md R124). -/
theorem writeStatusRegister_sent (v : Byte) {s : State} (h : upcoming s 0 = false) :
    writeStatusRegister v s = (ackCode (upcoming s 1),
      { s with
        seq := seqOfCode (ackCode (upcoming s 1))
        clk := .low
        ddrv := .z
        sr := v
        bitcnt := 8
        commandDue := false
        sensor := s.sensor.drop 2
        samples := s.samples + 2
        log := ([Event.seq .idle] ++ tsEvents ++ [Event.seq .transmissionStarted] ++ writeEvents 0x06#8 false ++
          [Event.seq .commandSent] ++ writeEvents v (upcoming s 1) ++
          [Event.seq (seqOfCode (ackCode (upcoming s 1)))]).reverse ++ s.log }) := by
  have hh := frameHead_eq .statusRegW (writeSeq .idle s)
  have hu : upcoming (writeSeq .idle s) 0 = false := h
  have hb : Command.statusRegW.byte = 0x06#8 := by decide
  rw [hu, hb] at hh
  unfold writeStatusRegister
  simp only [hh]
  rw [writeByte_eq v rfl]
  simp only [upcoming_eq, writeSeq_sensor, writeSeq_samples, answerAt_tail]
  cases answerAt s.sensor s.samples 1 <;>
    simp [ackCode, endOnCode, failWith_eq, writeSeq, seqOfCode, ← List.drop_one]

/-- `soft_reset`: the answer to the RESET byte decides (41_sequencer.md R125). -/
theorem softReset_eq (s : State) :
    softReset s = (ackCode (upcoming s 0),
      { s with
        seq := seqOfCode (ackCode (upcoming s 0))
        clk := .low
        ddrv := .z
        sr := 0x1E#8
        bitcnt := 8
        commandDue := false
        sensor := s.sensor.drop 1
        samples := s.samples + 1
        log := ([Event.seq .idle] ++ crEvents ++ [Event.seq .transmissionStarted] ++
          writeEvents 0x1E#8 (upcoming s 0) ++
          (if upcoming s 0 then [Event.seq .failed] else [Event.seq .commandSent, .seq .done])).reverse ++ s.log }) := by
  have hb : Command.reset.byte = 0x1E#8 := by decide
  have hw := writeByte_eq 0x1E#8 (s := writeSeq .transmissionStarted (connectionReset (writeSeq .idle s)))
    (by rw [connectionReset_eq]; rfl)
  have hu : upcoming (writeSeq .transmissionStarted (connectionReset (writeSeq .idle s))) 0 = upcoming s 0 := by
    rw [connectionReset_eq]; rfl
  rw [hu] at hw
  unfold softReset
  simp only [hb, hw]
  cases upcoming s 0 <;>
    simp [ackCode, endOnCode, failWith_eq, writeSeq, seqOfCode, connectionReset_eq, ← List.drop_one]

end Sys2Proof.Machine
end

