-- ==== Sys2Proof/Laws/ReadApi.lean ====
section
/-! SUPPORT. The compound read in terms of the two stages its answers decide (43_read_api.md R160 to R164). -/

namespace Sys2Proof.Machine

/-- A state that has used up `n` answers numbers its stages from `n` on. -/
theorem stageAt_takes {n : Nat} {s t : State} (h : Takes n s t) (k : Nat) : stageAt t k = stageAt s (n + k) := by
  simp only [stageAt, h.upcoming, Nat.add_assoc]

theorem rawEvents_takes {n : Nat} {s t : State} (h : Takes n s t) (b : Nat) :
    rawEvents t b = rawEvents s (n + b) := by
  simp only [rawEvents, h.upcoming, Nat.add_assoc]

theorem measureEvents_takes {n : Nat} {s t : State} (h : Takes n s t) (kind : Kind) (k : Nat) :
    measureEvents kind t k = measureEvents kind s (n + k) := by
  simp only [measureEvents, stageAt_takes h, rawEvents_takes h, h.upcoming, Nat.add_assoc]

theorem stageCode_result (g : Stage) : stageCode g.result = g.code := by
  cases g with
  | mk c r p u => cases c <;> rfl

/-- The raw value and the draws of a stage (43_read_api.md R163). -/
theorem stageRaw_eq (g : Stage) (old : U16) (s : State) :
    stageRaw g.result old s =
      (rawAfter s.params s.rawDraws old g, { s with rawDraws := s.rawDraws + drawsOf s.params g }) := by
  cases g with
  | mk c r p u =>
    cases c <;> cases hf : s.params.failRaw <;>
      simp [Stage.result, stageRaw, failRaw, rawAfter, drawsOf, hf]

/-- Step 1 of `read` (43_read_api.md R160). -/
theorem readTemperature_eq (s : State) :
    readTemperature s = ((stageAt s 0).code,
      { measured .temperature s with
        rawT := rawAfter s.params s.rawDraws s.rawT (stageAt s 0)
        t10 := BitVec.ofInt 16
          (tempTenths s.params.numerics (rawAfter s.params s.rawDraws s.rawT (stageAt s 0)))
        rawDraws := s.rawDraws + drawsOf s.params (stageAt s 0) }) := by
  unfold readTemperature
  simp only [measure_eq, stageRaw_eq, stageCode_result]
  rfl

/-- Step 2 of `read` (43_read_api.md R160). -/
theorem readHumidity_eq (s : State) :
    readHumidity s = ((stageAt s 0).code,
      { measured .humidity s with
        rawH := rawAfter s.params s.rawDraws s.rawH (stageAt s 0)
        h10 := BitVec.ofInt 16
          (humiTenths s.params.numerics (rawAfter s.params s.rawDraws s.rawH (stageAt s 0)) s.rawT)
        rawDraws := s.rawDraws + drawsOf s.params (stageAt s 0) }) := by
  unfold readHumidity
  simp only [measure_eq, stageRaw_eq, stageCode_result]
  rfl

/-- What `read` leaves, field by field (43_read_api.md R160). -/
structure ReadLeaves (s t : State) : Prop where
  seq : t.seq = seqOfCode (stageAt s (stageAt s 0).used).code
  clk : t.clk = .low
  ddrv : t.ddrv = .z
  rawT : t.rawT = rawAfter s.params s.rawDraws s.rawT (stageAt s 0)
  t10 : t.t10 = BitVec.ofInt 16 (tempTenths s.params.numerics t.rawT)
  rawH : t.rawH =
    rawAfter s.params (s.rawDraws + drawsOf s.params (stageAt s 0)) s.rawH (stageAt s (stageAt s 0).used)
  h10 : t.h10 = BitVec.ofInt 16 (humiTenths s.params.numerics t.rawH t.rawT)
  lastErr : t.lastErr =
    lastErrAfter s.params.lastErrClear (stageAt s 0).code (stageAt s (stageAt s 0).used).code s.lastErr
  bitcnt : t.bitcnt = 8
  res : t.res = .readings (tenthsToNumber s.params.numerics t.t10.toInt)
    (tenthsToNumber s.params.numerics (t.h10.toNat : Int))
  resWritten : t.resWritten = true
  commandDue : t.commandDue = false
  calOut : t.calOut = s.calOut
  params : t.params = s.params
  takes : Takes ((stageAt s 0).used + (stageAt s (stageAt s 0).used).used) s t
  rawDraws : t.rawDraws =
    s.rawDraws + drawsOf s.params (stageAt s 0) + drawsOf s.params (stageAt s (stageAt s 0).used)
  log : Adds s t ([.seq .idle] ++ measureEvents .temperature s 0 ++
    measureEvents .humidity s (stageAt s 0).used)
  requests : t.requests = s.requests

theorem runRead_leaves (s : State) : ReadLeaves s (runRead s) := by
  have h0 : Takes 0 s (writeSeq .idle s) := ⟨by simp, by simp⟩
  have hg : stageAt (writeSeq .idle s) 0 = stageAt s 0 := stageAt_takes h0 0
  have he : measureEvents .temperature (writeSeq .idle s) 0 = measureEvents .temperature s 0 :=
    measureEvents_takes h0 _ 0
  have ht := readTemperature_eq (writeSeq .idle s)
  rw [hg] at ht
  generalize hs1 : readTemperature (writeSeq .idle s) = r1 at ht
  have h1 : Takes (stageAt s 0).used s r1.2 := by
    rw [ht]
    exact ⟨by simp [measured, hg], by simp [measured, hg]⟩
  have hh := readHumidity_eq r1.2
  rw [stageAt_takes h1 0, Nat.add_zero] at hh
  have hem : measureEvents .humidity r1.2 0 = measureEvents .humidity s (stageAt s 0).used :=
    measureEvents_takes h1 _ 0
  have hgm : stageAt r1.2 0 = stageAt s (stageAt s 0).used := stageAt_takes h1 0
  have hrun : runRead s = finish
      (returnedPair { (readHumidity r1.2).2 with
        lastErr := lastErrAfter (readHumidity r1.2).2.params.lastErrClear r1.1 (readHumidity r1.2).1
          (readHumidity r1.2).2.lastErr })
      { (readHumidity r1.2).2 with
        lastErr := lastErrAfter (readHumidity r1.2).2.params.lastErrClear r1.1 (readHumidity r1.2).1
          (readHumidity r1.2).2.lastErr } := by
    rw [← hs1]; rfl
  rw [hrun, hh]
  constructor
  · simp [measured, hgm]
  · rfl
  · rfl
  · simp [measured, ht]
  · simp [measured, ht]
  · simp [measured, ht]
  · simp [measured, ht]
  · simp [measured, ht]
  · rfl
  · simp [measured, ht, returnedPair]
  · rfl
  · rfl
  · simp [measured, ht]
  · simp [measured, ht]
  · exact h1.trans ⟨by rw [← hgm]; rfl, by rw [← hgm]; rfl⟩
  · simp [measured, ht]
  · have hl : r1.2.log = (measureEvents .temperature s 0).reverse ++ .seq .idle :: s.log := by
      simp [ht, measured, he]
    simp [measured, Adds, hem, hl]
  · simp [measured, ht]

end Sys2Proof.Machine
end

