-- ==== Sys2Proof/Laws/Exec.lean ====
section
/-! SUPPORT. exec of each instruction as the shared operation it runs: `accept` for what is taken as a
request, `withClockLow` for a transport primitive, a next state for the calibration functions. -/

namespace Sys2Proof.Machine

theorem exec_measureTemp (s : State) : exec .measureTemp s = accept s (runMeasure .temperature) := rfl
theorem exec_measureHumi (s : State) : exec .measureHumi s = accept s (runMeasure .humidity) := rfl
theorem exec_statusRegW (v : Byte) (s : State) : exec (.statusRegW v) s = accept s (runWriteStatus v) := rfl
theorem exec_statusRegR (s : State) : exec .statusRegR s = accept s runReadStatus := rfl
theorem exec_resetCommand (s : State) : exec .resetCommand s = accept s runSoftReset := rfl
theorem exec_read (s : State) : exec .read s = accept s runRead := rfl
theorem exec_rdstat (s : State) : exec .rdstat s = accept s runReadStatus := rfl
theorem exec_wrstat (v : Byte) (s : State) : exec (.wrstat v) s = accept s (runWriteStatus v) := rfl
theorem exec_sreset (s : State) : exec .sreset s = accept s runSoftReset := rfl
theorem exec_meas (k : Kind) (s : State) : exec (.meas k) s = accept s (runMeasure k) := rfl

/-- A measurement by any of its three names (30_encoding.md R82, R88). -/
theorem exec_measures {i : Instr} {k : Kind} (h : measures i = some k) (s : State) :
    exec i s = accept s (runMeasure k) := by
  cases i <;> simp [measures] at h <;> subst h <;> rfl

/-- What a connection reset leaves when it is requested on its own (40_transport.md R103). -/
def resetDone (s : State) : State :=
  { s with
    seq := .done
    clk := .low
    ddrv := .z
    bitcnt := 9
    res := .code .ok
    resWritten := true
    commandDue := true
    log := ([Event.seq .idle] ++ crEvents ++ [Event.seq .transmissionStarted, .seq .done]).reverse ++ s.log }

theorem exec_creset (s : State) : exec .creset s = accept s resetDone := by
  have h : execCreset s = accept s fun s =>
      finish (.code .ok) (writeSeq .done (writeSeq .transmissionStarted (connectionReset (writeSeq .idle s)))) := rfl
  show execCreset s = _
  rw [h]
  congr 1

/-- What a transmission start leaves on its own (40_transport.md R100). -/
def started (s : State) : State :=
  { s with
    clk := .low
    ddrv := .z
    res := .none
    resWritten := true
    commandDue := true
    log := tsEvents.reverse ++ s.log }

theorem exec_tstart (s : State) : exec .tstart s = withClockLow s started := rfl

/-- What a byte read leaves on its own (40_transport.md R101). -/
def byteRead (sendAck : Bool) (s : State) : State :=
  { s with
    clk := .low
    ddrv := .z
    sr := byteOf (upcoming s)
    bitcnt := 8
    res := .byte (byteOf (upcoming s))
    resWritten := true
    commandDue := false
    sensor := s.sensor.drop 8
    samples := s.samples + 8
    log := (readEvents sendAck (byteOf (upcoming s))).reverse ++ s.log }

theorem exec_rdbyte (a : Bool) (s : State) : exec (.rdbyte a) s = withClockLow s (byteRead a) := by
  have h : execRdbyte a s = withClockLow s fun s => finish (.byte (readByte a s).1) (readByte a s).2 := rfl
  show execRdbyte a s = _
  rw [h]
  congr 1
  funext s
  rw [readByte_eq]
  rfl

/-- What a byte written leaves on its own (40_transport.md R102). -/
def byteWritten (v : Byte) (s : State) : State :=
  { s with
    clk := .low
    ddrv := .z
    sr := v
    bitcnt := 8
    res := .code (ackCode (upcoming s 0))
    resWritten := true
    commandDue := false
    sensor := s.sensor.drop 1
    samples := s.samples + 1
    log := (writeEvents v (upcoming s 0)).reverse ++ s.log }

/-- `WRBYTE` gives a next state exactly with the clock Low and a byte that may stand where it is
(30_encoding.md R90, 40_transport.md R102). -/
theorem exec_wrbyte_next {v : Byte} {s t : State} :
    exec (.wrbyte v) s = .next t ↔
      (s.commandDue = true → (Command.ofByte v).isSome = true) ∧ s.clk = .low ∧ byteWritten v s = t := by
  have hrun : ∀ hc : s.clk = .low,
      finish (.code (writeByte v s).1) (writeByte v s).2 = byteWritten v s := by
    intro hc
    simp only [writeByte_eq v hc, finish, byteWritten, List.drop_one]
  show execWrbyte v s = _ ↔ _
  unfold execWrbyte
  cases hd : s.commandDue <;> cases ho : Command.ofByte v <;>
    simp [withClockLow_next] <;> intro hc <;> rw [hrun hc]

theorem exec_tcels (raw : U16) (s : State) : exec (.tcels raw) s = .next { s with
    calOut := .number (toNumber s.params.numerics (temperatureCelsius s.params.numerics raw)) } := rfl

theorem exec_hpct (h t : U16) (s : State) : exec (.hpct h t) s = .next { s with
    calOut := .number (toNumber s.params.numerics (humidityPercent s.params.numerics h t)) } := rfl

end Sys2Proof.Machine
end

