-- ==== Sys2Proof/Laws/Numerics.lean ====
section
/-! SUPPORT. The arithmetic of calibration in the terms of exact rationals: what the parts of binary64 rounding
compute (42_calibration.md R140), and what the operations are under `Q`. -/

namespace Sys2Proof.Machine

@[simp] theorem roundNum_q (x : Rat) : roundNum .q x = x := rfl
@[simp] theorem roundNum_b64 (x : Rat) : roundNum .b64 x = roundB64 x := rfl
@[simp] theorem literal_q (x : Rat) : literal .q x = x := rfl
@[simp] theorem literal_b64 (x : Rat) : literal .b64 x = roundB64 x := rfl

theorem scaleTwo_eq (m : Nat) (e : Int) : scaleTwo m e = (m : Rat) * 2 ^ e := by
  unfold scaleTwo
  rw [Rat.mkRat_eq_div]
  cases e with
  | ofNat n => simp
  | negSucc n => simp [zpow_negSucc, div_eq_mul_inv]

/-- Multiplying out a power of two with a sign: one side carries it up, the other down. -/
theorem two_zpow_eq (l : Int) : (2 : Rat) ^ l = 2 ^ l.toNat / 2 ^ (-l).toNat := by
  have h := scaleTwo_eq 1 l
  unfold scaleTwo at h
  rw [Rat.mkRat_eq_div] at h
  simpa using h.symm

/-- The exponent of `floorLog2` is that of the leading bit. -/
theorem floorLog2_spec {n d : Nat} (hn : n ≠ 0) (hd : d ≠ 0) :
    (2 : Rat) ^ floorLog2 n d ≤ n / d ∧ (n : Rat) / d < 2 ^ (floorLog2 n d + 1) := by
  have hdq : (0 : Rat) < d := by exact_mod_cast Nat.pos_of_ne_zero hd
  have hn1 : ((2 ^ Nat.log2 n : Nat) : Rat) ≤ n := by exact_mod_cast Nat.log2_self_le hn
  have hn2 : (n : Rat) < ((2 ^ (Nat.log2 n + 1) : Nat) : Rat) := by exact_mod_cast Nat.lt_log2_self
  have hd1 : ((2 ^ Nat.log2 d : Nat) : Rat) ≤ d := by exact_mod_cast Nat.log2_self_le hd
  have hd2 : (d : Rat) < ((2 ^ (Nat.log2 d + 1) : Nat) : Rat) := by exact_mod_cast Nat.lt_log2_self
  push_cast at hn1 hn2 hd1 hd2
  set l : Int := (Nat.log2 n : Int) - (Nat.log2 d : Int) with hl
  have hz : (2 : Rat) ^ (Nat.log2 n : Int) = 2 ^ l * 2 ^ (Nat.log2 d : Int) := by
    rw [← zpow_add₀ (by norm_num)]; congr 1; omega
  simp only [zpow_natCast] at hz
  have hlpos : (0 : Rat) < 2 ^ l := by positivity
  -- the quotient lies within one binade of `2 ^ l` on either side
  have hlow : (2 : Rat) ^ (l - 1) ≤ n / d := by
    rw [le_div_iff₀ hdq, zpow_sub_one₀ (by norm_num)]
    calc (2 : Rat) ^ l * 2⁻¹ * d ≤ 2 ^ l * 2⁻¹ * 2 ^ (Nat.log2 d + 1) := by
          apply mul_le_mul_of_nonneg_left hd2.le (by positivity)
      _ = 2 ^ Nat.log2 n := by rw [hz, pow_succ]; ring
      _ ≤ n := hn1
  have hhigh : (n : Rat) / d < 2 ^ (l + 1) := by
    rw [div_lt_iff₀ hdq, zpow_add_one₀ (by norm_num)]
    calc (n : Rat) < 2 ^ (Nat.log2 n + 1) := hn2
      _ = 2 ^ l * 2 * 2 ^ Nat.log2 d := by rw [pow_succ, hz]; ring
      _ ≤ 2 ^ l * 2 * d := by apply mul_le_mul_of_nonneg_left hd1 (by positivity)
  have htest : d * 2 ^ l.toNat ≤ n * 2 ^ (-l).toNat ↔ (2 : Rat) ^ l ≤ n / d := by
    rw [two_zpow_eq l, div_le_div_iff₀ (by positivity) hdq, ← Nat.cast_le (α := Rat)]
    push_cast
    rw [mul_comm]
  unfold floorLog2
  simp only [← hl]
  split
  · next h => exact ⟨htest.mp h, hhigh⟩
  · next h => exact ⟨hlow, by rw [sub_add_cancel]; exact not_le.mp (mt htest.mpr h)⟩

/-- `divRoundEven` is the nearest integer, and the even one of two as near. -/
theorem divRoundEven_spec (a : Nat) {b : Nat} (hb : 0 < b) :
    |(divRoundEven a b : Rat) - a / b| ≤ 1 / 2 ∧
      (|(divRoundEven a b : Rat) - a / b| = 1 / 2 → divRoundEven a b % 2 = 0) := by
  have hbq : (0 : Rat) < b := by exact_mod_cast hb
  have hr : a % b < b := Nat.mod_lt a hb
  have hq : (a : Rat) / b = (a / b : Nat) + ((a % b : Nat) : Rat) / b := by
    rw [div_eq_iff hbq.ne', add_mul, div_mul_cancel₀ _ hbq.ne']
    exact_mod_cast (Nat.div_add_mod' a b).symm
  rw [hq]
  unfold divRoundEven
  generalize a / b = q
  generalize a % b = r at hr
  have hrq : (r : Rat) / b < 1 := by rw [div_lt_one hbq]; exact_mod_cast hr
  have hr0 : (0 : Rat) ≤ (r : Rat) / b := by positivity
  simp only []
  split
  · next h =>
    have h2 : (r : Rat) / b < 1 / 2 := by
      rw [div_lt_div_iff₀ hbq (by norm_num)]
      exact_mod_cast (by omega : r * 2 < 1 * b)
    rw [show (q : Rat) - (q + (r : Rat) / b) = -((r : Rat) / b) by ring, abs_neg, abs_of_nonneg hr0]
    exact ⟨h2.le, fun h => absurd h h2.ne⟩
  · split
    · next h =>
      have h2 : 1 / 2 < (r : Rat) / b := by
        rw [div_lt_div_iff₀ (by norm_num) hbq]
        exact_mod_cast (by omega : 1 * b < r * 2)
      push_cast
      rw [show (q : Rat) + 1 - (q + (r : Rat) / b) = 1 - (r : Rat) / b by ring, abs_of_pos (by linarith)]
      exact ⟨by linarith, fun h => by linarith⟩
    · next h1 h2 =>
      have h2 : (r : Rat) / b = 1 / 2 := by
        rw [div_eq_div_iff hbq.ne' (by norm_num)]
        exact_mod_cast (by omega : r * 2 = 1 * b)
      rw [h2]
      refine ⟨?_, fun _ => by omega⟩
      rcases Nat.mod_two_eq_zero_or_one q with h | h <;> rw [h] <;> push_cast <;>
        · rw [abs_le]; constructor <;> linarith

@[simp] theorem roundB64_zero : roundB64 0 = 0 := rfl

theorem roundB64_neg (x : Rat) : roundB64 (-x) = -roundB64 x := by
  have hn : (-x).num = -x.num := rfl
  have hd : (-x).den = x.den := rfl
  unfold roundB64
  rw [hn, hd]
  rcases lt_trichotomy x.num 0 with h | h | h
  · have h1 : ¬ -x.num < 0 := by omega
    simp only [Int.natAbs_neg, neg_eq_zero, h.ne, h, h1, if_true, if_false, neg_neg]
  · simp [h]
  · have h1 : ¬ x.num < 0 := by omega
    have h2 : -x.num < 0 := by omega
    simp only [Int.natAbs_neg, neg_eq_zero, h.ne', h1, h2, if_true, if_false]

/-- A positive number is rounded to a whole number of units of its last place, the nearest one, the even one
on a tie (42_calibration.md R140). -/
theorem roundB64_pos {x : Rat} (hx : 0 < x) :
    ∃ k : Nat, roundB64 x = (k : Rat) * 2 ^ ulpExponent x.num.natAbs x.den ∧
      |(k : Rat) - x / 2 ^ ulpExponent x.num.natAbs x.den| ≤ 1 / 2 ∧
      (|(k : Rat) - x / 2 ^ ulpExponent x.num.natAbs x.den| = 1 / 2 → k % 2 = 0) := by
  have hnum : 0 < x.num := Rat.num_pos.mpr hx
  have hxq : x = (x.num.natAbs : Rat) / x.den := by
    rw [Nat.cast_natAbs, abs_of_pos hnum]; exact (Rat.num_div_den x).symm
  have hden : (0 : Rat) < x.den := by exact_mod_cast x.den_pos
  set e := ulpExponent x.num.natAbs x.den with he
  have hquot : ((x.num.natAbs * 2 ^ (-e).toNat : Nat) : Rat) / ((x.den * 2 ^ e.toNat : Nat) : Rat) = x / 2 ^ e := by
    rw [two_zpow_eq e]
    conv_rhs => rw [hxq]
    push_cast
    field_simp
  have hspec := divRoundEven_spec (x.num.natAbs * 2 ^ (-e).toNat) (b := x.den * 2 ^ e.toNat)
    (Nat.mul_pos x.den_pos (by positivity))
  rw [hquot] at hspec
  refine ⟨divRoundEven (x.num.natAbs * 2 ^ (-e).toNat) (x.den * 2 ^ e.toNat), ?_, hspec.1, hspec.2⟩
  unfold roundB64
  simp only [hnum.ne', if_false, not_lt.mpr hnum.le, ← he, scaleTwo_eq]

theorem roundB64_nonneg {x : Rat} (hx : 0 ≤ x) : 0 ≤ roundB64 x := by
  rcases hx.eq_or_lt with rfl | hx
  · simp
  · obtain ⟨k, hk, -⟩ := roundB64_pos hx
    rw [hk]
    positivity

/-- The binade of a positive number, in terms of the number. -/
theorem floorLog2_binade {x : Rat} (hx : 0 < x) :
    (2 : Rat) ^ floorLog2 x.num.natAbs x.den ≤ x ∧ x < 2 ^ (floorLog2 x.num.natAbs x.den + 1) := by
  have hnum : 0 < x.num := Rat.num_pos.mpr hx
  have h := floorLog2_spec (n := x.num.natAbs) (d := x.den) (by omega) x.den_ne_zero
  have hxq : (x.num.natAbs : Rat) / x.den = x := by
    rw [Nat.cast_natAbs, abs_of_pos hnum]
    exact Rat.num_div_den x
  rwa [hxq] at h

theorem zpow_lt_two {a b : Int} (h : (2 : Rat) ^ a < 2 ^ b) : a < b :=
  (zpow_lt_zpow_iff_right₀ (by norm_num)).mp h

/-- Rounding keeps the order of positive numbers. -/
theorem roundB64_mono_pos {x y : Rat} (hx : 0 < x) (h : x ≤ y) : roundB64 x ≤ roundB64 y := by
  rcases h.eq_or_lt with rfl | hlt
  · exact le_rfl
  have hy : 0 < y := hx.trans hlt
  obtain ⟨k, hk, hk1, -⟩ := roundB64_pos hx
  obtain ⟨m, hm, hm1, -⟩ := roundB64_pos hy
  obtain ⟨hx1, hx2⟩ := floorLog2_binade hx
  obtain ⟨hy1, hy2⟩ := floorLog2_binade hy
  have hll : floorLog2 x.num.natAbs x.den < floorLog2 y.num.natAbs y.den + 1 :=
    zpow_lt_two (hx1.trans_lt (hlt.trans hy2))
  unfold ulpExponent at hk hk1 hm hm1
  generalize floorLog2 x.num.natAbs x.den = lx at *
  generalize floorLog2 y.num.natAbs y.den = ly at *
  rw [hk, hm]
  rw [abs_le] at hk1 hm1
  rcases (show max (lx - 52) (-1074) = max (ly - 52) (-1074) ∨
      (max (lx - 52) (-1074) < ly - 52 ∧ max (ly - 52) (-1074) = ly - 52 ∧ lx + 1 ≤ ly) by omega) with he | ⟨he, hey, hl⟩
  · rw [he] at hk1 ⊢
    have hp : (0 : Rat) < 2 ^ max (ly - 52) (-1074) := by positivity
    have hq := div_lt_div_of_pos_right hlt hp
    have : (k : Rat) < m + 1 := by linarith
    have hkm : k ≤ m := by
      have : k < m + 1 := by exact_mod_cast this
      omega
    exact mul_le_mul_of_nonneg_right (by exact_mod_cast hkm) hp.le
  · rw [hey] at hm1 ⊢
    generalize max (lx - 52) (-1074) = ex at *
    obtain ⟨p, hp⟩ : ∃ p : Nat, ly - ex = p := ⟨(ly - ex).toNat, by omega⟩
    have hexp : (0 : Rat) < 2 ^ ex := by positivity
    have heyp : (0 : Rat) < 2 ^ (ly - 52) := by positivity
    have hly : (2 : Rat) ^ ly = 2 ^ p * 2 ^ ex := by
      rw [← zpow_natCast, ← zpow_add₀ (by norm_num)]; congr 1; omega
    have hly' : (2 : Rat) ^ ly = 2 ^ 52 * 2 ^ (ly - 52) := by
      rw [← zpow_natCast, ← zpow_add₀ (by norm_num)]; congr 1; push_cast; omega
    have hx3 : x / 2 ^ ex < 2 ^ p := by
      rw [div_lt_iff₀ hexp, ← hly]
      exact hx2.trans_le (zpow_le_zpow_right₀ (by norm_num) hl)
    have hy3 : (2 : Rat) ^ 52 ≤ y / 2 ^ (ly - 52) := by
      rw [le_div_iff₀ heyp, ← hly']
      exact hy1
    have hkp : k ≤ 2 ^ p := by
      have : (k : Rat) < ((2 ^ p + 1 : Nat) : Rat) := by push_cast; linarith
      have : k < 2 ^ p + 1 := by exact_mod_cast this
      omega
    have hm52 : 2 ^ 52 ≤ m := by
      have : ((2 ^ 52 : Nat) : Rat) < ((m + 1 : Nat) : Rat) := by push_cast; linarith
      have : 2 ^ 52 < m + 1 := by exact_mod_cast this
      omega
    calc (k : Rat) * 2 ^ ex ≤ 2 ^ p * 2 ^ ex :=
          mul_le_mul_of_nonneg_right (by exact_mod_cast hkp) hexp.le
      _ = 2 ^ 52 * 2 ^ (ly - 52) := by rw [← hly, hly']
      _ ≤ m * 2 ^ (ly - 52) := mul_le_mul_of_nonneg_right (by exact_mod_cast hm52) heyp.le

/-- Rounding keeps the order. -/
theorem roundB64_mono {x y : Rat} (h : x ≤ y) : roundB64 x ≤ roundB64 y := by
  rcases lt_or_ge 0 x with hx | hx
  · exact roundB64_mono_pos hx h
  · rcases lt_or_ge y 0 with hy | hy
    · have := roundB64_mono_pos (x := -y) (y := -x) (by linarith) (by linarith)
      rw [roundB64_neg, roundB64_neg] at this
      linarith
    · have h1 := roundB64_nonneg (x := -x) (by linarith)
      rw [roundB64_neg] at h1
      have h2 := roundB64_nonneg hy
      linarith

theorem roundNum_mono (n : Numerics) {x y : Rat} (h : x ≤ y) : roundNum n x ≤ roundNum n y := by
  cases n
  · exact roundB64_mono h
  · exact h

end Sys2Proof.Machine
end

