-- ==== Sys2Proof/Laws/PerInstr.lean ====
section
/-! SUPPORT. The family RoundTrip, one lemma per constructor of Instr: an instruction is well formed and
decodes from its own encoding (30_encoding.md R82, R88, R89). -/

namespace Sys2Proof.Laws.RoundTrip

/-- The instruction is well formed, and its encoding decodes to it with every operand kept. -/
def Statement (i : Instr) : Prop :=
  i.wellFormed = true ∧ decode (encode i) = .ok i

theorem measureTemp : Statement .measureTemp := ⟨rfl, rfl⟩
theorem measureHumi : Statement .measureHumi := ⟨rfl, rfl⟩
theorem statusRegW (value : Byte) : Statement (.statusRegW value) := ⟨rfl, rfl⟩
theorem statusRegR : Statement .statusRegR := ⟨rfl, rfl⟩
theorem resetCommand : Statement .resetCommand := ⟨rfl, rfl⟩
theorem read : Statement .read := ⟨rfl, rfl⟩
theorem rdstat : Statement .rdstat := ⟨rfl, rfl⟩
theorem wrstat (value : Byte) : Statement (.wrstat value) := ⟨rfl, rfl⟩
theorem sreset : Statement .sreset := ⟨rfl, rfl⟩
theorem creset : Statement .creset := ⟨rfl, rfl⟩
theorem tstart : Statement .tstart := ⟨rfl, rfl⟩
theorem rdbyte (sendAck : Bool) : Statement (.rdbyte sendAck) := by cases sendAck <;> exact ⟨rfl, rfl⟩
theorem wrbyte (value : Byte) : Statement (.wrbyte value) := ⟨rfl, rfl⟩
theorem meas (kind : Kind) : Statement (.meas kind) := by cases kind <;> exact ⟨rfl, rfl⟩
theorem tcels (raw : U16) : Statement (.tcels raw) := ⟨rfl, rfl⟩
theorem hpct (rawHumi rawTemp : U16) : Statement (.hpct rawHumi rawTemp) := ⟨rfl, rfl⟩

end Sys2Proof.Laws.RoundTrip
end

