-- ==== Sys2Proof/Laws/Trace.lean ====
section
/-! SUPPORT. The events each instruction adds to the trace, for every instruction at once, and what the
patterns of the protocol do to the wires. -/

namespace Sys2Proof.Machine

/-- The trace of a status register read (41_sequencer.md R123). -/
def statusReadEvents (s : State) : List Event :=
  if upcoming s 0 then
    [.seq .idle] ++ tsEvents ++ [.seq .transmissionStarted] ++ writeEvents 0x07#8 true ++ [.seq .failed]
  else
    [.seq .idle] ++ tsEvents ++ [.seq .transmissionStarted] ++ writeEvents 0x07#8 false ++
      [.seq .commandSent, .seq .awaitingByte] ++ readEvents true (byteOf fun i => upcoming s (1 + i)) ++
      readEvents false (byteOf fun i => upcoming s (9 + i)) ++ [.seq .done]

/-- The trace of a status register write (41_sequencer.md R124). -/
def statusWriteEvents (v : Byte) (s : State) : List Event :=
  if upcoming s 0 then
    [.seq .idle] ++ tsEvents ++ [.seq .transmissionStarted] ++ writeEvents 0x06#8 true ++ [.seq .failed]
  else
    [.seq .idle] ++ tsEvents ++ [.seq .transmissionStarted] ++ writeEvents 0x06#8 false ++
      [.seq .commandSent] ++ writeEvents v (upcoming s 1) ++ [.seq (seqOfCode (ackCode (upcoming s 1)))]

/-- The trace of a soft reset (41_sequencer.md R125). -/
def softResetEvents (s : State) : List Event :=
  [.seq .idle] ++ crEvents ++ [.seq .transmissionStarted] ++ writeEvents 0x1E#8 (upcoming s 0) ++
    (if upcoming s 0 then [.seq .failed] else [.seq .commandSent, .seq .done])

/-- The trace of a compound read (43_read_api.md R160). -/
def compoundReadEvents (s : State) : List Event :=
  [.seq .idle] ++ measureEvents .temperature s 0 ++ measureEvents .humidity s (stageAt s 0).used

/-- The events an instruction adds. -/
def traceOf : Instr → State → List Event
  | .measureTemp, s => measureEvents .temperature s 0
  | .measureHumi, s => measureEvents .humidity s 0
  | .statusRegW v, s => statusWriteEvents v s
  | .statusRegR, s => statusReadEvents s
  | .resetCommand, s => softResetEvents s
  | .read, s => compoundReadEvents s
  | .rdstat, s => statusReadEvents s
  | .wrstat v, s => statusWriteEvents v s
  | .sreset, s => softResetEvents s
  | .creset, _ => [.seq .idle] ++ crEvents ++ [.seq .transmissionStarted, .seq .done]
  | .tstart, _ => tsEvents
  | .rdbyte a, s => readEvents a (byteOf (upcoming s))
  | .wrbyte v, s => writeEvents v (upcoming s 0)
  | .meas k, s => measureEvents k s 0
  | .tcels _, _ => []
  | .hpct _ _, _ => []

theorem runMeasure_adds (k : Kind) (s : State) : Adds s (runMeasure k s) (measureEvents k s 0) := by
  simp only [runMeasure, measure_eq]
  rfl

theorem runReadStatus_adds (s : State) : Adds s (runReadStatus s) (statusReadEvents s) := by
  cases h : upcoming s 0
  · simp only [runReadStatus, readStatusRegister_ok h, statusReadEvents, h]
    rfl
  · simp only [runReadStatus, readStatusRegister_refused h, statusReadEvents, h]
    rfl

theorem runWriteStatus_adds (v : Byte) (s : State) : Adds s (runWriteStatus v s) (statusWriteEvents v s) := by
  cases h : upcoming s 0
  · simp only [runWriteStatus, writeStatusRegister_sent v h, statusWriteEvents, h]
    rfl
  · simp only [runWriteStatus, writeStatusRegister_refused v h, statusWriteEvents, h]
    rfl

theorem runSoftReset_adds (s : State) : Adds s (runSoftReset s) (softResetEvents s) := by
  simp only [runSoftReset, softReset_eq, softResetEvents]
  rfl

/-- Every instruction adds its events after all earlier ones, and nothing else. -/
theorem exec_adds {i : Instr} {s t : State} (h : exec i s = .next t) : Adds s t (traceOf i s) := by
  cases i with
  | measureTemp => rw [exec_measureTemp] at h; rw [← (accept_next.mp h).2]; exact runMeasure_adds _ s
  | measureHumi => rw [exec_measureHumi] at h; rw [← (accept_next.mp h).2]; exact runMeasure_adds _ s
  | statusRegW v => rw [exec_statusRegW] at h; rw [← (accept_next.mp h).2]; exact runWriteStatus_adds v s
  | statusRegR => rw [exec_statusRegR] at h; rw [← (accept_next.mp h).2]; exact runReadStatus_adds s
  | resetCommand => rw [exec_resetCommand] at h; rw [← (accept_next.mp h).2]; exact runSoftReset_adds s
  | read => rw [exec_read] at h; rw [← (accept_next.mp h).2]; exact (runRead_leaves s).log
  | rdstat => rw [exec_rdstat] at h; rw [← (accept_next.mp h).2]; exact runReadStatus_adds s
  | wrstat v => rw [exec_wrstat] at h; rw [← (accept_next.mp h).2]; exact runWriteStatus_adds v s
  | sreset => rw [exec_sreset] at h; rw [← (accept_next.mp h).2]; exact runSoftReset_adds s
  | creset => rw [exec_creset] at h; rw [← (accept_next.mp h).2]; rfl
  | tstart => rw [exec_tstart] at h; rw [← (withClockLow_next.mp h).2]; rfl
  | rdbyte a => rw [exec_rdbyte] at h; rw [← (withClockLow_next.mp h).2]; rfl
  | wrbyte v => rw [← (exec_wrbyte_next.mp h).2.2]; rfl
  | meas k => rw [exec_meas] at h; rw [← (accept_next.mp h).2]; exact runMeasure_adds k s
  | tcels raw => rw [exec_tcels] at h; injection h with h; rw [← h]; rfl
  | hpct rawHumi rawTemp => rw [exec_hpct] at h; injection h with h; rw [← h]; rfl

/-- The wires after a list of events. -/
def wiresAfter (w : Level × Drive) : List Event → Level × Drive
  | [] => w
  | .rel :: l => wiresAfter (w.1, .z) l
  | .drv b :: l => wiresAfter (w.1, driveOf b) l
  | .clkHi :: l => wiresAfter (.high, w.2) l
  | .clkLo :: l => wiresAfter (.low, w.2) l
  | .smp _ :: l => wiresAfter w l
  | .waitMs :: l => wiresAfter w l
  | .seq _ :: l => wiresAfter w l

theorem wiresAfter_append (l m : List Event) (w : Level × Drive) :
    wiresAfter w (l ++ m) = wiresAfter (wiresAfter w l) m := by
  induction l generalizing w with
  | nil => rfl
  | cons e l ih => cases e <;> exact ih _

theorem samplesReleased_append (l m : List Event) (c : Level) (d : Drive) :
    samplesReleased d (l ++ m) = (samplesReleased d l && samplesReleased (wiresAfter (c, d) l).2 m) := by
  induction l generalizing c d with
  | nil => simp [samplesReleased, wiresAfter]
  | cons e l ih =>
    cases e
    case smp a => simp [samplesReleased, wiresAfter, ih c, Bool.and_assoc]
    case clkHi => exact ih .high d
    case clkLo => exact ih .low d
    all_goals exact ih c _

/-- The calls of a list of events put the pins where the events put the wires (10_state.md R24). -/
theorem callPins_wires (l : List Event) (p : Pins) :
    (((l.flatMap eventCalls).foldl callPins p).clk, ((l.flatMap eventCalls).foldl callPins p).drive) =
      wiresAfter (p.clk, p.drive) l := by
  induction l generalizing p with
  | nil => rfl
  | cons e l ih =>
    rw [List.flatMap_cons, List.foldl_append, ih]
    cases e
    case drv b => cases b <;> rfl
    all_goals rfl

/-- Events that lead from idle wires to idle wires and sample only while the data pin is an input. -/
structure Quiet (es : List Event) : Prop where
  wires : wiresAfter (.low, .z) es = (.low, .z)
  samples : samplesReleased .z es = true

theorem Quiet.append {l m : List Event} (hl : Quiet l) (hm : Quiet m) : Quiet (l ++ m) :=
  ⟨by rw [wiresAfter_append, hl.wires, hm.wires],
    by rw [samplesReleased_append l m .low .z, hl.wires, hl.samples, hm.samples]; rfl⟩

theorem quiet_seq (q : Seq) : Quiet [.seq q] := ⟨rfl, rfl⟩

theorem quiet_ts : Quiet tsEvents := ⟨rfl, rfl⟩

theorem quiet_cr : Quiet crEvents := ⟨rfl, rfl⟩

theorem quiet_write (v : Byte) (ack : Bool) : Quiet (writeEvents v ack) := ⟨rfl, rfl⟩

theorem quiet_read (sendAck : Bool) (v : Byte) : Quiet (readEvents sendAck v) := by
  cases sendAck <;> exact ⟨rfl, rfl⟩

theorem quiet_highPolls (n : Nat) : Quiet (highPolls n) := by
  induction n with
  | zero => exact ⟨rfl, rfl⟩
  | succ n ih => exact Quiet.append (l := [.waitMs, .smp true]) ⟨rfl, rfl⟩ ih

theorem quiet_raw (s : State) (b : Nat) : Quiet (rawEvents s b) :=
  ((quiet_read _ _).append (quiet_read _ _)).append (quiet_read _ _)

theorem quiet_measure (kind : Kind) (s : State) (k : Nat) : Quiet (measureEvents kind s k) := by
  have hpoll : Quiet [.seq .commandSent, .rel, .seq .measuring] := ⟨rfl, rfl⟩
  have hlow : Quiet [.waitMs, .smp false] := ⟨rfl, rfl⟩
  refine Quiet.append ?_ ?_
  · exact (((quiet_seq _).append quiet_ts).append (quiet_seq _)).append (quiet_write _ _)
  · cases (stageAt s k).code with
    | ok =>
      exact ((((hpoll.append (quiet_highPolls _)).append hlow).append (quiet_seq _)).append
        (quiet_raw _ _)).append (quiet_seq _)
    | writeError => exact quiet_seq _
    | timeout => exact (hpoll.append (quiet_highPolls _)).append (quiet_seq _)

theorem quiet_statusRead (s : State) : Quiet (statusReadEvents s) := by
  have head (ack : Bool) :
      Quiet ([.seq .idle] ++ tsEvents ++ [.seq .transmissionStarted] ++ writeEvents 0x07#8 ack) :=
    (((quiet_seq _).append quiet_ts).append (quiet_seq _)).append (quiet_write _ _)
  have hmid : Quiet [.seq .commandSent, .seq .awaitingByte] := ⟨rfl, rfl⟩
  unfold statusReadEvents
  split
  · exact (head true).append (quiet_seq _)
  · exact ((((head false).append hmid).append (quiet_read _ _)).append (quiet_read _ _)).append (quiet_seq _)

theorem quiet_statusWrite (v : Byte) (s : State) : Quiet (statusWriteEvents v s) := by
  have head (ack : Bool) :
      Quiet ([.seq .idle] ++ tsEvents ++ [.seq .transmissionStarted] ++ writeEvents 0x06#8 ack) :=
    (((quiet_seq _).append quiet_ts).append (quiet_seq _)).append (quiet_write _ _)
  unfold statusWriteEvents
  split
  · exact (head true).append (quiet_seq _)
  · exact (((head false).append (quiet_seq _)).append (quiet_write _ _)).append (quiet_seq _)

theorem quiet_softReset (s : State) : Quiet (softResetEvents s) := by
  refine Quiet.append ?_ ?_
  · exact (((quiet_seq _).append quiet_cr).append (quiet_seq _)).append (quiet_write _ _)
  · split
    · exact quiet_seq _
    · exact ⟨rfl, rfl⟩

theorem quiet_compoundRead (s : State) : Quiet (compoundReadEvents s) :=
  ((quiet_seq _).append (quiet_measure _ _ _)).append (quiet_measure _ _ _)

/-- What every instruction adds is quiet (10_state.md R25, 20_memory.md R56). -/
theorem traceOf_quiet (i : Instr) (s : State) : Quiet (traceOf i s) := by
  cases i with
  | measureTemp => exact quiet_measure _ _ _
  | measureHumi => exact quiet_measure _ _ _
  | statusRegW v => exact quiet_statusWrite _ _
  | statusRegR => exact quiet_statusRead _
  | resetCommand => exact quiet_softReset _
  | read => exact quiet_compoundRead _
  | rdstat => exact quiet_statusRead _
  | wrstat v => exact quiet_statusWrite _ _
  | sreset => exact quiet_softReset _
  | creset => exact ((quiet_seq _).append quiet_cr).append ⟨rfl, rfl⟩
  | tstart => exact quiet_ts
  | rdbyte a => exact quiet_read _ _
  | wrbyte v => exact quiet_write _ _
  | meas k => exact quiet_measure _ _ _
  | tcels raw => exact ⟨rfl, rfl⟩
  | hpct rawHumi rawTemp => exact ⟨rfl, rfl⟩

/-- Events that lead from a Low clock to a Low clock and issue `REL` and `DRV` only while it is Low
(20_memory.md R72). A transmission start is not steady. -/
structure Steady (es : List Event) : Prop where
  clock : clockAfter .low es = .low
  drives : drivesOnlyWhileLow .low es = true

theorem clockAfter_append (l m : List Event) (c : Level) : clockAfter c (l ++ m) = clockAfter (clockAfter c l) m := by
  induction l generalizing c with
  | nil => rfl
  | cons e l ih => cases e <;> exact ih _

theorem drivesOnlyWhileLow_append (l m : List Event) (c : Level) :
    drivesOnlyWhileLow c (l ++ m) = (drivesOnlyWhileLow c l && drivesOnlyWhileLow (clockAfter c l) m) := by
  induction l generalizing c with
  | nil => simp [drivesOnlyWhileLow, clockAfter]
  | cons e l ih => cases e <;> simp [drivesOnlyWhileLow, clockAfter, ih, Bool.and_assoc]

theorem Steady.append {l m : List Event} (hl : Steady l) (hm : Steady m) : Steady (l ++ m) :=
  ⟨by rw [clockAfter_append, hl.clock, hm.clock],
    by rw [drivesOnlyWhileLow_append, hl.clock, hl.drives, hm.drives]; rfl⟩

theorem steady_seq (q : Seq) : Steady [.seq q] := ⟨rfl, rfl⟩

theorem steady_write (v : Byte) (ack : Bool) : Steady (writeEvents v ack) := ⟨rfl, rfl⟩

theorem steady_read (sendAck : Bool) (v : Byte) : Steady (readEvents sendAck v) := by
  cases sendAck <;> exact ⟨rfl, rfl⟩

theorem steady_highPolls (n : Nat) : Steady (highPolls n) := by
  induction n with
  | zero => exact ⟨rfl, rfl⟩
  | succ n ih => exact Steady.append (l := [.waitMs, .smp true]) ⟨rfl, rfl⟩ ih

theorem steady_raw (s : State) (b : Nat) : Steady (rawEvents s b) :=
  ((steady_read _ _).append (steady_read _ _)).append (steady_read _ _)

/-- The nine pulses before the transmission start of a connection reset. -/
theorem steady_pulses : Steady ([.rel] ++ (List.replicate 9 [Event.clkHi, .clkLo]).flatten) := ⟨rfl, rfl⟩

theorem clockAfter_ts : clockAfter .low tsEvents = .low := rfl

theorem samplesOf_append (l m : List Event) : samplesOf (l ++ m) = samplesOf l ++ samplesOf m :=
  List.filterMap_append

theorem drivenBits_append (l m : List Event) : drivenBits (l ++ m) = drivenBits l ++ drivenBits m :=
  List.filterMap_append

theorem shortDelays_append (l m : List Event) : shortDelays (l ++ m) = shortDelays l + shortDelays m := by
  induction l with
  | nil => simp [shortDelays]
  | cons e l ih => cases e <;> simp [shortDelays, ih] <;> omega

theorem msDelays_append (l m : List Event) : msDelays (l ++ m) = msDelays l + msDelays m := by
  simp [msDelays]

end Sys2Proof.Machine
end

