-- ==== Sys2Proof/Tests/Slice0.lean ====
section
/-! SUPPORT. The model's own tests. Expected values are those of spec/95_test_vectors.md (cited by id) or are
written out from the encodings of spec/30_encoding.md. The second half shows, for every obligation with
hypotheses, a concrete state and operands that meet them. -/

namespace Sys2Proof.Tests

open Sys2Proof Sys2Proof.Machine

/-! ### Helpers -/

/-- The reset state with a sample script (95_test_vectors.md, Notation). -/
def withScript (script : List Bool) : State :=
  { State.reset with sensor := script }

/-- A sample script from zeros and ones. -/
def answers (l : List Nat) : List Bool :=
  l.map fun n => decide (n = 1)

/-- Look at the next state of one instruction. -/
def after {α : Type} (i : Instr) (s : State) (f : State → α) : Option α :=
  match exec i s with
  | .next t => some (f t)
  | .fault _ => none
  | .refused _ => none

/-- Short delays, millisecond delays and samples of a state (the three counts of 95_test_vectors.md). -/
def counts (s : State) : List Nat :=
  [shortDelays s.log, msDelays s.log, s.samples]

/-- The writes of `SEQ` in the trace, oldest first. -/
def seqTrace (s : State) : List Seq :=
  s.log.reverse.filterMap fun e => match e with
    | .seq q => some q
    | .rel => none
    | .drv _ => none
    | .clkHi => none
    | .clkLo => none
    | .smp _ => none
    | .waitMs => none

/-- What is seen on the wires from reset on. -/
def wires (s : State) : List WireEvent :=
  wireTrace .low .z s.log.reverse

/-- One written bit on the wires: drive, pulse. -/
def pulse (d : Drive) : List WireEvent :=
  [.wire .low d, .wire .high d, .wire .low d]

/-- A released pulse with a sample. -/
def sampled (a : Bool) : List WireEvent :=
  [.wire .high .z, .sample a, .wire .low .z]

/-- The seven wire states of B1.1. -/
def tsWires : List WireEvent :=
  [.wire .low .z, .wire .high .z, .wire .high .out0, .wire .low .out0, .wire .high .out0, .wire .high .z,
    .wire .low .z]

/-- Outcomes are compared by their refusal. -/
def refusal (o : Host.Outcome State Fault Refusal) : Option Refusal :=
  match o with
  | .next _ => none
  | .fault _ => none
  | .refused r => some r

/-! ### Well-formedness: a program of public operations is accepted, each other kind of line is not -/

theorem test_program_wellFormed :
    Program.wellFormed [.read, .rdstat, .wrstat 0x01#8, .sreset, .creset] = true := by decide
theorem test_tstart_not_in_program : Program.wellFormed [.read, .tstart] = false := by decide
theorem test_rdbyte_not_in_program : Program.wellFormed [.rdbyte true] = false := by decide
theorem test_wrbyte_not_in_program : Program.wellFormed [.wrbyte 0x03#8] = false := by decide
theorem test_meas_not_in_program : Program.wellFormed [.meas .humidity, .read] = false := by decide
theorem test_tcels_not_in_program : Program.wellFormed [.tcels 6000#16] = false := by decide
theorem test_hpct_not_in_program : Program.wellFormed [.hpct 400#16 6000#16] = false := by decide
theorem test_command_bytes_not_in_program :
    ([.measureTemp, .measureHumi, .statusRegW 0x01#8, .statusRegR, .resetCommand] : List Instr).all
      (fun i => !Program.wellFormed [i]) = true := by decide

/-! ### Decoding, with every code written out from 30_encoding.md R82 and R88 -/

theorem test_decode_measureTemp : decode (.frame 0b00000011#8 0#8) = .ok .measureTemp := by decide
theorem test_decode_measureHumi : decode (.frame 0b00000101#8 0#8) = .ok .measureHumi := by decide
theorem test_decode_statusRegW : decode (.frame 0b00000110#8 0xC3#8) = .ok (.statusRegW 0xC3#8) := by decide
theorem test_decode_statusRegR : decode (.frame 0b00000111#8 0#8) = .ok .statusRegR := by decide
theorem test_decode_resetCommand : decode (.frame 0b00011110#8 0#8) = .ok .resetCommand := by decide
theorem test_decode_read : decode (.host 0b0001#4 0#8) = .ok .read := by decide
theorem test_decode_rdstat : decode (.host 0b0010#4 0#8) = .ok .rdstat := by decide
theorem test_decode_wrstat : decode (.host 0b0011#4 0x01#8) = .ok (.wrstat 0x01#8) := by decide
theorem test_decode_sreset : decode (.host 0b0100#4 0#8) = .ok .sreset := by decide
theorem test_decode_creset : decode (.host 0b0101#4 0#8) = .ok .creset := by decide
theorem test_decode_tstart : decode (.component 0b1000#4 0#8 0#16 0#16) = .ok .tstart := by decide
theorem test_decode_rdbyte : decode (.component 0b1001#4 0xFE#8 0#16 0#16) = .ok (.rdbyte false) := by decide
theorem test_decode_wrbyte : decode (.component 0b1010#4 0x1E#8 0#16 0#16) = .ok (.wrbyte 0x1E#8) := by decide
theorem test_decode_meas : decode (.component 0b1011#4 0x01#8 0#16 0#16) = .ok (.meas .humidity) := by decide
theorem test_decode_tcels : decode (.component 0b1100#4 0#8 6000#16 0#16) = .ok (.tcels 6000#16) := by decide
theorem test_decode_hpct :
    decode (.component 0b1101#4 0#8 400#16 6000#16) = .ok (.hpct 400#16 6000#16) := by decide

/-- B8: reserved operation selects. -/
theorem test_decode_reserved_opsel :
    ([0x0#4, 0x6#4, 0x7#4, 0xE#4, 0xF#4] : List (BitVec 4)).all
      (fun o => decide (decode (.host o 0#8) = .error (.reservedOpsel o))) = true := by decide
/-- B8: internal operations at the host port. -/
theorem test_decode_internal_opsel :
    ([0x8#4, 0x9#4, 0xA#4, 0xB#4, 0xC#4, 0xD#4] : List (BitVec 4)).all
      (fun o => decide (decode (.host o 0#8) = .error (.internalAtHostPort o))) = true := by decide
/-- B8: reserved command bytes. -/
theorem test_decode_reserved_command :
    ([0x00#8, 0x01#8, 0x02#8, 0x04#8, 0x08#8, 0x1F#8, 0x23#8, 0xFF#8] : List Byte).all
      (fun b => decide (decode (.frame b 0#8) = .error (.reservedCommand b))) = true := by decide
/-- The words of spec/opcode_table.json at the width the table gives them. -/
theorem test_table_words :
    [decodeTableWord 8 0x03, decodeTableWord 8 0x1E, decodeTableWord 4 0x3, decodeTableWord 4 0x5,
      decodeTableWord 4 0xB, decodeTableWord 4 0xD, decodeTableWord 4 0x0] =
    [some .measureTemp, some .resetCommand, some (.wrstat 0#8), some .creset, some (.meas .temperature),
      some (.hpct 0#16 0#16), none] := by decide

/-- B8: result assembly. -/
theorem test_assemble_raw :
    [assembleRaw 0x17#8 0x70#8, assembleRaw 0x01#8 0x90#8, assembleRaw 0xFF#8 0xFF#8, assembleRaw 0x80#8 0x00#8] =
      [6000#16, 400#16, 65535#16, 32768#16] := by decide

/-! ### Transport (B1) -/

/-- B1.1. -/
theorem test_tstart_wires : after .tstart State.reset wires = some tsWires := by decide
/-- B1.1 as Line Driver calls. -/
theorem test_tstart_calls : after .tstart State.reset (fun t => (calls t).filter fun c => match c with
      | .delayMicroseconds _ => false
      | _ => true) =
    some [.setDataAsInput, .setClockHigh, .setDataLow, .setDataAsOutput, .setClockLow, .setClockHigh,
      .setDataAsInput, .setClockLow] := by decide
/-- B1.2. -/
theorem test_wrbyte_wires : after (.wrbyte 0x03#8) (withScript [false]) wires = some
    (pulse .out0 ++ pulse .out0 ++ pulse .out0 ++ pulse .out0 ++ pulse .out0 ++ pulse .out0 ++ pulse .out1 ++
      pulse .out1 ++ [.wire .low .z] ++ sampled false) := by decide
/-- B1.3. -/
theorem test_wrbyte_writeError : after (.wrbyte 0x1E#8) (withScript [true]) (fun t => (t.res, counts t)) =
    some (.code .writeError, [27, 0, 1]) := by decide
/-- B1.6. -/
theorem test_rdbyte_ack_wires : after (.rdbyte true) (withScript (answers [1, 0, 1, 0, 0, 1, 0, 1]))
    (fun t => (t.res, wires t)) = some (.byte 0xA5#8,
      [.wire .low .z] ++ sampled true ++ sampled false ++ sampled true ++ sampled false ++ sampled false ++
        sampled true ++ sampled false ++ sampled true ++ pulse .out0 ++ [.wire .low .z]) := by decide
/-- B1.7. -/
theorem test_rdbyte_nack : after (.rdbyte false) (withScript (answers [0, 0, 1, 1, 1, 1, 0, 0]))
    (fun t => (t.res, counts t)) = some (.byte 0x3C#8, [19, 0, 8]) := by decide
/-- B1.10. -/
theorem test_creset_wires : after .creset State.reset wires = some
    ([.wire .low .z] ++ (List.replicate 9 [WireEvent.wire .high .z, .wire .low .z]).flatten ++ tsWires) := by decide
/-- P3 line 2: the result, and the data registers and the last-error slot as before. -/
theorem test_creset_keeps : after .creset { State.reset with seq := .failed, lastErr := .timeout, rawT := 7#16 }
    (fun t => (t.res, t.seq, t.lastErr, t.rawT)) = some (.code .ok, .done, .timeout, 7#16) := by decide

/-! ### Sequencer (B2) -/

/-- B2.1. -/
theorem test_meas_temperature : after (.meas .temperature)
    (withScript (answers [0, 1, 1, 0] ++ bitsMsb 0x17#8 ++ bitsMsb 0x70#8 ++ bitsMsb 0x5A#8))
    (fun t => (t.res, seqTrace t, counts t)) = some (.okRaw 6000#16,
      [.idle, .transmissionStarted, .commandSent, .measuring, .awaitingByte, .done], [96, 3, 28]) := by
  decide +kernel
/-- B2.2. -/
theorem test_meas_timeout : after (.meas .humidity) (withScript ([false] ++ List.replicate 240 true))
    (fun t => (t.res, t.seq, counts t)) = some (.code .timeout, .failed, [35, 240, 241]) := by decide +kernel
/-- B2.4. -/
theorem test_measureTemp_writeError : after .measureTemp (withScript [true])
    (fun t => (t.res, t.seq, counts t)) = some (.code .writeError, .failed, [34, 0, 1]) := by decide
/-- B2.3. -/
theorem test_measureHumi_last_poll : after .measureHumi (withScript ([false] ++ List.replicate 239 true ++
      [false] ++ bitsMsb 0x01#8 ++ bitsMsb 0x90#8 ++ bitsMsb 0x00#8)) (fun t => (t.res, t.seq, counts t)) =
    some (.okRaw 400#16, .done, [96, 240, 265]) := by decide +kernel
/-- B2.6. -/
theorem test_rdstat_ok : after .rdstat (withScript ([false] ++ bitsMsb 0x00#8 ++ bitsMsb 0x75#8))
    (fun t => (t.res, t.seq, counts t)) = some (.okStatus 0x00#8 0x75#8, .done, [74, 0, 17]) := by decide
/-- B2.7. -/
theorem test_statusRegR_writeError : after .statusRegR (withScript [true]) (fun t => (t.res, t.seq, counts t)) =
    some (.code .writeError, .failed, [34, 0, 1]) := by decide
/-- B2.8 and the whole-frame trace of section B1. -/
theorem test_wrstat_wires : after (.wrstat 0x01#8) (withScript [false, false])
    (fun t => (t.res, wires t)) = some (.code .ok,
      tsWires ++ ([Drive.out0, .out0, .out0, .out0, .out0, .out1, .out1, .out0].flatMap pulse) ++
        [.wire .low .z] ++ sampled false ++
        ([Drive.out0, .out0, .out0, .out0, .out0, .out0, .out0, .out1].flatMap pulse) ++
        [.wire .low .z] ++ sampled false) := by decide
/-- B2.9. -/
theorem test_wrstat_value_refused : after (.wrstat 0x01#8) (withScript [false, true])
    (fun t => (t.res, t.seq, counts t)) = some (.code .writeError, .failed, [61, 0, 2]) := by decide
/-- B2.10. -/
theorem test_statusRegW_command_refused : after (.statusRegW 0x01#8) (withScript [true])
    (fun t => (t.res, t.seq, counts t)) = some (.code .writeError, .failed, [34, 0, 1]) := by decide
/-- P4 line 1. -/
theorem test_sreset_writeError : after .sreset (withScript [true]) (fun t => (t.res, t.seq, counts t, t.lastErr)) =
    some (.code .writeError, .failed, [53, 0, 1], .ok) := by decide
/-- B2.11 and the trace of P4. -/
theorem test_resetCommand_wires : after .resetCommand (withScript [false]) (fun t => (t.res, wires t)) =
    some (.code .ok,
      [.wire .low .z] ++ (List.replicate 9 [WireEvent.wire .high .z, .wire .low .z]).flatten ++ tsWires ++
        ([Drive.out0, .out0, .out0, .out1, .out1, .out1, .out1, .out0].flatMap pulse) ++
        [.wire .low .z] ++ sampled false) := by decide

/-! ### The compound read -/

/-- The script of P2. -/
def goodReading : List Bool :=
  answers [0, 1, 1, 0] ++ bitsMsb 0x17#8 ++ bitsMsb 0x70#8 ++ bitsMsb 0x5A#8 ++
    answers [0, 1, 0] ++ bitsMsb 0x01#8 ++ bitsMsb 0x90#8 ++ bitsMsb 0xA7#8

/-- P2: the returned pair is (20.0, 11.5), with the bits of B6. -/
theorem test_read_good : after .read (withScript goodReading)
    (fun t => ([t.rawT, t.t10, t.rawH, t.h10], t.lastErr, t.seq, t.res, counts t)) =
    some ([6000#16, 200#16, 400#16, 115#16], .ok, .done,
      .readings (.b64 0x4034000000000000#64) (.b64 0x4027000000000000#64), [192, 5, 55]) := by decide +kernel
/-- P5 line 2 under `FAIL_RAW = zero`: -400 and 547 (B7). -/
theorem test_read_failed_temperature : after .read
    { withScript ([false] ++ List.replicate 240 true ++ answers [0, 0] ++ bitsMsb 0x07#8 ++ bitsMsb 0xD0#8 ++
      bitsMsb 0x00#8) with params := ⟨.b64, .zero, true⟩, rawT := 6000#16 }
    (fun t => (t.rawT, t.t10.toInt, t.h10, t.lastErr, t.seq)) =
    some (0#16, -400, 547#16, .timeout, .done) := by decide +kernel

/-! ### Calibration (B3, B4, B6) -/

/-- A1: 20.0. -/
theorem test_tcels_example : after (.tcels 6000#16) State.reset (fun t => t.calOut) =
    some (.number (.b64 0x4034000000000000#64)) := by decide +kernel
/-- B3, row 1470 under `Q`: -25.3 exactly. -/
theorem test_tcels_exact : after (.tcels 1470#16) { State.reset with params := ⟨.q, .any, true⟩ }
    (fun t => t.calOut) = some (.number (.q (-253 / 10))) := by decide +kernel
/-- A2, B4: 11.541999999999998. -/
theorem test_hpct_example : after (.hpct 400#16 6000#16) State.reset (fun t => t.calOut) =
    some (.number (.b64 0x402715810624DD2E#64)) := by decide +kernel
/-- B4, row (0, 47500): the low clamp, 0.1. -/
theorem test_hpct_clamped : after (.hpct 0#16 47500#16) State.reset (fun t => t.calOut) =
    some (.number (.b64 0x3FB999999999999A#64)) := by decide +kernel
/-- B3: rows on which the two settings differ, and the ends. -/
theorem test_temperature_tenths :
    [tempTenths .b64 1470#16, tempTenths .q 1470#16, tempTenths .b64 3990#16, tempTenths .b64 3991#16,
      tempTenths .b64 65535#16] = [-252, -253, -1, 0, 6153] := by decide +kernel
/-- B5: two pairs on which the settings differ. -/
theorem test_humidity_tenths :
    [humiTenths .b64 250#16 0#16, humiTenths .q 250#16 0#16, humiTenths .b64 3000#16 6460#16,
      humiTenths .q 3000#16 6460#16] = [39, 40, 921, 922] := by decide +kernel
/-- B6. -/
theorem test_tenths_to_number :
    [tenthsToNumber .b64 (-1), tenthsToNumber .b64 253, tenthsToNumber .b64 6153, tenthsToNumber .q 253] =
      [.b64 0xBFB999999999999A#64, .b64 0x40394CCCCCCCCCCD#64, .b64 0x40833A6666666666#64, .q (253 / 10)] := by
  decide +kernel

/-! ### Reset and refusals -/

/-- B9 and R41. -/
theorem test_res_before_first_operation : hostRead .res State.reset = .fault .resReadBeforeWritten := rfl
/-- P7. -/
theorem test_refused_requests :
    [refusal (step { State.reset with requests := [.host 0x0#4 0#8] }),
      refusal (step { State.reset with requests := [.host 0x9#4 0x01#8] })] =
    [some (.reservedOpsel 0x0#4), some (.internalAtHostPort 0x9#4)] := by decide
/-- R100: a start state with the clock High. -/
theorem test_tstart_clock_high :
    refusal (exec .tstart { State.reset with clk := .high }) = some .clockHigh := by decide
/-- R90: a reserved command directly after a transmission start. -/
theorem test_reserved_command_after_start :
    after .tstart State.reset (fun t => refusal (exec (.wrbyte 0x23#8) t)) =
      some (some (.reservedCommand 0x23#8)) := by decide
/-- R90, R102: after a transmission start and a byte read, `write_byte` takes any byte. -/
theorem test_reserved_byte_after_read :
    after .tstart (withScript (answers [0, 0, 0, 0, 0, 0, 0, 0, 1])) (fun t =>
      after (.rdbyte false) t fun u => after (.wrbyte 0x23#8) u fun v => v.res) =
    some (some (some (.code .writeError))) := by decide

/-! ### Witnesses: states and operands that meet the hypotheses of the obligations -/

/-- The block is ready at reset: the hypothesis of every statement about an accepted request. -/
theorem witness_ready : Ready State.reset := ⟨rfl, rfl, rfl⟩
theorem witness_ready_script (l : List Bool) : Ready (withScript l) := ⟨rfl, rfl, rfl⟩
/-- Ready after a failure, too. -/
theorem witness_ready_failed : Ready { State.reset with seq := .failed } := ⟨rfl, rfl, rfl⟩
/-- DecodeAndEncodeAgree. -/
theorem witness_decode : (Instr.hpct 400#16 65535#16).wellFormed = true ∧
    decode (.component 0xD#4 0xFF#8 400#16 65535#16) = .ok (.hpct 400#16 65535#16) := by decide
/-- CommandBytesHaveTheirFields; the state of its last clause is `withScript [true]`, ready and with a first
answer of 1 (`witness_ready_script`, `witness_acknowledge`). -/
theorem witness_command_byte : Command.statusRegW.byte.getLsbD 0 = false ∧ Command.statusRegR.byte.getLsbD 0 = true ∧
    Command.ofByte 0x1E#8 = some .reset ∧ Command.ofByte 0x1F#8 = none := by decide

/-- A state in which a request waits at the host port. -/
def asked (opsel : BitVec 4) : State :=
  { State.reset with requests := [.host opsel 0#8] }

/-- ReservedAndBusyRequestsRefused, first clause at 0, 6, 7, 14 and 15. -/
theorem witness_reserved : [0x0#4, 0x6#4, 0x7#4, 0xE#4, 0xF#4].map (fun o => refusal (step (asked o))) =
    [some (.reservedOpsel 0x0#4), some (.reservedOpsel 0x6#4), some (.reservedOpsel 0x7#4),
      some (.reservedOpsel 0xE#4), some (.reservedOpsel 0xF#4)] := by decide
/-- The second clause at 8 and 13. -/
theorem witness_internal : [0x8#4, 0xD#4].map (fun o => refusal (step (asked o))) =
    [some (.internalAtHostPort 0x8#4), some (.internalAtHostPort 0xD#4)] := by decide
/-- The third clause: a busy block. -/
theorem witness_busy : seqIdle ({ asked 0x1#4 with seq := .measuring } : State).seq = false ∧
    refusal (step { asked 0x1#4 with seq := .measuring }) = some .busy := by decide
/-- ReservedCommandBytesRefused: a frame, the byte after a transmission start, the byte elsewhere. -/
theorem witness_reserved_command :
    refusal (step { State.reset with requests := [.frame 0x04#8 0#8] }) = some (.reservedCommand 0x04#8) ∧
    refusal (exec (.wrbyte 0x04#8) { State.reset with commandDue := true }) = some (.reservedCommand 0x04#8) ∧
    after (.wrbyte 0x04#8) (withScript [false]) (fun t => t.res) = some (.code .ok) := by decide
/-- StepRunsDecodedInstruction. -/
theorem witness_step : (asked 0x5#4).requests = [.host 0x5#4 0#8] ∧ decode (.host 0x5#4 0#8) = .ok .creset ∧
    Instr.creset.wellFormed = true := by decide
/-- TableWordRunsAsNextInstruction. -/
theorem witness_table_word : decodeTableWord 8 0x1E = some .resetCommand ∧ decodeTableWord 4 0x3 = some (.wrstat 0#8) := by
  decide
/-- TransmissionStartPattern, ReadByteReturnsTheAnswers, WriteByteChecksTheAcknowledge: the clock is Low, with
a command due and without. -/
theorem witness_clock_low : State.reset.clk = .low ∧
    ({ State.reset with commandDue := true } : State).clk = .low ∧ (Command.ofByte 0x1E#8).isSome = true := by decide
/-- Both outcomes of the acknowledge. -/
theorem witness_acknowledge : upcoming (withScript [true]) 0 = true ∧ upcoming (withScript [false]) 0 = false := by
  decide
/-- PrimitivesNeedTheClockLow, both cases of its last clause. -/
theorem witness_clock_high : ({ State.reset with clk := .high } : State).clk = .high ∧
    refusal (exec (.wrbyte 0xFF#8) { State.reset with clk := .high }) = some .clockHigh ∧
    refusal (exec (.wrbyte 0x03#8) { State.reset with clk := .high, commandDue := true }) = some .clockHigh := by
  decide
/-- RequestsRunExactlyWhenReady: idle with the wires not idle. -/
theorem witness_wires_not_idle : acceptsRequest .read = true ∧
    refusal (exec .read { State.reset with ddrv := .out1 }) = some .busNotIdle ∧
    refusal (exec .read { State.reset with clk := .high }) = some .busNotIdle := by decide
/-- MeasurementFollowsTheAnswers and the rest about a measurement: the three instructions that are one. -/
theorem witness_measures : measures (.meas .humidity) = some .humidity ∧ measures .measureTemp = some .temperature ∧
    measures .measureHumi = some .humidity := by decide
/-- MeasurementTimesOut. -/
theorem witness_timeout : upcoming (withScript ([false] ++ List.replicate 240 true)) 0 = false ∧
    ∀ j, j < 240 → upcoming (withScript ([false] ++ List.replicate 240 true)) (1 + j) = true := by decide +kernel
/-- MeasurementReturnsBothBytes, ready at the first poll. -/
theorem witness_first_poll : upcoming (withScript [false, false]) 0 = false ∧
    (∀ j, 1 ≤ j → j < 1 → upcoming (withScript [false, false]) j = true) ∧
    upcoming (withScript [false, false]) 1 = false := ⟨rfl, fun j h1 h2 => by omega, rfl⟩
/-- MeasurementReturnsBothBytes, ready at the last poll. -/
theorem witness_last_poll : upcoming (withScript ([false] ++ List.replicate 239 true ++ [false])) 0 = false ∧
    (∀ j, j < 240 → 1 ≤ j → upcoming (withScript ([false] ++ List.replicate 239 true ++ [false])) j = true) ∧
    upcoming (withScript ([false] ++ List.replicate 239 true ++ [false])) 240 = false := by decide +kernel

/-- A full frame with a checksum byte. -/
def frameScript (checksum : Byte) : List Bool :=
  answers [0, 0] ++ bitsMsb 0x17#8 ++ bitsMsb 0x70#8 ++ bitsMsb checksum

/-- ChecksumDoesNotReachTheResult: two checksums after the same 18 answers. -/
theorem witness_checksum : (stageAt (withScript (frameScript 0x5A#8)) 0).code = .ok ∧
    (∀ j, j < 18 → upcoming (withScript (frameScript 0xA5#8)) j = upcoming (withScript (frameScript 0x5A#8)) j) ∧
    (stageAt (withScript (frameScript 0x5A#8)) 0).used = 26 ∧
    (after (.meas .temperature) (withScript (frameScript 0x5A#8)) (fun t => t.res) = some (.okRaw 6000#16)) ∧
    (after (.meas .temperature) (withScript (frameScript 0xA5#8)) (fun t => t.res) = some (.okRaw 6000#16)) := by
  decide +kernel
/-- StatusRegisterRead, StatusRegisterWrite, SoftReset: every clause's answers, over the instructions. -/
theorem witness_status :
    after .rdstat (withScript ([false] ++ bitsMsb 0x01#8 ++ bitsMsb 0xC3#8)) (fun t => t.res) =
      some (.okStatus 0x01#8 0xC3#8) ∧
    after .statusRegR (withScript [true]) (fun t => t.seq) = some .failed ∧
    after (.wrstat 0xFF#8) (withScript [false, true]) (fun t => t.seq) = some .failed ∧
    after (.statusRegW 0x00#8) (withScript [false, false]) (fun t => t.seq) = some .done ∧
    after (.statusRegW 0x00#8) (withScript [true]) (fun t => t.seq) = some .failed ∧
    after .sreset (withScript [false]) (fun t => t.seq) = some .done ∧
    after .resetCommand (withScript [true]) (fun t => t.seq) = some .failed := by decide
/-- LastErrorSlot, the stages of its first clause (humidity fails), and FailedHumidityStage; with both stages
failing in `witness_both_fail`. -/
theorem witness_humidity_fails : (stageAt (withScript (frameScript 0#8 ++ [true])) 0).code = .ok ∧
    (stageAt (withScript (frameScript 0#8 ++ [true])) 26).code = .writeError := by decide +kernel
theorem witness_both_fail : (stageAt (withScript [true, true]) 0).code = .writeError ∧
    (stageAt (withScript [true, true]) 1).code = .writeError ∧
    after .read { withScript [true, true] with params := ⟨.b64, .zero, true⟩ }
      (fun t => (t.rawH, t.h10, decide (t.rawT.toNat ≤ 47500))) = some (0#16, 1#16, true) := by decide +kernel
/-- The second clause of LastErrorSlot (only the temperature fails); also FailedTemperatureStage, under each setting. -/
theorem witness_temperature_fails : (stageAt (withScript ([true] ++ frameScript 0#8)) 0).code = .writeError ∧
    (stageAt (withScript ([true] ++ frameScript 0#8)) 1).code = .ok ∧
    ({ withScript ([true] ++ frameScript 0#8) with params := ⟨.q, .zero, true⟩ } : State).params.failRaw = .zero ∧
    ({ withScript ([true] ++ frameScript 0#8) with params := ⟨.q, .stale, true⟩ } : State).params.failRaw = .stale ∧
    (withScript ([true] ++ frameScript 0#8)).params.failRaw = .any := by decide +kernel
/-- Its third clause (both succeed), and the hypotheses of GoodReadKeepsWhatWasSent. -/
theorem witness_good_read :
    (stageAt (withScript (frameScript 0#8 ++ frameScript 0#8)) 0).code = .ok ∧
    (stageAt (withScript (frameScript 0#8 ++ frameScript 0#8)) 26).code = .ok ∧
    upcoming (withScript (frameScript 0#8 ++ frameScript 0#8)) 0 = false ∧
    upcoming (withScript (frameScript 0#8 ++ frameScript 0#8)) 1 = false ∧
    upcoming (withScript (frameScript 0#8 ++ frameScript 0#8)) 26 = false ∧
    upcoming (withScript (frameScript 0#8 ++ frameScript 0#8)) 27 = false := by decide +kernel
/-- The frame statements and ResultCodesByOperation, DelayCounts, BusOperationsEndWithIdleWires,
OnlyReadWritesTheDataRegisters: an instruction with a next state that is neither `READ` nor a calibration
function, and one that stores nothing. -/
theorem witness_next_state : (∃ t, exec .creset State.reset = .next t) ∧ Instr.creset ≠ .read ∧
    (∃ t, exec (.tcels 0#16) State.reset = .next t) := ⟨⟨_, rfl⟩, by decide, ⟨_, rfl⟩⟩
/-- HumidityStages: one operand pair for each of its three clauses. -/
theorem witness_clamp : rhMax .b64 < rhTrue .b64 3400#16 6500#16 ∧ rhTrue .b64 101#16 6500#16 < rhMin .b64 ∧
    rhMin .b64 ≤ rhTrue .b64 102#16 6500#16 ∧ rhTrue .b64 102#16 6500#16 ≤ rhMax .b64 := by decide +kernel
/-- HumidityIncreasesExactly at the end of its range, and TenthsRanges at the ends of its zero interval. -/
theorem witness_increase : (6304#16).toNat = (6303#16).toNat + 1 ∧ (6303#16).toNat ≤ 6303 ∧
    rhTrue .q 6303#16 0#16 < rhTrue .q 6304#16 0#16 ∧ tempTenths .b64 3991#16 = 0 ∧ tempTenths .b64 4009#16 = 0 ∧
    tempTenths .b64 16383#16 = 1238 := by decide +kernel
/-- RoundingIsToNearest, a tie: half way between 2^53 and the next number, 2^53 + 2. -/
theorem witness_tie : roundB64 (2 ^ 53 + 1) = 2 ^ 53 ∧ roundB64 (2 ^ 53 + 3) = 2 ^ 53 + 4 ∧
    |((2 ^ 53 + 2 : Rat)) - (2 ^ 53 + 1)| = |(2 ^ 53 : Rat) - (2 ^ 53 + 1)| := by
  refine ⟨by decide +kernel, by decide +kernel, by norm_num⟩
/-- RoundingIsToNearest, RoundingKeepsRepresentables, BitsStandForTheNumber: a number that is not
representable, one that is, and a small one. -/
theorem witness_b64 : |(1 / 10 : Rat)| < 2 ^ 1000 ∧ roundB64 (1 / 10) ≠ 1 / 10 ∧ roundB64 (-3 / 4) = -3 / 4 ∧
    unpackB64 (packB64 (roundB64 (1 / 10))) = roundB64 (1 / 10) := by
  have h : (1 / 10 : Rat) < 2 ^ 1000 :=
    lt_of_lt_of_le (by norm_num : (1 / 10 : Rat) < 1) (one_le_pow₀ (by norm_num))
  refine ⟨by rwa [abs_of_pos (by norm_num)], by decide +kernel, by decide +kernel, by decide +kernel⟩
theorem witness_isB64 : IsB64 (-3 / 4) := ⟨3, -2, by norm_num, by norm_num, by norm_num, .inr (by decide +kernel)⟩
/-- EveryStepLeavesTheBlockReady, CallsDriveThePins, SamplesOnlyWhileReleased, StepsHappenInRequestOrder: a
state with a request, which steps. -/
theorem witness_step_invariants : Inv (asked 0x5#4) ∧ PinsAgree (asked 0x5#4) ∧
    samplesReleased .z (asked 0x5#4).log.reverse = true ∧ ∃ t, step (asked 0x5#4) = .next t :=
  ⟨⟨⟨rfl, rfl, rfl⟩, by decide, by decide, by decide, by decide⟩, ⟨rfl, rfl⟩, rfl, ⟨_, rfl⟩⟩
/-- EveryStepLeavesTheBlockReady, its clauses about `H10`: a `READ` waits, and a reading is already there. -/
theorem witness_step_read : Inv { asked 0x1#4 with t10 := BitVec.ofInt 16 (-400), h10 := 1000#16 } ∧
    (∃ t, step { asked 0x1#4 with t10 := BitVec.ofInt 16 (-400), h10 := 1000#16 } = .next t) ∧
    decode (.host 0x1#4 0#8) = .ok .read :=
  ⟨⟨⟨rfl, rfl, rfl⟩, by decide, by decide, by decide, by decide⟩, ⟨_, rfl⟩, rfl⟩
/-- DataStableWhileClockHigh, the pieces of a connection reset: a piece, the transmission start, a piece. -/
theorem witness_pieces : drivesLowOutsideStarts .low
      [[.seq .idle, .rel] ++ (List.replicate 9 [Event.clkHi, .clkLo]).flatten, tsEvents,
        [.seq .transmissionStarted, .seq .done]] = true ∧
    drivesOnlyWhileLow .low tsEvents = false ∧ transmissionStarts .creset = 1 := by decide
/-- DataStableWhileClockHigh. -/
theorem witness_byte_written : ∃ t, exec (.wrbyte 0xA5#8) (withScript [false]) = .next t ∧
    Adds (withScript [false]) t (writeEvents 0xA5#8 false) := ⟨_, rfl, rfl⟩
/-- OnlyPublicOperationsAtTheHostPort, at the last public code, and a well-formed program. -/
theorem witness_public : decode (.host 0x5#4 0xFF#8) = .ok .creset ∧ Program.wellFormed [.wrstat 0x01#8, .rdstat] = true ∧
    Program.requests [.wrstat 0x01#8, .rdstat] = [.host 0x3#4 0x01#8, .host 0x2#4 0#8] := by decide
/-- FailureEndsTheOperation: both failures and a success, and OnlyWriteByteCanFail's failing byte. -/
theorem witness_failures : isSequencerOp (.meas .humidity) = true ∧ isSequencerOp .sreset = true ∧
    after (.meas .humidity) (withScript ([false] ++ List.replicate 240 true)) (fun t => t.res) =
      some (.code .timeout) ∧
    after .sreset (withScript [true]) (fun t => t.res) = some (.code .writeError) ∧
    after .sreset (withScript [false]) (fun t => t.res) = some (.code .ok) ∧
    after (.wrbyte 0x00#8) (withScript [true]) (fun t => t.res) = some (.code .writeError) := by decide +kernel
/-- TenthsRoundTowardZero: a value on each side of zero, and SettingsDifferOnListedTemperatures: a raw value
in the list and one outside it. -/
theorem witness_tenths : 0 ≤ mulNum .q (1 / 4) (ten .q) ∧ mulNum .q (-1 / 4) (ten .q) ≤ 0 ∧
    (1470#16).toNat ∈ differingTemperatures ∧ (6000#16).toNat ∉ differingTemperatures := by decide +kernel
/-- TemperatureSign on each side of 4000. -/
theorem witness_sign : temperatureCelsius .b64 3999#16 < 0 ∧ temperatureCelsius .b64 4000#16 = 0 ∧
    ¬ temperatureCelsius .b64 4001#16 < 0 := by decide +kernel
/-- HostReads: idle with a result and without one, and busy. -/
theorem witness_host_reads : seqIdle State.reset.seq = true ∧ State.reset.resWritten = false ∧
    ({ State.reset with resWritten := true } : State).resWritten = true ∧
    seqIdle ({ State.reset with seq := .awaitingByte } : State).seq = false ∧ HostReg.res ≠ .seq := by decide
/-- SampleIsTheSensorsAnswer. -/
theorem witness_released : State.reset.ddrv = .z := rfl

end Sys2Proof.Tests
end

/-! # Proofs about the state of the block (10_state.md)

First the ranges of the stored readings (42_calibration.md R149), then what one instruction can do to the state,
said once (`exec_ran`), then the statements. -/

namespace Sys2Proof.Machine

/-! ### The ranges of the tenths

Every operation of the temperature's formula keeps the order, so its tenths are bounded by their values at the
two ends of the raw range; the humidity's are bounded by the tenths of the two clamps. -/

theorem truncRat_neg (x : Rat) : truncRat (-x) = -truncRat x :=
  Int.neg_tdiv x.num x.den

theorem truncRat_of_nonneg {x : Rat} (hx : 0 ≤ x) : truncRat x = ⌊x⌋ := by
  rw [Rat.floor_def']
  exact Int.tdiv_eq_ediv_of_nonneg (Rat.num_nonneg.mpr hx)

theorem truncRat_nonneg {x : Rat} (hx : 0 ≤ x) : 0 ≤ truncRat x := by
  rw [truncRat_of_nonneg hx]
  exact Int.floor_nonneg.mpr hx

/-- Truncation toward zero keeps the order. -/
theorem truncRat_mono {x y : Rat} (h : x ≤ y) : truncRat x ≤ truncRat y := by
  rcases le_total 0 x with hx | hx
  · rw [truncRat_of_nonneg hx, truncRat_of_nonneg (hx.trans h)]
    exact Int.floor_le_floor h
  have hx' := truncRat_nonneg (neg_nonneg.mpr hx)
  rcases le_total 0 y with hy | hy
  · have hy' := truncRat_nonneg hy
    rw [truncRat_neg] at hx'
    omega
  · have hneg : truncRat (-y) ≤ truncRat (-x) := by
      rw [truncRat_of_nonneg (neg_nonneg.mpr hy), truncRat_of_nonneg (neg_nonneg.mpr hx)]
      exact Int.floor_le_floor (neg_le_neg h)
    rw [truncRat_neg, truncRat_neg] at hneg
    omega

theorem literal_mono (n : Numerics) {x y : Rat} (h : x ≤ y) : literal n x ≤ literal n y :=
  roundNum_mono n h

theorem literal_nonneg (n : Numerics) {x : Rat} (hx : 0 ≤ x) : 0 ≤ literal n x := by
  have h0 : literal n 0 = 0 := by cases n <;> rfl
  rw [← h0]
  exact literal_mono n hx

theorem mulNum_mono_left (n : Numerics) {x y z : Rat} (hz : 0 ≤ z) (h : x ≤ y) : mulNum n x z ≤ mulNum n y z :=
  roundNum_mono n (mul_le_mul_of_nonneg_right h hz)

/-- The tenths keep the order of the values (42_calibration.md R147). -/
theorem tenths_mono (n : Numerics) {x y : Rat} (h : x ≤ y) : tenths n x ≤ tenths n y :=
  truncRat_mono (mulNum_mono_left n (literal_nonneg n (by norm_num)) h)

/-- The temperature keeps the order of the raw values (42_calibration.md R142). -/
theorem temperatureCelsius_mono (n : Numerics) {a b : U16} (h : a.toNat ≤ b.toNat) :
    temperatureCelsius n a ≤ temperatureCelsius n b := by
  have hab : ofU16 a ≤ ofU16 b := Nat.cast_le.mpr h
  have hmul : mulNum n (ofU16 a) (tScale n) ≤ mulNum n (ofU16 b) (tScale n) :=
    mulNum_mono_left n (literal_nonneg n (by norm_num)) hab
  exact roundNum_mono n (sub_le_sub_right hmul _)

theorem tempTenths_mono (n : Numerics) {a b : U16} (h : a.toNat ≤ b.toNat) : tempTenths n a ≤ tempTenths n b :=
  tenths_mono n (temperatureCelsius_mono n h)

theorem tempTenths_min (n : Numerics) : tempTenths n 0#16 = -400 := by
  cases n <;> decide +kernel

theorem tempTenths_max (n : Numerics) : tempTenths n 65535#16 = 6153 := by
  cases n <;> decide +kernel

/-- The range of the temperature's tenths under both settings (42_calibration.md R149). -/
theorem tempTenths_range (n : Numerics) (raw : U16) : -400 ≤ tempTenths n raw ∧ tempTenths n raw ≤ 6153 := by
  have hlow := tempTenths_mono n (a := 0#16) (b := raw) (Nat.zero_le _)
  have hhigh := tempTenths_mono n (a := raw) (b := 65535#16) (Nat.le_of_lt_succ raw.isLt)
  rw [tempTenths_min] at hlow
  rw [tempTenths_max] at hhigh
  exact ⟨hlow, hhigh⟩

theorem tenths_rhMin (n : Numerics) : tenths n (rhMin n) = 1 := by
  cases n <;> decide +kernel

theorem tenths_rhMax (n : Numerics) : tenths n (rhMax n) = 1000 := by
  cases n <;> decide +kernel

/-- The clamp stays in its closed interval (42_calibration.md R145). -/
theorem clampRh_range (n : Numerics) (rh : Rat) : rhMin n ≤ clampRh n rh ∧ clampRh n rh ≤ rhMax n := by
  have hends : rhMin n ≤ rhMax n := literal_mono n (by norm_num)
  unfold clampRh
  split
  · exact ⟨hends, le_rfl⟩
  · next hmax =>
    split
    · exact ⟨le_rfl, hends⟩
    · next hmin => exact ⟨not_lt.mp hmin, not_lt.mp hmax⟩

/-- The range of the humidity's tenths under both settings (42_calibration.md R149). -/
theorem humiTenths_range (n : Numerics) (rawHumi rawTemp : U16) :
    1 ≤ humiTenths n rawHumi rawTemp ∧ humiTenths n rawHumi rawTemp ≤ 1000 := by
  obtain ⟨hlow, hhigh⟩ := clampRh_range n (rhTrue n rawHumi rawTemp)
  rw [← tenths_rhMin n, ← tenths_rhMax n]
  exact ⟨tenths_mono n hlow, tenths_mono n hhigh⟩

/-! ### What an instruction does to the state -/

@[simp] theorem seqIdle_seqOfCode (c : Code) : seqIdle (seqOfCode c) = true := by
  cases c <;> rfl

theorem stageAt_polls_le (s : State) (k : Nat) : (stageAt s k).polls ≤ 240 := by
  rcases stageAt_cases s k with ⟨-, hg⟩ | ⟨-, -, hg⟩ | ⟨j, -, hj, -, -, hg⟩ <;> rw [hg]
  · exact Nat.zero_le _
  · exact hj

/-- A measurement keeps the poll counter in its range (10_state.md R20). -/
theorem measured_pollcnt_le (kind : Kind) {s : State} (h : s.pollcnt ≤ 240) :
    (measured kind s).pollcnt ≤ 240 := by
  change (if (stageAt s 0).code = .writeError then s.pollcnt else (stageAt s 0).polls) ≤ 240
  split
  · exact h
  · exact stageAt_polls_le s 0

/-- What every bus operation but `read` leaves: idle wires and a result (10_state.md R25, R30), an idle `SEQ` if it
was idle (R22), the counters in their ranges (R20), and everything it does not own. -/
structure BusLeaves (s t : State) : Prop extends KeepsRest s t where
  ends : EndsWith t.res t
  idle : seqIdle s.seq = true → seqIdle t.seq = true
  bitcnt : s.bitcnt ≤ 9 → t.bitcnt ≤ 9
  pollcnt : s.pollcnt ≤ 240 → t.pollcnt ≤ 240

/-- The fields a bus operation writes, at any values it can give them. -/
theorem busLeaves_update {s : State} {q : Seq} {sr : Byte} {b p n : Nat} {r : Result} {due : Bool}
    {script : List Bool} {log : List Event} (hq : seqIdle s.seq = true → seqIdle q = true)
    (hb : s.bitcnt ≤ 9 → b ≤ 9) (hp : s.pollcnt ≤ 240 → p ≤ 240) :
    BusLeaves s { s with
      seq := q, clk := .low, ddrv := .z, sr := sr, bitcnt := b, pollcnt := p, res := r, resWritten := true,
      commandDue := due, sensor := script, samples := n, log := log } where
  toKeepsRest := ⟨⟨rfl, rfl, rfl, rfl, rfl⟩, rfl, rfl, rfl, rfl⟩
  ends := ⟨rfl, rfl, rfl, rfl⟩
  idle := hq
  bitcnt := hb
  pollcnt := hp

theorem runMeasure_leaves (kind : Kind) (s : State) : BusLeaves s (runMeasure kind s) := by
  simp only [runMeasure, measure_eq]
  exact busLeaves_update (fun _ => seqIdle_seqOfCode _) (fun _ => Nat.le_succ 8) (measured_pollcnt_le kind)

theorem runReadStatus_leaves (s : State) : BusLeaves s (runReadStatus s) := by
  cases h : upcoming s 0 with
  | false =>
    simp only [runReadStatus, readStatusRegister_ok h]
    exact busLeaves_update (fun _ => rfl) (fun _ => Nat.le_succ 8) id
  | true =>
    simp only [runReadStatus, readStatusRegister_refused h]
    exact busLeaves_update (fun _ => rfl) (fun _ => Nat.le_succ 8) id

theorem runWriteStatus_leaves (v : Byte) (s : State) : BusLeaves s (runWriteStatus v s) := by
  cases h : upcoming s 0 with
  | false =>
    simp only [runWriteStatus, writeStatusRegister_sent v h]
    exact busLeaves_update (fun _ => seqIdle_seqOfCode _) (fun _ => Nat.le_succ 8) id
  | true =>
    simp only [runWriteStatus, writeStatusRegister_refused v h]
    exact busLeaves_update (fun _ => rfl) (fun _ => Nat.le_succ 8) id

theorem runSoftReset_leaves (s : State) : BusLeaves s (runSoftReset s) := by
  simp only [runSoftReset, softReset_eq]
  exact busLeaves_update (fun _ => seqIdle_seqOfCode _) (fun _ => Nat.le_succ 8) id

theorem resetDone_leaves (s : State) : BusLeaves s (resetDone s) :=
  busLeaves_update (fun _ => rfl) (fun _ => le_rfl) id

theorem byteRead_leaves (sendAck : Bool) (s : State) : BusLeaves s (byteRead sendAck s) :=
  busLeaves_update id (fun _ => Nat.le_succ 8) id

theorem byteWritten_leaves (v : Byte) (s : State) : BusLeaves s (byteWritten v s) :=
  busLeaves_update id (fun _ => Nat.le_succ 8) id

theorem started_leaves (s : State) : BusLeaves s (started s) :=
  busLeaves_update id id id

/-- How an instruction got from one state to another: the compound read, a calibration function, or a bus
operation. -/
inductive Ran : Instr → State → State → Prop where
  | read (s : State) : Ran .read s (runRead s)
  | tcels (raw : U16) (s : State) (out : Result) : Ran (.tcels raw) s { s with calOut := out }
  | hpct (rawHumi rawTemp : U16) (s : State) (out : Result) : Ran (.hpct rawHumi rawTemp) s { s with calOut := out }
  | bus {i : Instr} {s t : State} (hread : i ≠ .read) (leaves : BusLeaves s t) : Ran i s t

theorem ran_of_accept {i : Instr} {s t : State} {run : State → State} (hrun : Ran i s (run s))
    (h : accept s run = .next t) : Ran i s t := by
  rw [accept_next] at h
  exact h.2 ▸ hrun

theorem ran_of_withClockLow {i : Instr} {s t : State} {run : State → State} (hrun : Ran i s (run s))
    (h : withClockLow s run = .next t) : Ran i s t := by
  rw [withClockLow_next] at h
  exact h.2 ▸ hrun

/-- Every next state of `exec` is one of these. -/
theorem exec_ran {i : Instr} {s t : State} (h : exec i s = .next t) : Ran i s t := by
  cases i with
  | measureTemp => exact ran_of_accept (.bus nofun (runMeasure_leaves _ s)) h
  | measureHumi => exact ran_of_accept (.bus nofun (runMeasure_leaves _ s)) h
  | statusRegW v => exact ran_of_accept (.bus nofun (runWriteStatus_leaves v s)) h
  | statusRegR => exact ran_of_accept (.bus nofun (runReadStatus_leaves s)) h
  | resetCommand => exact ran_of_accept (.bus nofun (runSoftReset_leaves s)) h
  | read => exact ran_of_accept (.read s) h
  | rdstat => exact ran_of_accept (.bus nofun (runReadStatus_leaves s)) h
  | wrstat v => exact ran_of_accept (.bus nofun (runWriteStatus_leaves v s)) h
  | sreset => exact ran_of_accept (.bus nofun (runSoftReset_leaves s)) h
  | creset =>
    rw [exec_creset] at h
    exact ran_of_accept (.bus nofun (resetDone_leaves s)) h
  | tstart => exact ran_of_withClockLow (.bus nofun (started_leaves s)) h
  | rdbyte a =>
    rw [exec_rdbyte] at h
    exact ran_of_withClockLow (.bus nofun (byteRead_leaves a s)) h
  | wrbyte v =>
    obtain ⟨-, -, rfl⟩ := exec_wrbyte_next.mp h
    exact .bus nofun (byteWritten_leaves v s)
  | meas k => exact ran_of_accept (.bus nofun (runMeasure_leaves k s)) h
  | tcels raw =>
    rw [exec_tcels] at h
    injection h with h
    exact h ▸ .tcels raw s _
  | hpct rawHumi rawTemp =>
    rw [exec_hpct] at h
    injection h with h
    exact h ▸ .hpct rawHumi rawTemp s _

/-- What is accepted as a request runs by `accept` and by nothing else (10_state.md R22). -/
theorem exec_accepts {i : Instr} (h : acceptsRequest i = true) : ∃ run, ∀ s, exec i s = accept s run := by
  cases i with
  | measureTemp => exact ⟨_, exec_measureTemp⟩
  | measureHumi => exact ⟨_, exec_measureHumi⟩
  | statusRegW v => exact ⟨_, exec_statusRegW v⟩
  | statusRegR => exact ⟨_, exec_statusRegR⟩
  | resetCommand => exact ⟨_, exec_resetCommand⟩
  | read => exact ⟨_, exec_read⟩
  | rdstat => exact ⟨_, exec_rdstat⟩
  | wrstat v => exact ⟨_, exec_wrstat v⟩
  | sreset => exact ⟨_, exec_sreset⟩
  | creset => exact ⟨_, exec_creset⟩
  | meas k => exact ⟨_, exec_meas k⟩
  | tstart => cases h
  | rdbyte a => cases h
  | wrbyte v => cases h
  | tcels raw => cases h
  | hpct rawHumi rawTemp => cases h

/-! ### The compound read -/

/-- The tenths of a temperature fit the 16 signed bits of `T10` (10_state.md R28). -/
theorem ofInt_tempTenths_range (n : Numerics) (raw : U16) :
    -400 ≤ (BitVec.ofInt 16 (tempTenths n raw)).toInt ∧ (BitVec.ofInt 16 (tempTenths n raw)).toInt ≤ 6153 := by
  obtain ⟨hlow, hhigh⟩ := tempTenths_range n raw
  rw [BitVec.toInt_ofInt_eq_self (by decide) (by omega) (by omega)]
  exact ⟨hlow, hhigh⟩

/-- The tenths of a humidity fit the 16 unsigned bits of `H10` (10_state.md R28). -/
theorem ofInt_humiTenths_range (n : Numerics) (rawHumi rawTemp : U16) :
    1 ≤ (BitVec.ofInt 16 (humiTenths n rawHumi rawTemp)).toNat ∧
      (BitVec.ofInt 16 (humiTenths n rawHumi rawTemp)).toNat ≤ 1000 := by
  obtain ⟨hlow, hhigh⟩ := humiTenths_range n rawHumi rawTemp
  rw [BitVec.toNat_ofInt]
  omega

theorem runRead_h10_range (s : State) : 1 ≤ (runRead s).h10.toNat ∧ (runRead s).h10.toNat ≤ 1000 := by
  rw [(runRead_leaves s).h10]
  exact ofInt_humiTenths_range _ _ _

theorem runRead_t10_range (s : State) : -400 ≤ (runRead s).t10.toInt ∧ (runRead s).t10.toInt ≤ 6153 := by
  rw [(runRead_leaves s).t10]
  exact ofInt_tempTenths_range _ _

theorem readTemperature_pollcnt_le {s : State} (h : s.pollcnt ≤ 240) : (readTemperature s).2.pollcnt ≤ 240 := by
  rw [readTemperature_eq]
  exact measured_pollcnt_le .temperature h

theorem readHumidity_pollcnt_le {s : State} (h : s.pollcnt ≤ 240) : (readHumidity s).2.pollcnt ≤ 240 := by
  rw [readHumidity_eq]
  exact measured_pollcnt_le .humidity h

theorem runRead_pollcnt_le {s : State} (h : s.pollcnt ≤ 240) : (runRead s).pollcnt ≤ 240 := by
  have ht := readTemperature_pollcnt_le (s := writeSeq .idle s) h
  simp only [runRead, finish_pollcnt]
  exact readHumidity_pollcnt_le ht

theorem runRead_inv {s : State} (h : Inv s) : Inv (runRead s) :=
  have hr := runRead_leaves s
  { seq := by rw [hr.seq]; exact seqIdle_seqOfCode _
    clk := hr.clk
    ddrv := hr.ddrv
    bitcnt := by rw [hr.bitcnt]; decide
    pollcnt := runRead_pollcnt_le h.pollcnt
    t10 := runRead_t10_range s
    h10 := (runRead_h10_range s).2 }

/-! ### The invariant -/

theorem busLeaves_inv {s t : State} (hb : BusLeaves s t) (h : Inv s) : Inv t where
  seq := hb.idle h.seq
  clk := hb.ends.clk
  ddrv := hb.ends.ddrv
  bitcnt := hb.bitcnt h.bitcnt
  pollcnt := hb.pollcnt h.pollcnt
  t10 := by rw [hb.t10]; exact h.t10
  h10 := by rw [hb.h10]; exact h.h10

/-- Writing the output of a calibration function changes nothing the invariant speaks of. -/
theorem calOut_inv {s : State} (out : Result) (h : Inv s) : Inv { s with calOut := out } :=
  ⟨⟨h.seq, h.clk, h.ddrv⟩, h.bitcnt, h.pollcnt, h.t10, h.h10⟩

/-- Taking a request from the queue changes nothing the invariant speaks of. -/
theorem requests_inv {s : State} (rest : List Request) (h : Inv s) : Inv { s with requests := rest } :=
  ⟨⟨h.seq, h.clk, h.ddrv⟩, h.bitcnt, h.pollcnt, h.t10, h.h10⟩

theorem ran_inv {i : Instr} {s t : State} (hran : Ran i s t) (h : Inv s) : Inv t := by
  cases hran with
  | read => exact runRead_inv h
  | tcels _ _ out => exact calOut_inv out h
  | hpct _ _ _ out => exact calOut_inv out h
  | bus _ leaves => exact busLeaves_inv leaves h

/-- `H10` stays at 1 or more once it is there, and a `READ` puts it there. -/
theorem ran_h10_pos {i : Instr} {s t : State} (hran : Ran i s t) (h : 1 ≤ s.h10.toNat ∨ i = .read) :
    1 ≤ t.h10.toNat := by
  cases hran with
  | read => exact (runRead_h10_range s).1
  | tcels => exact h.resolve_right nofun
  | hpct => exact h.resolve_right nofun
  | bus hread leaves =>
    rw [leaves.h10]
    exact h.resolve_right hread

/-- What a step can do: nothing without a request, else the instruction of the first one. -/
theorem step_ran {s t : State} (h : step s = .next t) :
    (s.requests = [] ∧ t = s) ∨
      ∃ r rest i, s.requests = r :: rest ∧ decode r = .ok i ∧ Ran i { s with requests := rest } t := by
  unfold step at h
  split at h
  · next hnil =>
    injection h with h
    exact .inl ⟨hnil, h.symm⟩
  · next r rest hcons =>
    split at h
    · next i hi => exact .inr ⟨r, rest, i, hcons, hi, exec_ran h⟩
    · cases h

/-! ### The statements -/

/-- Settles O49: every way a step can go keeps the invariant, and the one that writes `H10` writes at least 1. -/
theorem everyStepLeavesTheBlockReady : Obligations.EveryStepLeavesTheBlockReady := by
  intro s t hs hstep
  rcases step_ran hstep with ⟨hnil, rfl⟩ | ⟨r, rest, i, hcons, hi, hran⟩
  · refine ⟨hs, id, fun r rest hcons _ => ?_⟩
    rw [hnil] at hcons
    cases hcons
  · refine ⟨ran_inv hran (requests_inv rest hs), fun h => ran_h10_pos hran (.inl h), ?_⟩
    intro r' rest' hcons' hread
    rw [hcons] at hcons'
    injection hcons' with hr _
    rw [hr, hread] at hi
    injection hi with hi
    exact ran_h10_pos hran (.inr hi.symm)

/-- Settles O18: what is accepted as a request runs by `accept`, whose three outcomes the clauses name. -/
theorem requestsRunExactlyWhenReady : Obligations.RequestsRunExactlyWhenReady := by
  intro i s hi
  obtain ⟨run, hrun⟩ := exec_accepts hi
  rw [hrun]
  refine ⟨⟨?_, fun hready => ⟨_, accept_ready hready run⟩⟩, fun hbusy => accept_busy hbusy run,
    fun hidle hwires => accept_busNotIdle hidle ?_ run⟩
  · rintro ⟨t, ht⟩
    exact (accept_next.mp ht).1
  · simpa [wiresIdle] using hwires

/-- Settles O33, by the ways an instruction can run. -/
theorem onlyReadWritesTheDataRegisters : Obligations.OnlyReadWritesTheDataRegisters := by
  intro i s t h
  cases exec_ran h with
  | read => exact ⟨fun hne => absurd rfl hne, (runRead_leaves s).params, (runRead_leaves s).requests⟩
  | tcels => exact ⟨fun _ => ⟨⟨rfl, rfl, rfl, rfl, rfl⟩, rfl⟩, rfl, rfl⟩
  | hpct => exact ⟨fun _ => ⟨⟨rfl, rfl, rfl, rfl, rfl⟩, rfl⟩, rfl, rfl⟩
  | bus _ leaves => exact ⟨fun _ => ⟨leaves.toKeepsData, leaves.rawDraws⟩, leaves.params, leaves.requests⟩

/-- Settles O51, by the ways an instruction can run. -/
theorem busOperationsEndWithIdleWires : Obligations.BusOperationsEndWithIdleWires := by
  intro i s t h htcels hhpct
  cases exec_ran h with
  | read => exact ⟨(runRead_leaves s).clk, (runRead_leaves s).ddrv⟩
  | tcels raw => exact absurd rfl (htcels raw)
  | hpct rawHumi rawTemp => exact absurd rfl (hhpct rawHumi rawTemp)
  | bus _ leaves => exact ⟨leaves.ends.clk, leaves.ends.ddrv⟩

/-- Settles O10: the fields of the reset state. -/
theorem powerOnReset : Obligations.PowerOnReset :=
  ⟨rfl, rfl, rfl, rfl, rfl, rfl, rfl, rfl⟩

theorem inv_reset : Inv State.reset :=
  ⟨⟨rfl, rfl, rfl⟩, by decide, by decide, by decide, by decide⟩

/-- Settles O50: the trace at reset is empty. -/
theorem resetMeetsTheInvariants : Obligations.ResetMeetsTheInvariants :=
  ⟨inv_reset, ⟨rfl, rfl⟩, rfl⟩

/-- Settles O58: the register read and the state of `SEQ` decide the answer, for `RES` the flag of R41 too. -/
theorem hostReads : Obligations.HostReads := by
  intro s
  refine ⟨rfl, fun hidle => ?_, fun hbusy r hr => ?_⟩
  · exact ⟨if_pos hidle, if_pos hidle, if_pos hidle, if_pos hidle, if_pos hidle,
      fun hended => (if_pos hidle).trans (if_pos hended),
      fun hnone => (if_pos hidle).trans (if_neg (by simp [hnone]))⟩
  · cases r with
    | seq => exact absurd rfl hr
    | _ => simp [hostRead, hbusy]

end Sys2Proof.Machine

/-! # Proofs about the wires and the trace (20_memory.md)

What a step adds to the trace and how the added events move the wires is said once (`step_leads`); how the events of
an instruction fall into transmission starts and steady pieces is said once (`traceOf_cut`). -/

namespace Sys2Proof.Machine

/-! ### The trace and the wires -/

/-- What an operation adds to the trace is determined by its end states. -/
theorem Adds.unique {s t : State} {es es' : List Event} (h : Adds s t es) (h' : Adds s t es') : es = es' :=
  List.reverse_injective (List.append_cancel_right (h.symm.trans h'))

/-- The trace, oldest event first, after an operation. -/
theorem Adds.log_reverse {s t : State} {es : List Event} (h : Adds s t es) : t.log.reverse = s.log.reverse ++ es := by
  rw [h, List.reverse_append, List.reverse_reverse]

/-- The pins agree exactly when the events of the trace lead the idle wires to those of the state (10_state.md R24). -/
theorem pinsAgree_iff (s : State) : PinsAgree s ↔ wiresAfter (.low, .z) s.log.reverse = (s.clk, s.ddrv) := by
  have hpins := callPins_wires s.log.reverse Pins.reset
  rw [show (Pins.reset.clk, Pins.reset.drive) = (Level.low, Drive.z) from rfl] at hpins
  rw [← hpins, Prod.mk.injEq]
  rfl

/-- From `s` to `t` the trace grew by `es`: events that start with the clock Low, take the wires of `s` to those of
`t`, and sample only while the data pin is released. -/
structure Leads (s t : State) (es : List Event) : Prop where
  adds : Adds s t es
  start : es ≠ [] → s.clk = .low
  wires : wiresAfter (s.clk, s.ddrv) es = (t.clk, t.ddrv)
  samples : samplesReleased s.ddrv es = true

/-- An operation that adds no event leads on if it leaves the wires alone. -/
theorem leads_nil {s t : State} (hlog : t.log = s.log) (hclk : t.clk = s.clk) (hddrv : t.ddrv = s.ddrv) :
    Leads s t [] :=
  ⟨hlog, fun hne => absurd rfl hne, by rw [hclk, hddrv]; rfl, rfl⟩

/-- Quiet events lead from idle wires to idle wires. -/
theorem Quiet.leads {s t : State} {es : List Event} (hq : Quiet es) (hadds : Adds s t es) (hclk : s.clk = .low)
    (hddrv : s.ddrv = .z) (hend : t.clk = .low ∧ t.ddrv = .z) : Leads s t es :=
  ⟨hadds, fun _ => hclk, by rw [hclk, hddrv, hend.1, hend.2, hq.wires], by rw [hddrv, hq.samples]⟩

/-- The transport primitives set the data pin first, so they need only the clock Low (40_transport.md R100 to
R102). -/
theorem started_leads {s : State} (hclk : s.clk = .low) : Leads s (started s) tsEvents :=
  ⟨rfl, fun _ => hclk, by rw [hclk]; rfl, rfl⟩

theorem byteRead_leads (sendAck : Bool) {s : State} (hclk : s.clk = .low) :
    Leads s (byteRead sendAck s) (readEvents sendAck (byteOf (upcoming s))) := by
  cases sendAck <;> exact ⟨rfl, fun _ => hclk, by rw [hclk]; rfl, rfl⟩

theorem byteWritten_leads (v : Byte) {s : State} (hclk : s.clk = .low) :
    Leads s (byteWritten v s) (writeEvents v (upcoming s 0)) :=
  ⟨rfl, fun _ => hclk, by rw [hclk]; rfl, rfl⟩

/-- The events of every instruction that runs lead from its start to its end: a request starts from idle wires, a
primitive sets the data pin first, a calibration function adds nothing. -/
theorem exec_leads {i : Instr} {s t : State} (h : exec i s = .next t) : Leads s t (traceOf i s) := by
  cases ha : acceptsRequest i with
  | true =>
    obtain ⟨-, hclk, hddrv⟩ := (requestsRunExactlyWhenReady i s ha).1.mp ⟨t, h⟩
    have hend : t.clk = .low ∧ t.ddrv = .z :=
      busOperationsEndWithIdleWires i s t h (by rintro raw rfl; cases ha) (by rintro rawHumi rawTemp rfl; cases ha)
    exact (traceOf_quiet i s).leads (exec_adds h) hclk hddrv hend
  | false =>
    cases i with
    | tstart =>
      rw [exec_tstart] at h
      obtain ⟨hclk, rfl⟩ := withClockLow_next.mp h
      exact started_leads hclk
    | rdbyte sendAck =>
      rw [exec_rdbyte] at h
      obtain ⟨hclk, rfl⟩ := withClockLow_next.mp h
      exact byteRead_leads sendAck hclk
    | wrbyte v =>
      obtain ⟨-, hclk, rfl⟩ := exec_wrbyte_next.mp h
      exact byteWritten_leads v hclk
    | tcels raw =>
      rw [exec_tcels] at h
      injection h with h
      exact h ▸ leads_nil rfl rfl rfl
    | hpct rawHumi rawTemp =>
      rw [exec_hpct] at h
      injection h with h
      exact h ▸ leads_nil rfl rfl rfl
    | _ => cases ha

/-! ### One step -/

/-- The first request that decodes runs as its instruction, on the state without it (20_memory.md R65). -/
theorem step_cons {s : State} {r : Request} {rest : List Request} {i : Instr} (hreq : s.requests = r :: rest)
    (hi : decode r = .ok i) : step s = exec i { s with requests := rest } := by
  simp only [step, hreq, hi]

/-- A step with a next state found no request, or executed the first one. -/
theorem step_next {s t : State} (h : step s = .next t) :
    (s.requests = [] ∧ t = s) ∨
      ∃ r rest i, s.requests = r :: rest ∧ decode r = .ok i ∧ exec i { s with requests := rest } = .next t := by
  rcases step_ran h with hnone | ⟨r, rest, i, hreq, hi, -⟩
  · exact .inl hnone
  · exact .inr ⟨r, rest, i, hreq, hi, step_cons hreq hi ▸ h⟩

theorem step_leads {s t : State} (h : step s = .next t) : ∃ es, Leads s t es := by
  rcases step_next h with ⟨-, rfl⟩ | ⟨r, rest, i, -, -, hexec⟩
  · exact ⟨[], leads_nil rfl rfl rfl⟩
  · obtain ⟨hadds, hstart, hwires, hsamples⟩ := exec_leads hexec
    exact ⟨_, hadds, hstart, hwires, hsamples⟩

/-! ### Cutting a trace at its transmission starts -/

/-- Events that fall into `n` transmission starts and steady pieces. -/
def Cut (n : Nat) (es : List Event) : Prop :=
  ∃ pieces : List (List Event), pieces.flatten = es ∧ pieces.countP (fun p => decide (p = tsEvents)) = n ∧
    ∀ p ∈ pieces, p = tsEvents ∨ Steady p

theorem not_steady_ts : ¬ Steady tsEvents :=
  fun h => absurd h.drives (by decide)

theorem cut_nil : Cut 0 [] :=
  ⟨[], rfl, rfl, nofun⟩

theorem cut_ts : Cut 1 tsEvents :=
  ⟨[tsEvents], by simp, by simp, by simp⟩

/-- No events hold no transmission start. -/
theorem Cut.eq_zero_of_nil {n : Nat} (h : Cut n []) : n = 0 := by
  obtain ⟨pieces, hflat, rfl, -⟩ := h
  refine List.countP_eq_zero.mpr fun p hp => ?_
  rw [List.flatten_eq_nil_iff.mp hflat p hp]
  decide

theorem Steady.cut {es : List Event} (h : Steady es) : Cut 0 es := by
  have hne : es ≠ tsEvents := fun heq => not_steady_ts (heq ▸ h)
  exact ⟨[es], by simp, by simp [hne], by simp [h]⟩

theorem Cut.append {m n : Nat} {l l' : List Event} (h : Cut m l) (h' : Cut n l') : Cut (m + n) (l ++ l') := by
  obtain ⟨ps, rfl, rfl, hps⟩ := h
  obtain ⟨qs, rfl, rfl, hqs⟩ := h'
  exact ⟨ps ++ qs, List.flatten_append, List.countP_append, fun p hp => (List.mem_append.mp hp).elim (hps p) (hqs p)⟩

/-- Steady events after a cut trace add no transmission start. -/
theorem Cut.steady {n : Nat} {l m : List Event} (h : Cut n l) (hm : Steady m) : Cut n (l ++ m) :=
  h.append hm.cut

theorem cut_cr : Cut 1 crEvents :=
  steady_pulses.cut.append cut_ts

/-- The head of a frame, up to the acknowledge slot of its command byte (41_sequencer.md R121 steps 1 and 2). -/
theorem cut_head (command : Byte) (ack : Bool) :
    Cut 1 ([.seq .idle] ++ tsEvents ++ [.seq .transmissionStarted] ++ writeEvents command ack) :=
  (((steady_seq _).cut.append cut_ts).steady (steady_seq _)).steady (steady_write _ _)

theorem cut_measure (kind : Kind) (s : State) (k : Nat) : Cut 1 (measureEvents kind s k) := by
  have hpoll : Steady [.seq .commandSent, .rel, .seq .measuring] := ⟨rfl, rfl⟩
  have hlow : Steady [.waitMs, .smp false] := ⟨rfl, rfl⟩
  refine (cut_head _ _).steady ?_
  cases (stageAt s k).code with
  | ok =>
    exact ((((hpoll.append (steady_highPolls _)).append hlow).append (steady_seq _)).append
      (steady_raw _ _)).append (steady_seq _)
  | writeError => exact steady_seq _
  | timeout => exact (hpoll.append (steady_highPolls _)).append (steady_seq _)

theorem cut_statusRead (s : State) : Cut 1 (statusReadEvents s) := by
  have hmid : Steady [.seq .commandSent, .seq .awaitingByte] := ⟨rfl, rfl⟩
  unfold statusReadEvents
  split
  · exact (cut_head _ _).steady (steady_seq _)
  · exact ((((cut_head _ _).steady hmid).steady (steady_read _ _)).steady (steady_read _ _)).steady (steady_seq _)

theorem cut_statusWrite (v : Byte) (s : State) : Cut 1 (statusWriteEvents v s) := by
  unfold statusWriteEvents
  split
  · exact (cut_head _ _).steady (steady_seq _)
  · exact (((cut_head _ _).steady (steady_seq _)).steady (steady_write _ _)).steady (steady_seq _)

theorem cut_softReset (s : State) : Cut 1 (softResetEvents s) := by
  refine ((((steady_seq _).cut.append cut_cr).steady (steady_seq _)).steady (steady_write _ _)).steady ?_
  split
  · exact steady_seq _
  · exact ⟨rfl, rfl⟩

theorem cut_compoundRead (s : State) : Cut 2 (compoundReadEvents s) :=
  ((steady_seq _).cut.append (cut_measure _ _ _)).append (cut_measure _ _ _)

/-- The events of every instruction can be cut at its transmission starts (20_memory.md R72). -/
theorem traceOf_cut (i : Instr) (s : State) : Cut (transmissionStarts i) (traceOf i s) := by
  cases i with
  | measureTemp => exact cut_measure _ _ _
  | measureHumi => exact cut_measure _ _ _
  | statusRegW v => exact cut_statusWrite _ _
  | statusRegR => exact cut_statusRead _
  | resetCommand => exact cut_softReset _
  | read => exact cut_compoundRead _
  | rdstat => exact cut_statusRead _
  | wrstat v => exact cut_statusWrite _ _
  | sreset => exact cut_softReset _
  | creset => exact ((steady_seq _).cut.append cut_cr).steady ⟨rfl, rfl⟩
  | tstart => exact cut_ts
  | rdbyte a => exact (steady_read _ _).cut
  | wrbyte v => exact (steady_write _ _).cut
  | meas k => exact cut_measure _ _ _
  | tcels raw => exact cut_nil
  | hpct rawHumi rawTemp => exact cut_nil

/-- From a Low clock, transmission starts and steady pieces keep the rule of 20_memory.md R72. -/
theorem drivesLowOutsideStarts_of_steady {pieces : List (List Event)} (h : ∀ p ∈ pieces, p = tsEvents ∨ Steady p) :
    drivesLowOutsideStarts .low pieces = true := by
  induction pieces with
  | nil => rfl
  | cons p ps ih =>
    have hps := ih fun q hq => h q (List.mem_cons_of_mem p hq)
    rcases h p List.mem_cons_self with rfl | hp
    · simp [drivesLowOutsideStarts, clockAfter_ts, hps]
    · simp [drivesLowOutsideStarts, hp.drives, hp.clock, hps]

/-- Events that issue `REL` and `DRV` only while the clock is Low do not change the drive while it is High, whatever
the drive was (20_memory.md R72). -/
theorem dataStable_of_drivesLow (l : List Event) (c : Level) (d : Drive) (h : drivesOnlyWhileLow c l = true) :
    dataStableWhileHigh c d l = true := by
  induction l generalizing c d with
  | nil => rfl
  | cons e l ih =>
    cases e with
    | rel =>
      obtain ⟨hlow, hl⟩ : c = .low ∧ drivesOnlyWhileLow c l = true := by simpa [drivesOnlyWhileLow] using h
      simp [dataStableWhileHigh, hlow, hlow ▸ ih c .z hl]
    | drv b =>
      obtain ⟨hlow, hl⟩ : c = .low ∧ drivesOnlyWhileLow c l = true := by simpa [drivesOnlyWhileLow] using h
      simp [dataStableWhileHigh, hlow, hlow ▸ ih c (driveOf b) hl]
    | clkHi => exact ih .high d h
    | clkLo => exact ih .low d h
    | smp a => exact ih c d h
    | waitMs => exact ih c d h
    | seq q => exact ih c d h

/-! ### The statements -/

/-- Settles O52: the pins follow the wires, and a step's events lead the wires to those of its end. -/
theorem callsDriveThePins : Obligations.CallsDriveThePins := by
  intro s t hs hstep
  obtain ⟨es, hes⟩ := step_leads hstep
  rw [pinsAgree_iff] at hs ⊢
  rw [hes.adds.log_reverse, wiresAfter_append, hs, hes.wires]

/-- Settles O14: a byte read is the next eight answers, a byte written drives its bits, both with bit 7 first. -/
theorem bitsGoMostSignificantFirst : Obligations.BitsGoMostSignificantFirst := by
  constructor
  · intro sendAck s hclk
    refine ⟨byteOf (upcoming s), byteRead sendAck s, ?_, rfl, fun i hi => ?_⟩
    · rw [exec_rdbyte, withClockLow_low hclk]
    · rw [byteOf_getLsbD _ _ (by omega), Nat.sub_sub_self (by omega)]
  · intro v s hclk hdue
    have hbits : drivenBits (writeEvents v (upcoming s 0)) = bitsMsb v := rfl
    refine ⟨byteWritten v s, writeEvents v (upcoming s 0), exec_wrbyte_next.mpr ⟨hdue, hclk, rfl⟩, rfl, rfl, ?_⟩
    intro i hi
    rw [hbits]
    interval_cases i <;> rfl

/-- Settles O53: the events of a step sample only while released, from the drive the trace before it left. -/
theorem samplesOnlyWhileReleased : Obligations.SamplesOnlyWhileReleased := by
  intro s t hpins hs hstep
  obtain ⟨es, hes⟩ := step_leads hstep
  rw [pinsAgree_iff] at hpins
  rw [hes.adds.log_reverse, samplesReleased_append _ _ .low, hpins, hs, hes.samples]
  rfl

/-- Settles O54: the trace of an instruction is cut at its transmission starts, and a byte read or written is one
steady piece. -/
theorem dataStableWhileClockHigh : Obligations.DataStableWhileClockHigh := by
  refine ⟨fun i s t es hi h hadds => ?_, fun i s t es h hadds => ?_, rfl⟩
  · obtain rfl := hadds.unique (exec_adds h)
    have hstart := (exec_leads h).start
    rcases hi with ⟨a, rfl⟩ | ⟨v, rfl⟩
    · rw [hstart (List.cons_ne_nil _ _)]
      exact dataStable_of_drivesLow _ _ _ (steady_read _ _).drives
    · rw [hstart (List.cons_ne_nil _ _)]
      exact dataStable_of_drivesLow _ _ _ (steady_write _ _).drives
  · obtain rfl := hadds.unique (exec_adds h)
    have hcut := traceOf_cut i s
    by_cases hnil : traceOf i s = []
    · rw [hnil] at hcut
      exact ⟨[], hnil.symm, hcut.eq_zero_of_nil.symm, rfl⟩
    · obtain ⟨pieces, hflat, hcount, hpieces⟩ := hcut
      refine ⟨pieces, hflat, hcount, ?_⟩
      rw [(exec_leads h).start hnil]
      exact drivesLowOutsideStarts_of_steady hpieces

/-- Settles O55: what a step adds, and that `exec` changes neither the parameters nor the waiting requests. -/
theorem stepsHappenInRequestOrder : Obligations.StepsHappenInRequestOrder := by
  intro s t hstep
  obtain ⟨es, hes⟩ := step_leads hstep
  refine ⟨⟨es, hes.adds⟩, ?_⟩
  rcases step_next hstep with ⟨hnil, rfl⟩ | ⟨r, rest, i, hreq, -, hexec⟩
  · exact ⟨by rw [hnil]; rfl, rfl⟩
  · obtain ⟨-, hparams, hrequests⟩ := onlyReadWritesTheDataRegisters i _ t hexec
    exact ⟨by rw [hrequests, hreq]; rfl, hparams⟩

/-- Settles O7: the step of a request that decodes. -/
theorem stepRunsDecodedInstruction : Obligations.StepRunsDecodedInstruction :=
  fun _ _ _ _ hreq hi _ => step_cons hreq hi

/-- Settles O59: with data released the wire is the sensor's. -/
theorem sampleIsTheSensorsAnswer : Obligations.SampleIsTheSensorsAnswer := by
  intro s hz
  refine ⟨sampledLevel_released hz, ⟨List.drop_one.symm, rfl⟩, ?_⟩
  rw [hz]
  cases upcoming s 0 <;> rfl

end Sys2Proof.Machine

/-! # Proofs about the encoding (30_encoding.md)

What decodes is what is encoded, port by port, said once (`decodeHost_ok`, `decodeComponent_ok`, `decodeFrame_ok`);
then what the decoder refuses, how received bytes are put together, the command byte in `SR`, and the checksum byte. -/

namespace Sys2Proof

/-! ### The decoder and the encoder -/

/-- The decoder's match is the whole byte (30_encoding.md R82). -/
theorem Command.ofByte_eq_some_iff {b : Byte} {c : Command} : Command.ofByte b = some c ↔ b = c.byte := by
  constructor
  · intro h
    unfold Command.ofByte at h
    split at h <;> cases h
    all_goals
      rename_i hb
      exact BitVec.eq_of_toNat_eq hb
  · rintro rfl
    cases c <;> rfl

theorem decode_encode (i : Instr) : decode (encode i) = .ok i := by
  cases i with
  | measureTemp => exact Laws.RoundTrip.measureTemp.2
  | measureHumi => exact Laws.RoundTrip.measureHumi.2
  | statusRegW value => exact (Laws.RoundTrip.statusRegW value).2
  | statusRegR => exact Laws.RoundTrip.statusRegR.2
  | resetCommand => exact Laws.RoundTrip.resetCommand.2
  | read => exact Laws.RoundTrip.read.2
  | rdstat => exact Laws.RoundTrip.rdstat.2
  | wrstat value => exact (Laws.RoundTrip.wrstat value).2
  | sreset => exact Laws.RoundTrip.sreset.2
  | creset => exact Laws.RoundTrip.creset.2
  | tstart => exact Laws.RoundTrip.tstart.2
  | rdbyte sendAck => exact (Laws.RoundTrip.rdbyte sendAck).2
  | wrbyte value => exact (Laws.RoundTrip.wrbyte value).2
  | meas kind => exact (Laws.RoundTrip.meas kind).2
  | tcels raw => exact (Laws.RoundTrip.tcels raw).2
  | hpct rawHumi rawTemp => exact (Laws.RoundTrip.hpct rawHumi rawTemp).2

theorem opsel_eq_of_toNat_eq {opsel : BitVec 4} {code : Nat} (h : opsel.toNat = code) :
    opsel = BitVec.ofNat 4 code := by
  rw [← h, BitVec.ofNat_toNat, BitVec.setWidth_eq]

/-- What decodes at the host port is encoded there, with the same code (30_encoding.md R88). -/
theorem decodeHost_ok {opsel : BitVec 4} {arg : Byte} {i : Instr} (h : decodeHost opsel arg = .ok i) :
    ∃ arg', encode i = .host opsel arg' := by
  unfold decodeHost at h
  split at h <;> cases h
  all_goals
    rename_i hcode
    rw [opsel_eq_of_toNat_eq hcode]
    exact ⟨_, rfl⟩

/-- What decodes as an internal operation is encoded as one, with the same code (30_encoding.md R88). -/
theorem decodeComponent_ok {opsel : BitVec 4} {arg : Byte} {opA opB : U16} {i : Instr}
    (h : decodeComponent opsel arg opA opB = .ok i) :
    ∃ arg' opA' opB', encode i = .component opsel arg' opA' opB' := by
  unfold decodeComponent at h
  split at h <;> cases h
  all_goals
    rename_i hcode
    rw [opsel_eq_of_toNat_eq hcode]
    exact ⟨_, _, _, rfl⟩

/-- What decodes as a frame is encoded as one, with the same command byte (30_encoding.md R82). -/
theorem decodeFrame_ok {command value : Byte} {i : Instr} (h : decodeFrame command value = .ok i) :
    ∃ value', encode i = .frame command value' := by
  unfold decodeFrame at h
  split at h <;> cases h
  all_goals
    rename_i hcommand
    rw [Command.ofByte_eq_some_iff.mp hcommand]
    exact ⟨_, rfl⟩

/-- The host port carries public operations only, with the codes 1 to 5 (30_encoding.md R88). -/
theorem encode_host {i : Instr} {opsel : BitVec 4} {arg : Byte} (h : encode i = .host opsel arg) :
    i.visibility = .hostPublic ∧ 1 ≤ opsel.toNat ∧ opsel.toNat ≤ 5 := by
  cases i <;> cases h <;> exact ⟨rfl, by decide, by decide⟩

/-- Every public operation is encoded at the host port (30_encoding.md R88). -/
theorem encode_of_hostPublic {i : Instr} (h : i.visibility = .hostPublic) :
    ∃ opsel arg, encode i = .host opsel arg := by
  cases i <;> cases h <;> exact ⟨_, _, rfl⟩

/-- Settles O2: the round trip of each instruction, and what decodes at each port. -/
theorem decodeAndEncodeAgree : Obligations.DecodeAndEncodeAgree := by
  refine ⟨fun i _ => decode_encode i, fun r i h => ?_⟩
  cases r with
  | host opsel arg =>
    obtain ⟨arg', henc⟩ := decodeHost_ok h
    rw [henc]
    rfl
  | component opsel arg opA opB =>
    obtain ⟨arg', opA', opB', henc⟩ := decodeComponent_ok h
    rw [henc]
    rfl
  | frame command value =>
    obtain ⟨value', henc⟩ := decodeFrame_ok h
    rw [henc]
    rfl

/-! ### What the decoder refuses -/

theorem decodeHost_reserved {opsel : BitVec 4} (arg : Byte)
    (h : opsel.toNat = 0 ∨ opsel.toNat = 6 ∨ opsel.toNat = 7 ∨ opsel.toNat = 14 ∨ opsel.toNat = 15) :
    decodeHost opsel arg = .error (.reservedOpsel opsel) := by
  rcases h with h | h | h | h | h <;> simp only [decodeHost, h]

theorem decodeHost_internal {opsel : BitVec 4} (arg : Byte) (hlow : 8 ≤ opsel.toNat) (hhigh : opsel.toNat ≤ 13) :
    decodeHost opsel arg = .error (.internalAtHostPort opsel) := by
  unfold decodeHost
  interval_cases opsel.toNat <;> rfl

/-- The bytes that are none of the five commands are reserved (30_encoding.md R90). -/
theorem Command.ofByte_eq_none {b : Byte} (hT : b ≠ 0x03#8) (hH : b ≠ 0x05#8) (hW : b ≠ 0x06#8)
    (hR : b ≠ 0x07#8) (hreset : b ≠ 0x1E#8) : Command.ofByte b = none := by
  rw [Option.eq_none_iff_forall_not_mem]
  intro c hc
  rw [Option.mem_def, Command.ofByte_eq_some_iff] at hc
  cases c with
  | measureTemp => exact hT hc
  | measureHumi => exact hH hc
  | statusRegW => exact hW hc
  | statusRegR => exact hR hc
  | reset => exact hreset hc

theorem decodeFrame_reserved {command : Byte} (value : Byte) (h : Command.ofByte command = none) :
    decodeFrame command value = .error (.reservedCommand command) := by
  simp only [decodeFrame, h]

end Sys2Proof

namespace Sys2Proof.Machine

/-- A request that decodes to no instruction is refused by name (30_encoding.md R90, R91). -/
theorem step_decode_error {s : State} {r : Request} {rest : List Request} {e : DecodeError}
    (hreq : s.requests = r :: rest) (he : decode r = .error e) : step s = .refused (refusalOf e) := by
  simp only [step, hreq, he]

/-- A public operation is accepted as a request (30_encoding.md R88, R91). -/
theorem acceptsRequest_of_hostPublic {i : Instr} (h : i.visibility = .hostPublic) : acceptsRequest i = true := by
  cases i <;> cases h <;> rfl

/-- A busy block refuses whatever the host asks for (30_encoding.md R91). -/
theorem step_host_busy {s : State} {opsel : BitVec 4} {arg : Byte} {rest : List Request}
    (hreq : s.requests = .host opsel arg :: rest) (hbusy : seqIdle s.seq = false) : ∃ why, step s = .refused why := by
  cases hdec : decodeHost opsel arg with
  | error e => exact ⟨_, step_decode_error hreq hdec⟩
  | ok i =>
    obtain ⟨arg', henc⟩ := decodeHost_ok hdec
    have haccepts := acceptsRequest_of_hostPublic (encode_host henc).1
    obtain ⟨-, hrefused, -⟩ := requestsRunExactlyWhenReady i { s with requests := rest } haccepts
    exact ⟨.busy, (step_cons hreq hdec).trans (hrefused hbusy)⟩

/-- A reserved byte directly after a transmission start is refused (30_encoding.md R90). -/
theorem exec_wrbyte_reserved {s : State} {b : Byte} (hb : Command.ofByte b = none) (hdue : s.commandDue = true) :
    exec (.wrbyte b) s = .refused (.reservedCommand b) := by
  change execWrbyte b s = _
  simp [execWrbyte, hdue, hb]

/-! ### The statements about requests -/

/-- Settles O4: the reserved and the internal codes do not decode, and what decodes is a public operation. -/
theorem reservedAndBusyRequestsRefused : Obligations.ReservedAndBusyRequestsRefused := by
  intro s opsel arg rest hreq
  exact ⟨fun h => step_decode_error hreq (decodeHost_reserved arg h),
    fun h => step_decode_error hreq (decodeHost_internal arg h.1 h.2), step_host_busy hreq⟩

/-- Settles O5: what decodes at the host port is encoded there, and so is every line of a well-formed program. -/
theorem onlyPublicOperationsAtTheHostPort : Obligations.OnlyPublicOperationsAtTheHostPort := by
  refine ⟨fun opsel arg i h => ?_, fun p hp => ⟨?_, fun r hr => ?_⟩⟩
  · obtain ⟨arg', henc⟩ := decodeHost_ok h
    exact encode_host henc
  · rw [Program.requests, List.map_map]
    exact List.map_congr_left fun i _ => decode_encode i
  · obtain ⟨i, hi, rfl⟩ := List.mem_map.mp hr
    have hpublic := List.all_eq_true.mp hp i hi
    rw [Bool.and_eq_true, decide_eq_true_eq] at hpublic
    exact encode_of_hostPublic hpublic.2

/-- Settles O6: a reserved byte is no command for the decoder, nor for `WRBYTE` where one is due. -/
theorem reservedCommandBytesRefused : Obligations.ReservedCommandBytesRefused := by
  intro s b v rest hT hH hW hR hreset
  have hb := Command.ofByte_eq_none hT hH hW hR hreset
  refine ⟨fun hreq => step_decode_error hreq (decodeFrame_reserved v hb), exec_wrbyte_reserved hb,
    fun hdue hclk => ?_⟩
  exact ⟨byteWritten b s, exec_wrbyte_next.mpr ⟨by simp [hdue], hclk, rfl⟩⟩

/-- Settles O1: the ten codes of the table. -/
theorem codesDecodeToTheirInstruction : Obligations.CodesDecodeToTheirInstruction :=
  ⟨rfl, rfl, rfl, rfl, rfl, rfl, rfl, rfl, rfl, rfl⟩

/-- A word from which the table's decoder reads an instruction is a request that decodes to it. -/
theorem decodeTableWord_eq_some {nbits w : Nat} {i : Instr} (h : decodeTableWord nbits w = some i) :
    decode (Request.ofTableWord nbits w) = .ok i := by
  unfold decodeTableWord at h
  split at h
  · next hi => rw [hi, Option.some.inj h]
  · cases h

/-- Settles O8: the word is the first request, and taking it gives the state back. -/
theorem tableWordRunsAsNextInstruction : Obligations.TableWordRunsAsNextInstruction :=
  fun s nbits w _ h => step_cons (s := s.withFetchWord nbits w) rfl (decodeTableWord_eq_some h)

/-! ### Received bytes -/

/-- A byte is what arrives exactly when its bits arrive in the order of the wire (20_memory.md R62). -/
theorem byteOf_eq_iff {f : Nat → Bool} {v : Byte} : byteOf f = v ↔ ∀ i, i < 8 → f i = v.getLsbD (7 - i) := by
  constructor
  · rintro rfl i hi
    rw [byteOf_getLsbD f _ (by omega), Nat.sub_sub_self (by omega)]
  · intro h
    apply BitVec.eq_of_getLsbD_eq
    intro i hi
    rw [byteOf_getLsbD f i hi, h _ (by omega), Nat.sub_sub_self (by omega)]

theorem byteOf_congr {f g : Nat → Bool} (h : ∀ i, i < 8 → f i = g i) : byteOf f = byteOf g :=
  byteOf_eq_iff.mpr fun i hi => (h i hi).trans (byteOf_eq_iff.mp rfl i hi)

theorem assembleRaw_toNat (msb lsb : Byte) : (assembleRaw msb lsb).toNat = msb.toNat * 256 + lsb.toNat := by
  rw [assembleRaw_eq, BitVec.toNat_append, ← Nat.shiftLeft_add_eq_or_of_lt lsb.isLt, Nat.shiftLeft_eq]

theorem assembleRaw_msb (msb lsb : Byte) : (assembleRaw msb lsb).extractLsb 15 8 = msb := by
  have hlsb := lsb.isLt
  apply BitVec.eq_of_toNat_eq
  rw [BitVec.extractLsb_toNat, assembleRaw_toNat, Nat.shiftRight_eq_div_pow]
  omega

theorem assembleRaw_lsb (msb lsb : Byte) : (assembleRaw msb lsb).extractLsb 7 0 = lsb := by
  have hlsb := lsb.isLt
  apply BitVec.eq_of_toNat_eq
  rw [BitVec.extractLsb_toNat, assembleRaw_toNat, Nat.shiftRight_eq_div_pow]
  omega

/-- Every raw value is put together from its two bytes (30_encoding.md R84). -/
theorem assembleRaw_extractLsb (raw : U16) : assembleRaw (raw.extractLsb 15 8) (raw.extractLsb 7 0) = raw := by
  apply BitVec.eq_of_toNat_eq
  rw [assembleRaw_toNat, BitVec.extractLsb_toNat, BitVec.extractLsb_toNat, Nat.shiftRight_eq_div_pow]
  have hraw := raw.isLt
  omega

/-! ### What a measurement and a status read give -/

theorem runMeasure_res (kind : Kind) (s : State) : (runMeasure kind s).res = (stageAt s 0).result := by
  rw [runMeasure, measure_eq, finish_res]

theorem runMeasure_takes (kind : Kind) (s : State) : Takes (stageAt s 0).used s (runMeasure kind s) := by
  rw [runMeasure, measure_eq]
  exact ⟨rfl, rfl⟩

/-- A measurement whose `j`-th poll is the first Low one (41_sequencer.md R121, R122). -/
theorem stageAt_ready {s : State} {k j : Nat} (hack : upcoming s k = false) (hj : j < 240)
    (hhigh : ∀ i, i < j → upcoming s (k + 1 + i) = true) (hlow : upcoming s (k + 1 + j) = false) :
    stageAt s k = ⟨.ok, assembleRaw (byteOf fun i => upcoming s (k + 2 + j + i))
      (byteOf fun i => upcoming s (k + 2 + j + 8 + i)), j + 1, 26 + j⟩ := by
  have hfind : ((List.range 240).find? fun i => !(upcoming s (k + 1 + i))) = some j := by
    rw [List.find?_range_eq_some]
    exact ⟨by rw [hlow]; rfl, List.mem_range.mpr hj, fun i hi => by rw [hhigh i hi]; rfl⟩
  simp only [stageAt, hack, hfind, assembleRaw_eq]
  rfl

/-- A measurement gives a raw value only with code `Ok` (41_sequencer.md R121). -/
theorem code_of_result_okRaw {g : Stage} {raw : U16} (h : g.result = .okRaw raw) : g.code = .ok := by
  unfold Stage.result at h
  split at h
  · assumption
  · cases h
  · cases h

/-- A measurement that is ready at its first poll (41_sequencer.md R121). -/
theorem stageAt_firstPoll {s : State} (hack : upcoming s 0 = false) (hlow : upcoming s 1 = false) :
    stageAt s 0 =
      ⟨.ok, assembleRaw (byteOf fun i => upcoming s (2 + i)) (byteOf fun i => upcoming s (10 + i)), 1, 26⟩ :=
  stageAt_ready (j := 0) hack (by decide) nofun hlow

theorem runMeasure_res_firstPoll (kind : Kind) {s : State} (hack : upcoming s 0 = false) (hlow : upcoming s 1 = false) :
    (runMeasure kind s).res =
      .okRaw (assembleRaw (byteOf fun i => upcoming s (2 + i)) (byteOf fun i => upcoming s (10 + i))) := by
  rw [runMeasure_res, stageAt_firstPoll hack hlow]
  rfl

theorem runReadStatus_res_ok {s : State} (hack : upcoming s 0 = false) :
    (runReadStatus s).res = .okStatus (byteOf fun i => upcoming s (1 + i)) (byteOf fun i => upcoming s (9 + i)) := by
  rw [runReadStatus, readStatusRegister_ok hack, finish_res]

theorem runReadStatus_takes_ok {s : State} (hack : upcoming s 0 = false) : Takes 17 s (runReadStatus s) := by
  rw [runReadStatus, readStatusRegister_ok hack]
  exact ⟨rfl, rfl⟩

/-- A status read gives its bytes only when its command byte is acknowledged (41_sequencer.md R123). -/
theorem acknowledged_of_okStatus {s : State} {status chk : Byte} (h : (runReadStatus s).res = .okStatus status chk) :
    upcoming s 0 = false := by
  rw [← Bool.not_eq_true]
  intro hack
  rw [runReadStatus, readStatusRegister_refused hack, finish_res] at h
  cases h

/-- Settles O24: the two bytes are appended, and the bytes of both frames are the answers. -/
theorem resultAssembly : Obligations.ResultAssembly := by
  refine ⟨fun msb lsb => ⟨assembleRaw_msb msb lsb, assembleRaw_lsb msb lsb, rfl, assembleRaw_toNat msb lsb⟩,
    fun i kind s hi hready hack hlow => ?_, fun s hready hack => ?_⟩
  · refine ⟨runMeasure kind s, ?_, runMeasure_res_firstPoll kind hack hlow⟩
    rw [exec_measures hi, accept_ready hready]
  · refine ⟨runReadStatus s, ?_, runReadStatus_res_ok hack⟩
    rw [exec_rdstat, accept_ready hready]

/-! ### The command byte in the shift register

An operation whose command byte is not acknowledged ends at once and leaves that byte in `SR` (30_encoding.md R82). -/

/-- A measurement whose command byte is not acknowledged leaves that byte in `SR` (41_sequencer.md R121). -/
theorem runMeasure_sr_refused (kind : Kind) {s : State} (h : upcoming s 0 = true) :
    (runMeasure kind s).sr = (commandFor kind).byte := by
  have hstage : (stageAt s 0).code = .writeError := by rw [stageAt, if_pos h]
  rw [runMeasure, measure_eq, finish_sr]
  simp only [measured, stageSr, hstage]

theorem runWriteStatus_sr_refused (value : Byte) {s : State} (h : upcoming s 0 = true) :
    (runWriteStatus value s).sr = Command.statusRegW.byte := by
  rw [runWriteStatus, writeStatusRegister_refused value h]
  rfl

theorem runReadStatus_sr_refused {s : State} (h : upcoming s 0 = true) :
    (runReadStatus s).sr = Command.statusRegR.byte := by
  rw [runReadStatus, readStatusRegister_refused h]
  rfl

theorem runSoftReset_sr (s : State) : (runSoftReset s).sr = Command.reset.byte := by
  rw [runSoftReset, softReset_eq]
  rfl

/-- The fields lie in the command byte as in the table (30_encoding.md R80). -/
theorem command_byte_fields (c : Command) :
    c.byte = 0b000#3 ++ c.cmdField ++ c.rwBit ∧ c.byte.extractLsb 7 5 = 0#3 ∧ c.byte.extractLsb 4 1 = c.cmdField ∧
      c.byte.extractLsb 0 0 = c.rwBit := by
  cases c <;> decide

/-- The low bit of a command says whether the sensor sends bytes (30_encoding.md R81). -/
theorem command_byte_rw (c : Command) :
    c.byte.getLsbD 0 = true ↔ c = .measureTemp ∨ c = .measureHumi ∨ c = .statusRegR := by
  cases c <;> decide

/-- Settles O3: the table by its five rows, and the byte each operation leaves in `SR` when it is not acknowledged. -/
theorem commandBytesHaveTheirFields : Obligations.CommandBytesHaveTheirFields := by
  refine ⟨command_byte_fields, command_byte_rw, rfl, rfl, rfl, rfl, rfl, rfl, rfl, rfl, rfl, rfl,
    fun _ _ => Command.ofByte_eq_some_iff, fun s hready hnack => ?_⟩
  refine ⟨⟨_, accept_ready hready _, runMeasure_sr_refused .temperature hnack⟩,
    ⟨_, accept_ready hready _, runMeasure_sr_refused .humidity hnack⟩,
    fun value => ⟨_, accept_ready hready _, runWriteStatus_sr_refused value hnack⟩,
    ⟨_, accept_ready hready _, runReadStatus_sr_refused hnack⟩,
    ⟨_, accept_ready hready _, runSoftReset_sr s⟩⟩

/-! ### The checksum byte -/

/-- A measurement that succeeds uses 25 answers beside its polls: one acknowledge and three bytes. -/
theorem stageAt_ok_used {s : State} (h : (stageAt s 0).code = .ok) :
    1 ≤ (stageAt s 0).polls ∧ (stageAt s 0).used = (stageAt s 0).polls + 25 := by
  rcases stageAt_cases s 0 with ⟨-, hg⟩ | ⟨-, -, hg⟩ | ⟨j, -, -, -, -, hg⟩ <;> rw [hg] at h ⊢
  · cases h
  · cases h
  · exact ⟨Nat.succ_pos j, by simp only; omega⟩

/-- The answers before the checksum byte decide a measurement that succeeds (30_encoding.md R86). -/
theorem stageAt_ok_congr {s s' : State} (h : (stageAt s 0).code = .ok)
    (hsame : ∀ k, k < (stageAt s 0).polls + 17 → upcoming s' k = upcoming s k) : stageAt s' 0 = stageAt s 0 := by
  rcases stageAt_cases s 0 with ⟨-, hg⟩ | ⟨-, -, hg⟩ | ⟨j, hack, hj, hhigh, hlow, hg⟩ <;>
    rw [hg] at h hsame ⊢
  · cases h
  · cases h
  · have same (k : Nat) (hk : k < j + 18) : upcoming s' k = upcoming s k := hsame k hk
    rw [stageAt_ready ((same _ (by omega)).trans hack) hj
      (fun i hi => (same _ (by omega)).trans (hhigh i hi)) ((same _ (by omega)).trans hlow), assembleRaw_eq,
      byteOf_congr fun i hi => same _ (by omega), byteOf_congr fun i hi => same _ (by omega)]

theorem samplesOf_readEvents (sendAck : Bool) (v : Byte) : samplesOf (readEvents sendAck v) = bitsMsb v := by
  cases sendAck <;> rfl

theorem samplesOf_highPolls (n : Nat) : samplesOf (highPolls n) = List.replicate n true := by
  induction n with
  | zero => rfl
  | succ n ih => exact congrArg (true :: ·) ih

theorem samplesOf_rawEvents (s : State) (b : Nat) :
    samplesOf (rawEvents s b) = bitsMsb (byteOf fun i => upcoming s (b + i)) ++
      bitsMsb (byteOf fun i => upcoming s (b + 8 + i)) ++ bitsMsb (byteOf fun i => upcoming s (b + 16 + i)) := by
  simp only [rawEvents, samplesOf_append, samplesOf_readEvents]

/-- What a measurement that succeeds samples: the acknowledge, its polls, three bytes (41_sequencer.md R121). -/
theorem samplesOf_measureEvents_ok {kind : Kind} {s : State} (h : (stageAt s 0).code = .ok) :
    samplesOf (measureEvents kind s 0) =
      [upcoming s 0] ++ List.replicate ((stageAt s 0).polls - 1) true ++ [false] ++
        samplesOf (rawEvents s (0 + 1 + (stageAt s 0).polls)) := by
  simp only [measureEvents, h, samplesOf_append, samplesOf_highPolls]
  simp [samplesOf, tsEvents, writeEvents, bitsMsb]

/-- The last eight samples of a measurement that succeeds are its checksum byte (30_encoding.md R86). -/
theorem samplesOf_measureEvents_drop {kind : Kind} {s : State} (h : (stageAt s 0).code = .ok) :
    (samplesOf (measureEvents kind s 0)).drop ((stageAt s 0).polls + 17) =
      bitsMsb (byteOf fun i => upcoming s ((stageAt s 0).polls + 17 + i)) := by
  obtain ⟨hpolls, -⟩ := stageAt_ok_used h
  have hindex : 0 + 1 + (stageAt s 0).polls + 16 = (stageAt s 0).polls + 17 := by omega
  rw [samplesOf_measureEvents_ok h, samplesOf_rawEvents, hindex, ← List.append_assoc]
  apply List.drop_left'
  simp only [List.length_append, List.length_replicate, List.length_cons, List.length_nil, bitsMsb]
  omega

/-- The reset state with the sensor's answers. -/
def scripted (script : List Bool) : State :=
  { State.reset with sensor := script }

theorem ready_scripted (script : List Bool) : Ready (scripted script) :=
  ⟨rfl, rfl, rfl⟩

/-- A byte put into the script is the byte that arrives there. -/
theorem byteOf_scripted (pre post : List Bool) (v : Byte) :
    (byteOf fun i => upcoming (scripted (pre ++ (bitsMsb v ++ post))) (pre.length + i)) = v := by
  rw [byteOf_eq_iff]
  intro i hi
  have hbit : (bitsMsb v ++ post)[i]? = some (v.getLsbD (7 - i)) := by
    interval_cases i <;> rfl
  simp only [upcoming, answerAt, scripted, List.getElem?_append_right (Nat.le_add_right _ i), Nat.add_sub_cancel_left,
    hbit]

/-- A measurement reads its checksum byte last and does nothing with it (30_encoding.md R86). -/
theorem measure_ignores_checksum {kind : Kind} {s t : State} {raw : U16} (h : exec (.meas kind) s = .next t)
    (hres : t.res = .okRaw raw) :
    ∃ n es, Takes (n + 8) s t ∧ Adds s t es ∧
      (samplesOf es).drop n = bitsMsb (byteOf fun j => upcoming s (n + j)) ∧
      ∀ s' t' : State, (∀ j, j < n → upcoming s' j = upcoming s j) → exec (.meas kind) s' = .next t' →
        t'.res = t.res ∧ Takes (n + 8) s' t' := by
  rw [exec_meas] at h
  obtain ⟨-, rfl⟩ := accept_next.mp h
  rw [runMeasure_res] at hres
  have hcode := code_of_result_okRaw hres
  have htakes := runMeasure_takes kind s
  rw [(stageAt_ok_used hcode).2] at htakes
  refine ⟨(stageAt s 0).polls + 17, measureEvents kind s 0, htakes, runMeasure_adds kind s,
    samplesOf_measureEvents_drop hcode, fun s' t' hsame h' => ?_⟩
  rw [exec_meas] at h'
  obtain ⟨-, rfl⟩ := accept_next.mp h'
  have hstage := stageAt_ok_congr hcode hsame
  have htakes' := runMeasure_takes kind s'
  rw [hstage, (stageAt_ok_used hcode).2] at htakes'
  exact ⟨by rw [runMeasure_res, runMeasure_res, hstage], htakes'⟩

/-- A status read returns its last byte as it arrived, whatever the status byte (30_encoding.md R86). -/
theorem statusRead_returns_checksum {s t : State} {status chk : Byte} (h : exec .rdstat s = .next t)
    (hres : t.res = .okStatus status chk) :
    ∃ n, Takes (n + 8) s t ∧ chk = byteOf (fun j => upcoming s (n + j)) ∧
      ∀ s' t' : State, (∀ j, j < n → upcoming s' j = upcoming s j) → exec .rdstat s' = .next t' →
        t'.res = .okStatus status (byteOf fun j => upcoming s' (n + j)) ∧ Takes (n + 8) s' t' := by
  rw [exec_rdstat] at h
  obtain ⟨-, rfl⟩ := accept_next.mp h
  have hack := acknowledged_of_okStatus hres
  rw [runReadStatus_res_ok hack] at hres
  injection hres with hstatus hchk
  refine ⟨9, runReadStatus_takes_ok hack, hchk.symm, fun s' t' hsame h' => ?_⟩
  rw [exec_rdstat] at h'
  obtain ⟨-, rfl⟩ := accept_next.mp h'
  have hack' := (hsame 0 (by decide)).trans hack
  refine ⟨?_, runReadStatus_takes_ok hack'⟩
  rw [runReadStatus_res_ok hack', ← hstatus, byteOf_congr fun i hi => hsame (1 + i) (by omega)]

/-- The answers of a measurement that is ready at its first poll. -/
def measureScript (msb lsb chk : Byte) : List Bool :=
  [false, false] ++ bitsMsb msb ++ bitsMsb lsb ++ bitsMsb chk

theorem runMeasure_measureScript (kind : Kind) (msb lsb chk : Byte) :
    (runMeasure kind (scripted (measureScript msb lsb chk))).res = .okRaw (assembleRaw msb lsb) := by
  have hmsb := byteOf_scripted [false, false] (bitsMsb lsb ++ bitsMsb chk) msb
  have hlsb := byteOf_scripted ([false, false] ++ bitsMsb msb) (bitsMsb chk) lsb
  rw [runMeasure_res_firstPoll kind rfl rfl]
  exact congrArg Result.okRaw (congrArg₂ assembleRaw hmsb hlsb)

/-- Every raw value is measured with every checksum byte (30_encoding.md R86). -/
theorem measure_any_checksum (kind : Kind) (raw : U16) (chk : Byte) :
    ∃ s t n, exec (.meas kind) s = .next t ∧ t.res = .okRaw raw ∧ Takes (n + 8) s t ∧
      chk = byteOf fun j => upcoming s (n + j) := by
  refine ⟨scripted (measureScript (raw.extractLsb 15 8) (raw.extractLsb 7 0) chk), _, 18,
    accept_ready (ready_scripted _) _, ?_, ?_, ?_⟩
  · rw [runMeasure_measureScript, assembleRaw_extractLsb]
  · have htakes := runMeasure_takes kind (scripted (measureScript (raw.extractLsb 15 8) (raw.extractLsb 7 0) chk))
    rwa [stageAt_firstPoll rfl rfl] at htakes
  · exact (byteOf_scripted ([false, false] ++ bitsMsb (raw.extractLsb 15 8) ++ bitsMsb (raw.extractLsb 7 0)) []
      chk).symm

/-- Every status byte is returned with every checksum byte (30_encoding.md R86). -/
theorem statusRead_any_pair (status chk : Byte) :
    ∃ s t, exec .rdstat s = .next t ∧ t.res = .okStatus status chk := by
  have hstatus := byteOf_scripted [false] (bitsMsb chk) status
  have hchk := byteOf_scripted ([false] ++ bitsMsb status) [] chk
  refine ⟨scripted ([false] ++ bitsMsb status ++ bitsMsb chk), _, accept_ready (ready_scripted _) _, ?_⟩
  rw [runReadStatus_res_ok rfl]
  exact congrArg₂ Result.okStatus hstatus hchk

/-- Settles O23: the answers before the checksum byte decide the result, and any byte can stand in its place. -/
theorem checksumDoesNotReachTheResult : Obligations.ChecksumDoesNotReachTheResult :=
  ⟨fun _ _ _ _ => measure_ignores_checksum, fun _ _ _ _ => statusRead_returns_checksum, measure_any_checksum,
    statusRead_any_pair⟩

end Sys2Proof.Machine

/-! # Proofs about the transport (40_transport.md)

The three primitives and the connection reset end in the states `started`, `byteRead`, `byteWritten` and `resetDone`;
that the trace of every accepted operation holds a transmission start is said once (`traceOf_holds_start`). -/

namespace Sys2Proof.Machine

/-! ### The transmission start inside an operation -/

/-- A transmission start made by a sequencer operation, with the state of `SEQ` that follows it (41_sequencer.md
R120). -/
def startEvents : List Event :=
  tsEvents ++ [.seq .transmissionStarted]

/-- Events that hold a transmission start hold it whatever follows them. -/
theorem holds_start_append {l : List Event} (h : startEvents <:+: l) (m : List Event) : startEvents <:+: l ++ m :=
  h.trans (List.prefix_append l m).isInfix

theorem idle_holds_start : startEvents <:+: [.seq .idle] ++ tsEvents ++ [.seq .transmissionStarted] :=
  ⟨[.seq .idle], [], rfl⟩

/-- A connection reset ends in its transmission start (40_transport.md R103). -/
theorem idle_cr_holds_start : startEvents <:+: [.seq .idle] ++ crEvents ++ [.seq .transmissionStarted] :=
  ⟨[.seq .idle, .rel] ++ (List.replicate 9 [Event.clkHi, .clkLo]).flatten, [], rfl⟩

theorem measureEvents_holds_start (kind : Kind) (s : State) (k : Nat) : startEvents <:+: measureEvents kind s k :=
  holds_start_append (holds_start_append idle_holds_start _) _

theorem statusReadEvents_holds_start (s : State) : startEvents <:+: statusReadEvents s := by
  have head (ack : Bool) := holds_start_append idle_holds_start (writeEvents 0x07#8 ack)
  unfold statusReadEvents
  split
  · exact holds_start_append (head true) _
  · exact holds_start_append (holds_start_append (holds_start_append (holds_start_append (head false) _) _) _) _

theorem statusWriteEvents_holds_start (v : Byte) (s : State) : startEvents <:+: statusWriteEvents v s := by
  have head (ack : Bool) := holds_start_append idle_holds_start (writeEvents 0x06#8 ack)
  unfold statusWriteEvents
  split
  · exact holds_start_append (head true) _
  · exact holds_start_append (holds_start_append (holds_start_append (head false) _) _) _

theorem softResetEvents_holds_start (s : State) : startEvents <:+: softResetEvents s :=
  holds_start_append (holds_start_append idle_cr_holds_start _) _

theorem compoundReadEvents_holds_start (s : State) : startEvents <:+: compoundReadEvents s :=
  holds_start_append ((measureEvents_holds_start _ _ _).trans (List.suffix_append _ _).isInfix) _

/-- Every operation accepted as a request makes a transmission start (30_encoding.md R94). -/
theorem traceOf_holds_start {i : Instr} (h : acceptsRequest i = true) (s : State) : startEvents <:+: traceOf i s := by
  cases i with
  | measureTemp => exact measureEvents_holds_start _ _ _
  | measureHumi => exact measureEvents_holds_start _ _ _
  | statusRegW v => exact statusWriteEvents_holds_start _ _
  | statusRegR => exact statusReadEvents_holds_start _
  | resetCommand => exact softResetEvents_holds_start _
  | read => exact compoundReadEvents_holds_start _
  | rdstat => exact statusReadEvents_holds_start _
  | wrstat v => exact statusWriteEvents_holds_start _ _
  | sreset => exact softResetEvents_holds_start _
  | creset => exact holds_start_append idle_cr_holds_start [.seq .done]
  | meas k => exact measureEvents_holds_start _ _ _
  | tstart => cases h
  | rdbyte a => cases h
  | wrbyte v => cases h
  | tcels raw => cases h
  | hpct rawHumi rawTemp => cases h

/-! ### The primitives -/

theorem exec_tstart_low {s : State} (hclk : s.clk = .low) : exec .tstart s = .next (started s) := by
  rw [exec_tstart, withClockLow_low hclk]

theorem exec_tstart_high {s : State} (hclk : s.clk = .high) : exec .tstart s = .refused .clockHigh := by
  rw [exec_tstart, withClockLow_high hclk]

theorem exec_rdbyte_low (sendAck : Bool) {s : State} (hclk : s.clk = .low) :
    exec (.rdbyte sendAck) s = .next (byteRead sendAck s) := by
  rw [exec_rdbyte, withClockLow_low hclk]

theorem exec_rdbyte_high (sendAck : Bool) {s : State} (hclk : s.clk = .high) :
    exec (.rdbyte sendAck) s = .refused .clockHigh := by
  rw [exec_rdbyte, withClockLow_high hclk]

theorem exec_creset_ready {s : State} (h : Ready s) : exec .creset s = .next (resetDone s) := by
  rw [exec_creset, accept_ready h]

/-- A byte that may stand where it is still needs the clock Low (40_transport.md R102). -/
theorem exec_wrbyte_high {v : Byte} {s : State} (hdue : s.commandDue = false ∨ (Command.ofByte v).isSome = true)
    (hclk : s.clk = .high) : exec (.wrbyte v) s = .refused .clockHigh := by
  have hmay : (s.commandDue && (Command.ofByte v).isNone) = false := by
    rcases hdue with hdue | hcommand
    · rw [hdue, Bool.false_and]
    · rw [← Option.not_isSome, hcommand, Bool.not_true, Bool.and_false]
  change execWrbyte v s = _
  rw [execWrbyte, hmay, if_neg Bool.false_ne_true, withClockLow_high hclk]

theorem ackCode_writeError {b : Bool} : ackCode b = .writeError ↔ b = true := by
  cases b <;> decide

theorem shortDelays_readEvents (sendAck : Bool) (v : Byte) :
    shortDelays (readEvents sendAck v) = if sendAck then 21 else 19 := by
  cases sendAck <;> rfl

/-- The line actions of a byte read do not depend on what is read (40_transport.md R105). -/
theorem lineActions_readEvents (sendAck : Bool) (v w : Byte) :
    lineActions (readEvents sendAck v) = lineActions (readEvents sendAck w) := by
  cases sendAck <;> rfl

/-! ### The statements -/

/-- Settles O11: `TSTART` ends in `started`, and the trace of every accepted operation holds its pattern. -/
theorem transmissionStartPattern : Obligations.TransmissionStartPattern := by
  refine ⟨fun s hclk => ?_, fun _ => exec_tstart_high, fun i s hi hready => ?_, rfl, rfl⟩
  · have hleaves := started_leaves s
    exact ⟨started s, exec_tstart_low hclk, rfl, by rw [hclk]; rfl, hleaves.ends, hleaves.toKeepsRest, ⟨rfl, rfl⟩,
      rfl, rfl, rfl, rfl, rfl⟩
  · obtain ⟨t, ht⟩ := (requestsRunExactlyWhenReady i s hi).1.mpr hready
    obtain ⟨before, after, htrace⟩ := traceOf_holds_start hi s
    have hadds := exec_adds ht
    rw [← htrace] at hadds
    exact ⟨t, before, after, ht, hadds⟩

/-- Settles O12: `RDBYTE` ends in `byteRead`, whose byte is the next eight answers. -/
theorem readByteReturnsTheAnswers : Obligations.ReadByteReturnsTheAnswers := by
  refine ⟨fun sendAck s hclk => ?_, fun sendAck => by cases sendAck <;> rfl⟩
  have hleaves := byteRead_leaves sendAck s
  exact ⟨byteOf (upcoming s), byteRead sendAck s, exec_rdbyte_low sendAck hclk, byteOf_getLsbD (upcoming s),
    hleaves.ends, rfl, rfl, rfl, rfl, shortDelays_readEvents _ _, ⟨rfl, rfl⟩, hleaves.toKeepsRest, rfl, rfl, rfl⟩

/-- Settles O13: `WRBYTE` ends in `byteWritten`, whose code is that of the next answer. -/
theorem writeByteChecksTheAcknowledge : Obligations.WriteByteChecksTheAcknowledge := by
  refine ⟨fun v s hclk hdue => ?_, fun v => rfl⟩
  have hleaves := byteWritten_leaves v s
  exact ⟨byteWritten v s, ackCode (upcoming s 0), exec_wrbyte_next.mpr ⟨hdue, hclk, rfl⟩, hleaves.ends,
    ackCode_writeError, ackCode_ok, rfl, rfl, rfl, rfl, ⟨rfl, rfl⟩, hleaves.toKeepsRest, rfl, rfl, rfl⟩

/-- Settles O15: the line actions of three operations are fixed, and the code of the fourth is that of an answer; it
fails where the answer is High. -/
theorem onlyWriteByteCanFail : Obligations.OnlyWriteByteCanFail := by
  refine ⟨fun s hclk => ⟨started s, tsEvents, exec_tstart_low hclk, rfl, rfl, rfl⟩, fun sendAck s hclk => ?_,
    fun s hready => ⟨resetDone s, _, exec_creset_ready hready, rfl, rfl, rfl⟩, fun v s t h => ?_, ?_⟩
  · exact ⟨byteRead sendAck s, _, _, exec_rdbyte_low sendAck hclk, rfl, rfl, lineActions_readEvents _ _ _⟩
  · obtain ⟨-, -, rfl⟩ := exec_wrbyte_next.mp h
    change Result.code (ackCode (upcoming s 0)) = _ ∨ Result.code (ackCode (upcoming s 0)) = _
    cases upcoming s 0 with
    | false => exact .inl rfl
    | true => exact .inr rfl
  · exact ⟨Command.measureTemp.byte, scripted [true], byteWritten Command.measureTemp.byte (scripted [true]),
      exec_wrbyte_next.mpr ⟨fun _ => rfl, rfl, rfl⟩, rfl⟩

/-- Settles O16: `CRESET` ends in `resetDone`. -/
theorem connectionResetPattern : Obligations.ConnectionResetPattern := by
  refine ⟨fun s hready => ?_, rfl, rfl⟩
  have hleaves := resetDone_leaves s
  exact ⟨resetDone s, exec_creset_ready hready, hleaves.ends, rfl, rfl, rfl, rfl, ⟨rfl, rfl⟩, hleaves.toKeepsRest,
    rfl, rfl⟩

/-- Settles O17: each primitive asks for the clock Low before it does anything. -/
theorem primitivesNeedTheClockLow : Obligations.PrimitivesNeedTheClockLow :=
  fun _ _ sendAck hclk => ⟨exec_tstart_high hclk, exec_rdbyte_high sendAck hclk, fun hdue => exec_wrbyte_high hdue hclk⟩

end Sys2Proof.Machine

/-! # Proofs about the sequencer (41_sequencer.md)

A measurement ends in the state its stage describes (`runMeasure_eq`); what the answers make of the stage and of its
trace is said once for each of the three ways it can go, and the statements about them follow from the general one.
The three other operations end as their closed forms in Laws say. -/

namespace Sys2Proof.Machine

/-! ### What the answers make of a measurement -/

theorem runMeasure_eq (kind : Kind) (s : State) :
    runMeasure kind s = finish (stageAt s 0).result (measured kind s) := by
  rw [runMeasure, measure_eq]

/-- The command bytes of the two measurements (30_encoding.md R82). -/
theorem commandFor_byte (kind : Kind) :
    (commandFor kind).byte = if kind = .temperature then 0x03#8 else 0x05#8 := by
  cases kind <;> rfl

/-- A measurement whose command byte is not acknowledged (41_sequencer.md R121). -/
theorem stageAt_refused {s : State} {k : Nat} (hnack : upcoming s k = true) :
    stageAt s k = ⟨.writeError, 0#16, 0, 1⟩ :=
  if_pos hnack

/-- A measurement whose polls are all answered High (41_sequencer.md R122). -/
theorem stageAt_timeout {s : State} {k : Nat} (hack : upcoming s k = false)
    (hhigh : ∀ j, j < 240 → upcoming s (k + 1 + j) = true) : stageAt s k = ⟨.timeout, 0#16, 240, 241⟩ := by
  rcases stageAt_cases s k with ⟨hnack, -⟩ | ⟨-, -, hstage⟩ | ⟨j, -, hj, -, hlow, -⟩
  · rw [hack] at hnack
    cases hnack
  · exact hstage
  · rw [hhigh j hj] at hlow
    cases hlow

/-- `stageAt_ready` in the numbering of the polls from 1 on: the `p`-th is the first Low one (41_sequencer.md R122). -/
theorem stageAt_firstLowPoll {s : State} {p : Nat} (hack : upcoming s 0 = false) (hpos : 1 ≤ p) (hmax : p ≤ 240)
    (hhigh : ∀ j, 1 ≤ j → j < p → upcoming s j = true) (hlow : upcoming s p = false) :
    stageAt s 0 = ⟨.ok, assembleRaw (byteOf fun j => upcoming s (p + 1 + j)) (byteOf fun j => upcoming s (p + 9 + j)),
      p, 25 + p⟩ := by
  obtain ⟨n, rfl⟩ := Nat.exists_eq_add_of_le hpos
  have hmsb : 0 + 2 + n = 1 + n + 1 := by omega
  have hlsb : 1 + n + 1 + 8 = 1 + n + 9 := by omega
  have hused : 26 + n = 25 + (1 + n) := by omega
  rw [stageAt_ready (j := n) hack (by omega) (fun i hi => hhigh _ (by omega) (by omega)) (by rwa [Nat.zero_add]),
    hmsb, hlsb, hused, Nat.add_comm n 1]

theorem measureEvents_writeError {kind : Kind} {s : State} (hnack : upcoming s 0 = true)
    (hcode : (stageAt s 0).code = .writeError) :
    measureEvents kind s 0 = [Event.seq .idle] ++ tsEvents ++ [Event.seq .transmissionStarted] ++
      writeEvents (if kind = .temperature then 0x03#8 else 0x05#8) true ++ [Event.seq .failed] := by
  simp only [measureEvents, hcode, hnack, commandFor_byte]

theorem measureEvents_timeout {kind : Kind} {s : State} (hack : upcoming s 0 = false)
    (hcode : (stageAt s 0).code = .timeout) :
    measureEvents kind s 0 = [Event.seq .idle] ++ tsEvents ++ [Event.seq .transmissionStarted] ++
      writeEvents (if kind = .temperature then 0x03#8 else 0x05#8) false ++
      [Event.seq .commandSent, .rel, .seq .measuring] ++ highPolls 240 ++ [Event.seq .failed] := by
  simp only [measureEvents, hcode, hack, commandFor_byte, List.append_assoc]

theorem measureEvents_ok {kind : Kind} {s : State} {p : Nat} (hack : upcoming s 0 = false)
    (hcode : (stageAt s 0).code = .ok) (hpolls : (stageAt s 0).polls = p) :
    measureEvents kind s 0 = [Event.seq .idle] ++ tsEvents ++ [Event.seq .transmissionStarted] ++
      writeEvents (if kind = .temperature then 0x03#8 else 0x05#8) false ++
      [Event.seq .commandSent, .rel, .seq .measuring] ++ highPolls (p - 1) ++ [Event.waitMs, .smp false] ++
      [Event.seq .awaitingByte] ++ readEvents true (byteOf fun j => upcoming s (p + 1 + j)) ++
      readEvents true (byteOf fun j => upcoming s (p + 9 + j)) ++
      readEvents false (byteOf fun j => upcoming s (p + 17 + j)) ++ [Event.seq .done] := by
  have hfirst : 0 + 1 + p = p + 1 := by omega
  simp only [measureEvents, rawEvents, hcode, hpolls, hack, commandFor_byte, hfirst, Nat.add_assoc, Nat.reduceAdd,
    List.append_assoc]

/-! ### The other three operations -/

/-- A status register read by either of its names (30_encoding.md R82, R88). -/
theorem exec_statusRead {i : Instr} (hi : i = .rdstat ∨ i = .statusRegR) (s : State) :
    exec i s = accept s runReadStatus := by
  rcases hi with rfl | rfl <;> rfl

/-- A status register write by either of its names (30_encoding.md R82, R88). -/
theorem exec_statusWrite {i : Instr} {value : Byte} (hi : i = .wrstat value ∨ i = .statusRegW value) (s : State) :
    exec i s = accept s (runWriteStatus value) := by
  rcases hi with rfl | rfl <;> rfl

/-- A soft reset by either of its names (30_encoding.md R82, R88). -/
theorem exec_softReset {i : Instr} (hi : i = .sreset ∨ i = .resetCommand) (s : State) :
    exec i s = accept s runSoftReset := by
  rcases hi with rfl | rfl <;> rfl

/-- A status register read makes no poll. -/
theorem runReadStatus_pollcnt (s : State) : (runReadStatus s).pollcnt = s.pollcnt := by
  cases h : upcoming s 0 with
  | false => rw [runReadStatus, readStatusRegister_ok h, finish_pollcnt]
  | true => rw [runReadStatus, readStatusRegister_refused h, finish_pollcnt]

/-- A status register write makes no poll. -/
theorem runWriteStatus_pollcnt (value : Byte) (s : State) : (runWriteStatus value s).pollcnt = s.pollcnt := by
  cases h : upcoming s 0 with
  | false => rw [runWriteStatus, writeStatusRegister_sent value h, finish_pollcnt]
  | true => rw [runWriteStatus, writeStatusRegister_refused value h, finish_pollcnt]

/-- The result and the end state of a soft reset go by the one answer it samples (41_sequencer.md R125). -/
theorem runSoftReset_ends (s : State) :
    EndsWith (.code (ackCode (upcoming s 0))) (runSoftReset s) ∧
      (runSoftReset s).seq = seqOfCode (ackCode (upcoming s 0)) := by
  rw [runSoftReset, softReset_eq]
  exact ⟨⟨rfl, rfl, rfl, rfl⟩, rfl⟩

theorem runSoftReset_takes (s : State) : Takes 1 s (runSoftReset s) ∧ (runSoftReset s).pollcnt = s.pollcnt := by
  rw [runSoftReset, softReset_eq]
  exact ⟨⟨rfl, rfl⟩, rfl⟩

/-! ### The statements -/

/-- Settles O19: a measurement ends in the state its stage describes. -/
theorem measurementFollowsTheAnswers : Obligations.MeasurementFollowsTheAnswers := by
  intro i kind s hi hready
  have hleaves := runMeasure_leaves kind s
  refine ⟨runMeasure kind s, by rw [exec_measures hi, accept_ready hready], runMeasure_res kind s ▸ hleaves.ends,
    ?seq, ?pollcnt, ?bitcnt, ?commandDue, runMeasure_adds kind s, runMeasure_takes kind s, hleaves.toKeepsRest⟩
  all_goals rw [runMeasure_eq]; rfl

/-- Settles O20: the stage of a command byte that is not acknowledged, in O19. -/
theorem measurementWithoutAcknowledge : Obligations.MeasurementWithoutAcknowledge := by
  intro i kind s hi hready hnack
  obtain ⟨t, hexec, hends, hseq, hpollcnt, -, -, hadds, htakes, hrest⟩ :=
    measurementFollowsTheAnswers i kind s hi hready
  have hstage := stageAt_refused hnack
  rw [measureEvents_writeError hnack (by rw [hstage])] at hadds
  rw [hstage] at hends hseq hpollcnt htakes
  exact ⟨t, hexec, hends, hseq, hadds, htakes, hrest, hpollcnt⟩

/-- Settles O21: the stage of 240 polls answered High, in O19. -/
theorem measurementTimesOut : Obligations.MeasurementTimesOut := by
  intro i kind s hi hready hack hhigh
  obtain ⟨t, hexec, hends, hseq, hpollcnt, -, -, hadds, htakes, hrest⟩ :=
    measurementFollowsTheAnswers i kind s hi hready
  have hstage := stageAt_timeout (k := 0) hack hhigh
  rw [measureEvents_timeout hack (by rw [hstage])] at hadds
  rw [hstage] at hends hseq hpollcnt htakes
  exact ⟨t, hexec, hends, hseq, hpollcnt, hadds, htakes, hrest⟩

/-- Settles O22: the stage whose `p`-th poll is the first Low one, in O19. -/
theorem measurementReturnsBothBytes : Obligations.MeasurementReturnsBothBytes := by
  intro i kind s p hi hready hack hpos hmax hhigh hlow
  obtain ⟨t, hexec, hends, hseq, hpollcnt, -, -, hadds, htakes, hrest⟩ :=
    measurementFollowsTheAnswers i kind s hi hready
  have hstage := stageAt_firstLowPoll hack hpos hmax hhigh hlow
  rw [measureEvents_ok (p := p) hack (by rw [hstage]) (by rw [hstage])] at hadds
  rw [hstage] at hends hseq hpollcnt htakes
  exact ⟨t, _, hexec, hends, hseq, hpollcnt, assembleRaw_toNat _ _, hadds, htakes, hrest⟩

/-- Settles O26: the answer to the command byte decides which closed form of the read applies. -/
theorem statusRegisterRead : Obligations.StatusRegisterRead := by
  refine ⟨fun i s hi hready => ?_, rfl, rfl⟩
  refine ⟨runReadStatus s, by rw [exec_statusRead hi, accept_ready hready], (runReadStatus_leaves s).toKeepsRest,
    runReadStatus_pollcnt s, fun hnack => ?_, fun hack => ?_⟩
  · rw [runReadStatus, readStatusRegister_refused hnack]
    exact ⟨⟨rfl, rfl, rfl, rfl⟩, rfl, ⟨rfl, rfl⟩, rfl⟩
  · rw [runReadStatus, readStatusRegister_ok hack]
    exact ⟨⟨rfl, rfl, rfl, rfl⟩, rfl, ⟨rfl, rfl⟩, rfl⟩

/-- Settles O27: the answer to the command byte decides whether the value byte is sent, and the answer to that one how
the write ends. -/
theorem statusRegisterWrite : Obligations.StatusRegisterWrite := by
  refine ⟨fun i value s hi hready => ?_, fun value => ⟨rfl, rfl⟩⟩
  refine ⟨runWriteStatus value s, by rw [exec_statusWrite hi, accept_ready hready],
    (runWriteStatus_leaves value s).toKeepsRest, runWriteStatus_pollcnt value s, fun hnack => ?_,
    fun hack hvalueNack => ?_, fun hack hvalueAck => ?_⟩
  · rw [runWriteStatus, writeStatusRegister_refused value hnack]
    exact ⟨⟨rfl, rfl, rfl, rfl⟩, rfl, ⟨rfl, rfl⟩, rfl⟩
  · rw [runWriteStatus, writeStatusRegister_sent value hack, hvalueNack]
    exact ⟨⟨rfl, rfl, rfl, rfl⟩, rfl, ⟨rfl, rfl⟩, rfl⟩
  · rw [runWriteStatus, writeStatusRegister_sent value hack, hvalueAck]
    exact ⟨⟨rfl, rfl, rfl, rfl⟩, rfl, ⟨rfl, rfl⟩, rfl⟩

/-- Settles O28 (`softReset` is the operation's own name): the one answer it samples decides its result, its end state
and the end of its trace. -/
theorem softResetFollowsItsAnswer : Obligations.SoftReset := by
  refine ⟨fun i s hi hready => ?_, rfl, rfl⟩
  obtain ⟨htakes, hpollcnt⟩ := runSoftReset_takes s
  obtain ⟨hends, hseq⟩ := runSoftReset_ends s
  have hadds := runSoftReset_adds s
  rw [softResetEvents] at hadds
  refine ⟨runSoftReset s, by rw [exec_softReset hi, accept_ready hready], (runSoftReset_leaves s).toKeepsRest, htakes,
    hpollcnt, fun hnack => ?_, fun hack => ?_⟩
  · rw [hnack] at hends hseq hadds
    exact ⟨hends, hseq, hadds⟩
  · rw [hack] at hends hseq hadds
    exact ⟨hends, hseq, hadds⟩

end Sys2Proof.Machine

/-! # Proofs about binary64 rounding (42_calibration.md R140)

A positive number is measured in units of its last place: a binary64 number is a whole number of these units, or it lies
below the number's binade (`isB64_units_or_below`). So the nearest whole number of units (`roundB64_units`) is the
nearest binary64 number. Negative numbers follow by symmetry. -/

namespace Sys2Proof.Machine

/-! ### The unit of the last place -/

/-- The exponent of the last place of the binary64 numbers around a positive number. -/
def lastPlace (x : Rat) : Int :=
  ulpExponent x.num.natAbs x.den

theorem le_lastPlace (x : Rat) : -1074 ≤ lastPlace x :=
  le_max_right _ _

theorem two_zpow_mul (a b : Int) : (2 : Rat) ^ a * 2 ^ b = 2 ^ (a + b) :=
  (zpow_add₀ two_ne_zero a b).symm

/-- A power of two and its inverse. -/
theorem two_pow_mul_zpow {p : Nat} {e : Int} (h : (p : Int) + e = 0) : (2 : Rat) ^ p * 2 ^ e = 1 := by
  rw [← zpow_natCast, two_zpow_mul, h, zpow_zero]

theorem two_zpow_le {a b : Int} (h : a ≤ b) : (2 : Rat) ^ a ≤ 2 ^ b :=
  zpow_le_zpow_right₀ one_le_two h

/-- The binade of a positive number is the only one that holds it. -/
theorem floorLog2_eq {x : Rat} {l : Int} (hlow : 2 ^ l ≤ x) (hhigh : x < 2 ^ (l + 1)) :
    floorLog2 x.num.natAbs x.den = l := by
  obtain ⟨h1, h2⟩ := floorLog2_binade ((by positivity : (0 : Rat) < 2 ^ l).trans_le hlow)
  have hle := zpow_lt_two (h1.trans_lt hhigh)
  have hge := zpow_lt_two (hlow.trans_lt h2)
  omega

/-- A number of a binade above the lowest has its last place 52 places below its leading bit. -/
theorem lastPlace_eq {x : Rat} {e : Int} (he : -1074 ≤ e) (hlow : 2 ^ (52 + e) ≤ x) (hhigh : x < 2 ^ (53 + e)) :
    lastPlace x = e := by
  have hexp : 53 + e = 52 + e + 1 := by ring
  rw [lastPlace, ulpExponent, floorLog2_eq hlow (hexp ▸ hhigh)]
  omega

/-- A positive number has fewer than `2^53` units. -/
theorem lt_two_zpow_lastPlace {x : Rat} (hx : 0 < x) : x < 2 ^ (53 + lastPlace x) := by
  refine (floorLog2_binade hx).2.trans_le (two_zpow_le ?_)
  have := le_max_left (floorLog2 x.num.natAbs x.den - 52) (-1074)
  rw [lastPlace, ulpExponent]
  omega

/-- Above the lowest exponent a number has at least `2^52` units. -/
theorem two_zpow_lastPlace_le {x : Rat} (hx : 0 < x) (h : -1074 < lastPlace x) : 2 ^ (52 + lastPlace x) ≤ x := by
  refine (two_zpow_le ?_).trans (floorLog2_binade hx).1
  rw [lastPlace, ulpExponent] at h ⊢
  omega

/-- `roundB64_pos` by the name of the unit. -/
theorem roundB64_units {x : Rat} (hx : 0 < x) :
    ∃ k : Nat, roundB64 x = (k : Rat) * 2 ^ lastPlace x ∧ |(k : Rat) - x / 2 ^ lastPlace x| ≤ 1 / 2 ∧
      (|(k : Rat) - x / 2 ^ lastPlace x| = 1 / 2 → k % 2 = 0) :=
  roundB64_pos hx

/-! ### The binary64 numbers -/

theorem isB64_iff {y : Rat} :
    IsB64 y ↔ ∃ (m : Nat) (e : Int), m < 2 ^ 53 ∧ -1074 ≤ e ∧ e ≤ 971 ∧ |y| = m * 2 ^ e := by
  have habs (m : Nat) (e : Int) : (y = scaleTwo m e ∨ y = -scaleTwo m e) ↔ |y| = m * 2 ^ e := by
    rw [scaleTwo_eq, abs_eq (by positivity)]
  simp only [IsB64, habs]

theorem isEvenB64_iff {y : Rat} :
    IsEvenB64 y ↔ ∃ (m : Nat) (e : Int), m < 2 ^ 53 ∧ m % 2 = 0 ∧ -1074 ≤ e ∧ e ≤ 971 ∧ |y| = m * 2 ^ e := by
  have habs (m : Nat) (e : Int) : (y = scaleTwo m e ∨ y = -scaleTwo m e) ↔ |y| = m * 2 ^ e := by
    rw [scaleTwo_eq, abs_eq (by positivity)]
  simp only [IsEvenB64, habs]

theorem isB64_neg {y : Rat} : IsB64 (-y) ↔ IsB64 y := by
  rw [isB64_iff, isB64_iff, abs_neg]

theorem isEvenB64_neg {y : Rat} : IsEvenB64 (-y) ↔ IsEvenB64 y := by
  rw [isEvenB64_iff, isEvenB64_iff, abs_neg]

theorem isB64_zero : IsB64 0 :=
  isB64_iff.mpr ⟨0, 0, by norm_num, by norm_num, by norm_num, by simp⟩

theorem IsEvenB64.isB64 {y : Rat} (h : IsEvenB64 y) : IsB64 y := by
  obtain ⟨m, e, hm, -, hrest⟩ := h
  exact ⟨m, e, hm, hrest⟩

/-- An even significand may reach `2^53`: the next exponent then takes it. -/
theorem isEvenB64_of_even {k : Nat} {e : Int} (hk : k ≤ 2 ^ 53) (heven : k % 2 = 0) (hlow : -1074 ≤ e)
    (hhigh : e < 971) :
    IsEvenB64 (k * 2 ^ e) := by
  rw [isEvenB64_iff, abs_of_nonneg (by positivity)]
  rcases hk.lt_or_eq with hlt | rfl
  · exact ⟨k, e, hlt, heven, hlow, hhigh.le, rfl⟩
  · refine ⟨2 ^ 52, e + 1, by norm_num, by norm_num, by omega, by omega, ?_⟩
    rw [zpow_add_one₀ two_ne_zero]
    push_cast
    ring

theorem isB64_of_le {k : Nat} {e : Int} (hk : k ≤ 2 ^ 53) (hlow : -1074 ≤ e) (hhigh : e < 971) :
    IsB64 (k * 2 ^ e) := by
  rcases hk.lt_or_eq with hlt | rfl
  · rw [isB64_iff, abs_of_nonneg (by positivity)]
    exact ⟨k, e, hlt, hlow, hhigh.le, rfl⟩
  · exact (isEvenB64_of_even le_rfl (by norm_num) hlow hhigh).isB64

/-- Seen from a positive number, a binary64 number is a whole number of units, or it lies below the number's binade. -/
theorem isB64_units_or_below {x y : Rat} (hx : 0 < x) (hy : IsB64 y) :
    (∃ j : Int, y = j * 2 ^ lastPlace x) ∨ (y < 2 ^ (52 + lastPlace x) ∧ 2 ^ (52 + lastPlace x) ≤ x) := by
  obtain ⟨m, e, hm, hlow, -, habs⟩ := isB64_iff.mp hy
  rcases le_or_gt (lastPlace x) e with h | h
  · obtain ⟨p, hp⟩ := Int.eq_ofNat_of_zero_le (sub_nonneg.mpr h)
    have hpow : (2 : Rat) ^ e = 2 ^ p * 2 ^ lastPlace x := by
      rw [← zpow_natCast, two_zpow_mul, ← hp, sub_add_cancel]
    left
    rw [hpow] at habs
    rcases (abs_eq (by positivity)).mp habs with rfl | rfl
    · exact ⟨m * 2 ^ p, by push_cast; ring⟩
    · exact ⟨-(m * 2 ^ p), by push_cast; ring⟩
  · right
    refine ⟨?_, two_zpow_lastPlace_le hx (by omega)⟩
    have hmq : (m : Rat) < 2 ^ (53 : Int) := by exact_mod_cast hm
    calc y ≤ m * 2 ^ e := habs ▸ le_abs_self y
      _ < 2 ^ (53 : Int) * 2 ^ e := mul_lt_mul_of_pos_right hmq (by positivity)
      _ ≤ 2 ^ (52 + lastPlace x) := by rw [two_zpow_mul]; exact two_zpow_le (by omega)

/-! ### The nearest number -/

/-- A whole number within one half of `q` is the nearest one; another as near is at one half. -/
theorem nearest_int {k j : Int} {q : Rat} (hk : |(k : Rat) - q| ≤ 1 / 2) :
    |(k : Rat) - q| ≤ |(j : Rat) - q| ∧ (j ≠ k → |(j : Rat) - q| = |(k : Rat) - q| → |(k : Rat) - q| = 1 / 2) := by
  rcases eq_or_ne j k with rfl | hne
  · exact ⟨le_rfl, fun h => absurd rfl h⟩
  · have hone : (1 : Rat) ≤ |(j : Rat) - k| := by exact_mod_cast Int.one_le_abs (sub_ne_zero.mpr hne)
    have htri := abs_sub_le (j : Rat) q k
    rw [abs_sub_comm q] at htri
    exact ⟨by linarith, fun _ h => by linarith⟩

/-- No binary64 number is nearer to a positive number than the rounded one, and where another is as near the
rounded one has an even number of units (42_calibration.md R140). -/
theorem roundB64_nearest_pos {x y : Rat} (hx : 0 < x) (hy : IsB64 y) :
    |roundB64 x - x| ≤ |y - x| ∧ (y ≠ roundB64 x → |y - x| = |roundB64 x - x| →
      ∃ k : Nat, roundB64 x = k * 2 ^ lastPlace x ∧ k % 2 = 0) := by
  obtain ⟨k, hk, hhalf, htie⟩ := roundB64_units hx
  have hunit : (0 : Rat) < 2 ^ lastPlace x := by positivity
  have hdist (j : Rat) : |j * 2 ^ lastPlace x - x| = |j - x / 2 ^ lastPlace x| * 2 ^ lastPlace x := by
    rw [← abs_of_pos hunit, ← abs_mul, abs_of_pos hunit, sub_mul, div_mul_cancel₀ _ hunit.ne']
  have hnear (j : Int) := nearest_int (k := k) (j := j) (by exact_mod_cast hhalf)
  rw [hk, hdist]
  rcases isB64_units_or_below hx hy with ⟨j, rfl⟩ | ⟨hbelow, hbinade⟩
  · rw [hdist]
    obtain ⟨hle, heq⟩ := hnear j
    refine ⟨mul_le_mul_of_nonneg_right hle hunit.le, fun hne hsame => ⟨k, rfl, htie (heq ?_ ?_)⟩⟩
    · rintro rfl
      exact hne rfl
    · exact mul_right_cancel₀ hunit.ne' hsame
  · -- the low end of the binade is a whole number of units, and nearer to `x` than `y`
    have hend := mul_le_mul_of_nonneg_right (hnear (2 ^ 52)).1 hunit.le
    have hpow : (((2 : Int) ^ 52 : Int) : Rat) * 2 ^ lastPlace x = 2 ^ (52 + lastPlace x) := by
      rw [zpow_add₀ two_ne_zero]
      norm_num
    rw [← hdist, ← hdist, hpow, abs_of_nonpos (sub_nonpos.mpr hbinade)] at hend
    have hy' : |y - x| = x - y := by rw [abs_of_neg (by linarith)]; ring
    rw [← hdist, hy']
    rw [Int.cast_natCast] at hend
    exact ⟨by linarith, fun _ h => by linarith⟩

/-- The rounded number has at most `2^53` units. -/
theorem roundB64_units_le {x : Rat} {k : Nat} (hx : 0 < x) (hk : |(k : Rat) - x / 2 ^ lastPlace x| ≤ 1 / 2) :
    k ≤ 2 ^ 53 := by
  have hlt : x / 2 ^ lastPlace x < 2 ^ 53 := by
    rw [div_lt_iff₀ (by positivity)]
    refine (lt_two_zpow_lastPlace hx).trans_eq ?_
    rw [zpow_add₀ two_ne_zero]
    norm_num
  have hkq : (k : Rat) < ((2 ^ 53 + 1 : Nat) : Rat) := by
    push_cast
    linarith [(abs_le.mp hk).2]
  exact Nat.lt_succ_iff.mp (by exact_mod_cast hkq)

/-- The last place of a number below `2^1000` is far from the upper end of the range. -/
theorem lastPlace_lt {x : Rat} (hx : 0 < x) (hbound : x < 2 ^ 1000) : lastPlace x < 971 := by
  by_contra hge
  have hlow := two_zpow_lastPlace_le hx (by omega)
  have hpow : (2 : Rat) ^ (1000 : Int) ≤ 2 ^ (52 + lastPlace x) := two_zpow_le (by omega)
  rw [zpow_ofNat] at hpow
  exact absurd hbound (not_lt.mpr (hpow.trans hlow))

/-- What `RoundingIsToNearest` says of one number. -/
def RoundsToNearest (x : Rat) : Prop :=
  IsB64 (roundB64 x) ∧ (∀ y, IsB64 y → |roundB64 x - x| ≤ |y - x|) ∧
    ∀ y, IsB64 y → y ≠ roundB64 x → |y - x| = |roundB64 x - x| → IsEvenB64 (roundB64 x)

theorem roundsToNearest_pos {x : Rat} (hx : 0 < x) (hbound : x < 2 ^ 1000) : RoundsToNearest x := by
  obtain ⟨k, hk, hhalf, -⟩ := roundB64_units hx
  have hle := roundB64_units_le hx hhalf
  have hexp := lastPlace_lt hx hbound
  refine ⟨hk ▸ isB64_of_le hle (le_lastPlace x) hexp, fun y hy => (roundB64_nearest_pos hx hy).1,
    fun y hy hne hsame => ?_⟩
  obtain ⟨k', hk', heven⟩ := (roundB64_nearest_pos hx hy).2 hne hsame
  have hkk : k' = k := by
    rw [hk] at hk'
    exact_mod_cast (mul_right_cancel₀ (by positivity) hk').symm
  subst hkk
  exact hk ▸ isEvenB64_of_even hle heven (le_lastPlace x) hexp

theorem roundsToNearest_zero : RoundsToNearest 0 := by
  refine ⟨isB64_zero, fun y _ => ?_, fun y _ hne hsame => ?_⟩
  · simp
  · rw [roundB64_zero, sub_zero, sub_zero, abs_zero, abs_eq_zero] at hsame
    exact absurd hsame hne

theorem RoundsToNearest.neg {x : Rat} (h : RoundsToNearest x) : RoundsToNearest (-x) := by
  obtain ⟨hrep, hnear, heven⟩ := h
  have hdist (y : Rat) : |y - -x| = |-y - x| := by
    rw [← abs_neg]
    congr 1
    ring
  rw [RoundsToNearest, roundB64_neg]
  refine ⟨isB64_neg.mpr hrep, fun y hy => ?_, fun y hy hne hsame => ?_⟩
  · rw [hdist, hdist, neg_neg]
    exact hnear (-y) (isB64_neg.mpr hy)
  · rw [hdist, hdist, neg_neg] at hsame
    exact isEvenB64_neg.mpr (heven (-y) (isB64_neg.mpr hy) (fun h => hne (by rw [← h, neg_neg])) hsame)

/-- Settles O44: a positive number by its units, a negative one by symmetry. -/
theorem roundingIsToNearest : Obligations.RoundingIsToNearest := by
  intro x hbound
  obtain ⟨hlow, hhigh⟩ := abs_lt.mp hbound
  rcases lt_trichotomy x 0 with hneg | rfl | hpos
  · exact neg_neg x ▸ (roundsToNearest_pos (neg_pos.mpr hneg) (neg_lt.mp hlow)).neg
  · exact roundsToNearest_zero
  · exact roundsToNearest_pos hpos hhigh

theorem roundB64_of_isB64_pos {y : Rat} (hpos : 0 < y) (hy : IsB64 y) : roundB64 y = y := by
  have hdist := (roundB64_nearest_pos hpos hy).1
  rw [sub_self, abs_zero, abs_nonpos_iff] at hdist
  exact sub_eq_zero.mp hdist

/-- A binary64 number is its own nearest one (42_calibration.md R140). -/
theorem roundB64_of_isB64 {y : Rat} (hy : IsB64 y) : roundB64 y = y := by
  rcases lt_trichotomy y 0 with hneg | rfl | hpos
  · have hround := roundB64_of_isB64_pos (neg_pos.mpr hneg) (isB64_neg.mpr hy)
    rw [roundB64_neg] at hround
    exact neg_injective hround
  · rfl
  · exact roundB64_of_isB64_pos hpos hy

/-- Settles O45. -/
theorem roundingKeepsRepresentables : Obligations.RoundingKeepsRepresentables :=
  fun _ hy => roundB64_of_isB64 hy

/-! ### The bits of a number -/

/-- A positive binary64 number in units of its own last place: the leading bit is set, or the exponent is the lowest. -/
theorem isB64_significand {y : Rat} (hpos : 0 < y) (hy : IsB64 y) :
    ∃ k : Nat, y = k * 2 ^ lastPlace y ∧ k < 2 ^ 53 ∧ (-1074 < lastPlace y → 2 ^ 52 ≤ k) := by
  have hunit : (0 : Rat) < 2 ^ lastPlace y := by positivity
  rcases isB64_units_or_below hpos hy with ⟨j, hj⟩ | ⟨hbelow, hbinade⟩
  · have hj0 : 0 ≤ j := by
      by_contra hneg
      have : (j : Rat) < 0 := by exact_mod_cast not_le.mp hneg
      linarith [mul_neg_of_neg_of_pos this hunit]
    obtain ⟨k, rfl⟩ := Int.eq_ofNat_of_zero_le hj0
    rw [Int.cast_natCast] at hj
    refine ⟨k, hj, ?_, fun h => ?_⟩
    · have hlt := lt_two_zpow_lastPlace hpos
      rw [zpow_add₀ two_ne_zero, ← div_lt_iff₀ hunit, (div_eq_iff hunit.ne').mpr hj] at hlt
      exact_mod_cast hlt
    · have hle := two_zpow_lastPlace_le hpos h
      rw [zpow_add₀ two_ne_zero, ← le_div_iff₀ hunit, (div_eq_iff hunit.ne').mpr hj] at hle
      exact_mod_cast hle
  · exact absurd hbinade (not_le.mpr hbelow)

/-- The number that an exponent field and a fraction stand for (42_calibration.md R140). -/
def fieldsValue (field frac : Nat) : Rat :=
  if field = 0 then scaleTwo frac (-1074) else scaleTwo (2 ^ 52 + frac) ((field : Int) - 1075)

/-- The pattern of a sign, an exponent field and a fraction (42_calibration.md R140). -/
def patternOf (sign field frac : Nat) : BitVec 64 :=
  BitVec.ofNat 64 (sign + field * 2 ^ 52 + frac)

/-- A pattern is read by its fields. -/
theorem unpackB64_patternOf {field frac : Nat} (hfield : field < 2 ^ 11) (hfrac : frac < 2 ^ 52) :
    unpackB64 (patternOf 0 field frac) = fieldsValue field frac ∧
      unpackB64 (patternOf (2 ^ 63) field frac) = -fieldsValue field frac := by
  have hnat (sign : Nat) (hsign : sign ≤ 2 ^ 63) :
      (patternOf sign field frac).toNat = sign + field * 2 ^ 52 + frac := by
    rw [patternOf, BitVec.toNat_ofNat, Nat.mod_eq_of_lt (by omega)]
  have hfracOf (sign : Nat) (h : sign = 0 ∨ sign = 2 ^ 63) : (sign + field * 2 ^ 52 + frac) % 2 ^ 52 = frac := by
    omega
  have hfieldOf (sign : Nat) (h : sign = 0 ∨ sign = 2 ^ 63) :
      (sign + field * 2 ^ 52 + frac) / 2 ^ 52 % 2 ^ 11 = field := by
    omega
  constructor
  · simp only [unpackB64, hnat 0 (by omega), hfracOf 0 (.inl rfl), hfieldOf 0 (.inl rfl)]
    exact if_pos (by omega)
  · simp only [unpackB64, hnat (2 ^ 63) le_rfl, hfracOf _ (.inr rfl), hfieldOf _ (.inr rfl)]
    exact if_neg (by omega)

/-- The significand as the model computes it. -/
theorem natAbs_num_div {y : Rat} {k : Nat} {e : Int} (hpos : 0 < y) (hy : y = k * 2 ^ e) :
    y.num.natAbs * 2 ^ (-e).toNat / (y.den * 2 ^ e.toNat) = k := by
  refine Nat.div_eq_of_eq_mul_left (Nat.mul_pos y.den_pos (by positivity)) ?_
  have hfrac : (y.num.natAbs : Rat) / y.den = k * (2 ^ e.toNat / 2 ^ (-e).toNat) := by
    rw [← two_zpow_eq, ← hy, Nat.cast_natAbs, abs_of_pos (Rat.num_pos.mpr hpos)]
    exact Rat.num_div_den y
  have hden : (y.den : Rat) ≠ 0 := by exact_mod_cast y.den_ne_zero
  have hcross : (y.num.natAbs : Rat) * 2 ^ (-e).toNat = k * (y.den * 2 ^ e.toNat) := by
    field_simp at hfrac
    linarith
  exact_mod_cast hcross

/-- The pattern of a positive number of `k` units, and of its negative, by the exponent of its leading bit: below
the normal range the significand stands alone, within it the leading bit is left out. -/
theorem packB64_eq {y : Rat} {k : Nat} {l : Int} (hpos : 0 < y) (hk : y = k * 2 ^ lastPlace y)
    (hl : floorLog2 y.num.natAbs y.den = l) (hmax : l ≤ 1023) :
    (l < -1022 → packB64 y = patternOf 0 0 k ∧ packB64 (-y) = patternOf (2 ^ 63) 0 k) ∧
      (-1022 ≤ l → packB64 y = patternOf 0 (l + 1023).toNat (k - 2 ^ 52) ∧
        packB64 (-y) = patternOf (2 ^ 63) (l + 1023).toNat (k - 2 ^ 52)) := by
  have hnum : 0 < y.num := Rat.num_pos.mpr hpos
  have hnegnum : (-y).num = -y.num := rfl
  have hnegden : (-y).den = y.den := rfl
  have hm := natAbs_num_div hpos hk
  rw [lastPlace] at hm
  unfold packB64 patternOf
  simp only [hnegnum, hnegden, Int.natAbs_neg, neg_eq_zero, hl, hm, hnum.ne', not_lt.mpr hnum.le,
    neg_lt_zero.mpr hnum, not_lt.mpr hmax, if_false, if_true]
  refine ⟨fun h => ?_, fun h => ?_⟩
  · simp only [if_pos h, Nat.zero_mul, Nat.add_zero, and_self]
  · simp only [if_neg (not_lt.mpr h), and_self]

/-- The bits of a positive binary64 number and of its negative are the sign and the fields that stand for it. -/
theorem packB64_fields {y : Rat} (hpos : 0 < y) (hy : IsB64 y) (hbound : y < 2 ^ (1024 : Int)) :
    ∃ field frac, field < 2 ^ 11 ∧ frac < 2 ^ 52 ∧ y = fieldsValue field frac ∧
      packB64 y = patternOf 0 field frac ∧ packB64 (-y) = patternOf (2 ^ 63) field frac := by
  obtain ⟨k, hk, hk53, hk52⟩ := isB64_significand hpos hy
  obtain ⟨hlow, hhigh⟩ := floorLog2_binade hpos
  have hlast : lastPlace y = max (floorLog2 y.num.natAbs y.den - 52) (-1074) := rfl
  have hmax := zpow_lt_two (hlow.trans_lt hbound)
  obtain ⟨hsub, hnorm⟩ := packB64_eq hpos hk rfl (by omega)
  generalize floorLog2 y.num.natAbs y.den = l at *
  rcases lt_or_ge l (-1022) with hl | hl
  · have hexp : lastPlace y = -1074 := by omega
    rw [hexp] at hk
    have hk' : k < 2 ^ 52 := by
      have hlt : (k : Rat) * 2 ^ (-1074 : Int) < 2 ^ (52 : Int) * 2 ^ (-1074 : Int) := by
        rw [← hk, two_zpow_mul]
        exact hhigh.trans_le (two_zpow_le (by omega))
      exact_mod_cast lt_of_mul_lt_mul_right hlt (by positivity)
    refine ⟨0, k, by norm_num, hk', ?_, hsub hl⟩
    rw [fieldsValue, if_pos rfl, scaleTwo_eq]
    exact hk
  · have hk52' : 2 ^ 52 ≤ k := by
      rcases eq_or_lt_of_le hl with rfl | hl
      · have hexp : lastPlace y = -1074 := by omega
        rw [hk, hexp] at hlow
        have hle : (2 : Rat) ^ (52 : Int) * 2 ^ (-1074 : Int) ≤ k * 2 ^ (-1074 : Int) := by
          rwa [two_zpow_mul]
        exact_mod_cast le_of_mul_le_mul_right hle (by positivity)
      · exact hk52 (by omega)
    refine ⟨(l + 1023).toNat, k - 2 ^ 52, by omega, by omega, ?_, hnorm hl⟩
    have hfield : (((l + 1023).toNat : Nat) : Int) - 1075 = lastPlace y := by omega
    rw [fieldsValue, if_neg (by omega), scaleTwo_eq, hfield, Nat.add_sub_cancel' hk52']
    exact hk

/-- A number below `2^1000` is rounded to one below `2^1024`. -/
theorem roundB64_lt {x : Rat} (hbound : x < 2 ^ 1000) : roundB64 x < 2 ^ (1024 : Int) := by
  have hrep : IsB64 (2 ^ (1000 : Int)) := by
    have hpow : ((2 ^ 52 : Nat) : Rat) * 2 ^ (948 : Int) = 2 ^ (1000 : Int) := by
      rw [Nat.cast_pow, Nat.cast_ofNat, ← zpow_natCast]
      exact two_zpow_mul 52 948
    exact hpow ▸ isB64_of_le (by norm_num) (by norm_num) (by norm_num)
  have hle := roundB64_mono hbound.le
  rw [← zpow_ofNat, roundB64_of_isB64 hrep] at hle
  exact hle.trans_lt (zpow_lt_zpow_right₀ one_lt_two (by norm_num))

/-- The bits of a positive binary64 number and of its negative are read back. -/
theorem unpackB64_packB64_pos {y : Rat} (hpos : 0 < y) (hy : IsB64 y) (hbound : y < 2 ^ (1024 : Int)) :
    unpackB64 (packB64 y) = y ∧ unpackB64 (packB64 (-y)) = -y := by
  obtain ⟨field, frac, hfield, hfrac, hvalue, hpack, hneg⟩ := packB64_fields hpos hy hbound
  rw [hpack, hneg, hvalue]
  exact unpackB64_patternOf hfield hfrac

/-- Settles O46: the fields of a positive number, and the sign of a negative one. -/
theorem bitsStandForTheNumber : Obligations.BitsStandForTheNumber := by
  intro x hx
  obtain ⟨hlow, hhigh⟩ := abs_lt.mp hx
  have hrep := (roundingIsToNearest x hx).1
  rcases lt_trichotomy (roundB64 x) 0 with hneg | hzero | hpos
  · have hbound := roundB64_lt (neg_lt.mp hlow)
    rw [roundB64_neg] at hbound
    have hread := (unpackB64_packB64_pos (neg_pos.mpr hneg) (isB64_neg.mpr hrep) hbound).2
    rwa [neg_neg] at hread
  · rw [hzero]
    decide +kernel
  · exact (unpackB64_packB64_pos hpos hrep (roundB64_lt hhigh)).1

end Sys2Proof.Machine

/-! # Proofs about the calibration functions (42_calibration.md)

Under `Q` each stage is an expression in integers (R148). Under `B64` a fact about all raw values comes from the order
that rounding keeps and from the values at the ends; where the settings differ is found by bounding the value between
two numbers that rounding leaves alone. -/

namespace Sys2Proof.Machine

/-! ### The formulas -/

/-- Settles O34: the two instructions write their output, which is the formula. -/
theorem calibrationStoresNothing : Obligations.CalibrationStoresNothing :=
  ⟨fun _ _ => rfl, fun _ _ _ => rfl⟩

/-- Settles O47: each constant is a literal, rounded once under `B64`. -/
theorem constantBitPatterns : Obligations.ConstantBitPatterns := by
  refine ⟨?_, ?_, ?_, ?_, ?_, ?_, ?_, ?_, ?_, ?_, ?_, rfl, rfl, rfl, rfl, rfl, rfl, rfl, rfl, rfl, rfl, rfl⟩
  all_goals decide +kernel

theorem rhMin_le_rhMax (n : Numerics) : rhMin n ≤ rhMax n :=
  literal_mono n (by norm_num)

theorem clampRh_of_gt {n : Numerics} {rh : Rat} (h : rhMax n < rh) : clampRh n rh = rhMax n :=
  if_pos h

theorem clampRh_of_lt {n : Numerics} {rh : Rat} (h : rh < rhMin n) : clampRh n rh = rhMin n := by
  rw [clampRh, if_neg (not_lt.mpr (h.le.trans (rhMin_le_rhMax n))), if_pos h]

theorem clampRh_of_mem {n : Numerics} {rh : Rat} (hmin : rhMin n ≤ rh) (hmax : rh ≤ rhMax n) : clampRh n rh = rh := by
  rw [clampRh, if_neg (not_lt.mpr hmax), if_neg (not_lt.mpr hmin)]

/-- The clamp as a minimum and a maximum (42_calibration.md R145). -/
theorem clampRh_eq_min_max (n : Numerics) (rh : Rat) : clampRh n rh = min (max rh (rhMin n)) (rhMax n) := by
  have hends := rhMin_le_rhMax n
  rcases lt_or_ge (rhMax n) rh with hmax | hmax
  · rw [clampRh_of_gt hmax, max_eq_left (hends.trans hmax.le), min_eq_right hmax.le]
  · rcases lt_or_ge rh (rhMin n) with hmin | hmin
    · rw [clampRh_of_lt hmin, max_eq_right hmin.le, min_eq_left hends]
    · rw [clampRh_of_mem hmin hmax, max_eq_left hmin, min_eq_left hmax]

theorem clampRh_mono (n : Numerics) {x y : Rat} (h : x ≤ y) : clampRh n x ≤ clampRh n y := by
  rw [clampRh_eq_min_max, clampRh_eq_min_max]
  exact min_le_min_right _ (max_le_max_right _ h)

/-- The decimal constants of R143 and R144 as the fractions of the model. -/
theorem rhTrue_eq (n : Numerics) (rawHumi rawTemp : U16) :
    rhTrue n rawHumi rawTemp =
      roundNum n (roundNum n
        (roundNum n (temperatureCelsius n rawTemp - literal n 25) *
          roundNum n (literal n (1 / 100) + roundNum n (literal n (8 / 100000) * (rawHumi.toNat : Rat)))) +
        roundNum n (roundNum n (roundNum n (literal n (-28 / 10000000) *
            roundNum n ((rawHumi.toNat : Rat) * (rawHumi.toNat : Rat))) +
          roundNum n (literal n (405 / 10000) * (rawHumi.toNat : Rat))) + literal n (-4))) := by
  have hc3 : (-28 / 10000000 : Rat) = -7 / 2500000 := by norm_num
  have hc2 : (405 / 10000 : Rat) = 81 / 2000 := by norm_num
  have ht2 : (8 / 100000 : Rat) = 1 / 12500 := by norm_num
  rw [hc3, hc2, ht2]
  rfl

/-- Settles O35: the three clauses are the three ways the clamp can go. -/
theorem humidityStages : Obligations.HumidityStages := by
  intro n rawHumi rawTemp h lin tC true'
  have htrue : humidityPercent n rawHumi rawTemp = clampRh n true' :=
    congrArg (clampRh n) (rhTrue_eq n rawHumi rawTemp)
  rw [htrue]
  exact ⟨clampRh_of_gt, clampRh_of_lt, clampRh_of_mem⟩

/-- Settles O42: the clamp's interval. -/
theorem humidityInClampInterval : Obligations.HumidityInClampInterval :=
  fun n h t => clampRh_range n (rhTrue n h t)

/-! ### The exact values -/

theorem tenths_q (x : Rat) : tenths .q x = truncRat (x * 10) := rfl

theorem truncRat_intCast_div (a : Int) (b : Nat) : truncRat ((a : Rat) / b) = a.tdiv b := by
  rcases le_total 0 a with ha | ha
  · rw [truncRat_of_nonneg (by positivity), Rat.floor_intCast_div_natCast, Int.tdiv_eq_ediv_of_nonneg ha]
  · have hneg : (a : Rat) / b = -(((-a : Int) : Rat) / b) := by push_cast; ring
    have ha' : 0 ≤ -a := neg_nonneg.mpr ha
    rw [hneg, truncRat_neg, truncRat_of_nonneg (by positivity), Rat.floor_intCast_div_natCast,
      ← Int.tdiv_eq_ediv_of_nonneg ha', Int.neg_tdiv, neg_neg]

/-- Truncating division divides the magnitude and keeps the sign. -/
theorem tdiv_eq_sign_mul (a b : Int) : a.tdiv b = a.sign * (|a| / b) := by
  rcases lt_trichotomy a 0 with ha | rfl | ha
  · rw [Int.sign_eq_neg_one_of_neg ha, abs_of_neg ha, ← Int.tdiv_eq_ediv_of_nonneg (neg_nonneg.mpr ha.le),
      Int.neg_tdiv]
    ring
  · simp
  · rw [Int.sign_eq_one_of_pos ha, abs_of_pos ha, one_mul, Int.tdiv_eq_ediv_of_nonneg ha.le]

theorem temperatureCelsius_q (t : U16) : temperatureCelsius .q t = (((t.toNat : Int) : Rat) - 4000) / 100 := by
  change (t.toNat : Rat) * (1 / 100) - 40 = _
  push_cast
  ring

/-- The temperature's tenths under `Q` (42_calibration.md R148). -/
theorem tempTenths_q (t : U16) : tempTenths .q t = ((t.toNat : Int) - 4000).tdiv 10 := by
  have h : (((t.toNat : Int) : Rat) - 4000) / 100 * 10 = (((t.toNat : Int) - 4000 : Int) : Rat) / (10 : Nat) := by
    push_cast
    ring
  rw [tempTenths, tenths_q, temperatureCelsius_q, h, truncRat_intCast_div]
  rfl

/-- The unclamped humidity under `Q` is the scaled integer (42_calibration.md R148). -/
theorem rhTrue_q (h t : U16) : rhTrue .q h t = (scaledRh h.toNat t.toNat : Rat) / 10 ^ 7 := by
  change ((t.toNat : Rat) * (1 / 100) - 40 - 25) * (1 / 100 + 1 / 12500 * (h.toNat : Rat)) +
    (-7 / 2500000 * ((h.toNat : Rat) * h.toNat) + 81 / 2000 * h.toNat + -4) = _
  unfold scaledRh
  push_cast
  ring

/-- The scaled integer of the clamped humidity (42_calibration.md R148). -/
def clampedRh (h t : Int) : Int :=
  min (max (scaledRh h t) (10 ^ 6)) (10 ^ 9)

theorem humidityPercent_q (h t : U16) :
    humidityPercent .q h t = (clampedRh h.toNat t.toNat : Rat) / 10 ^ 7 := by
  have hmin : rhMin .q = ((10 ^ 6 : Int) : Rat) / 10 ^ 7 := by
    change (1 / 10 : Rat) = _
    norm_num
  have hmax : rhMax .q = ((10 ^ 9 : Int) : Rat) / 10 ^ 7 := by
    change (100 : Rat) = _
    norm_num
  have hpos : (0 : Rat) ≤ 10 ^ 7 := by norm_num
  rw [humidityPercent, clampRh_eq_min_max, rhTrue_q, hmin, hmax, max_div_div_right hpos, min_div_div_right hpos,
    clampedRh]
  push_cast
  rfl

theorem humiTenths_q (h t : U16) : humiTenths .q h t = clampedRh h.toNat t.toNat / 10 ^ 6 := by
  have hnonneg : 0 ≤ clampedRh h.toNat t.toNat := by
    unfold clampedRh
    omega
  have hten : (clampedRh h.toNat t.toNat : Rat) / 10 ^ 7 * 10 = (clampedRh h.toNat t.toNat : Rat) / (10 ^ 6 : Nat) := by
    push_cast
    ring
  rw [humiTenths, tenths_q, humidityPercent_q, hten, truncRat_intCast_div, Int.tdiv_eq_ediv_of_nonneg hnonneg]
  rfl

/-- The extreme of the scaled integer is at `(65535, 0)` (42_calibration.md R148). -/
theorem scaledRh_ge {h t : Int} (hh0 : 0 ≤ h) (hh : h ≤ 65535) (ht0 : 0 ≤ t) : -97168059300 ≤ scaledRh h t := by
  have hsplit : scaledRh h t = -97168059300 + t * (1000 + 8 * h) + (65535 - h) * (28 * h + 1481980) := by
    unfold scaledRh
    ring
  have h1 : 0 ≤ t * (1000 + 8 * h) := by positivity
  have h2 : 0 ≤ (65535 - h) * (28 * h + 1481980) := mul_nonneg (by omega) (by omega)
  omega

/-- The terms of the scaled integer are far from the ends of a signed 64-bit integer (42_calibration.md R148). -/
theorem scaledRh_terms {h t : Int} (hh0 : 0 ≤ h) (hh : h ≤ 65535) (ht0 : 0 ≤ t) (ht : t ≤ 65535) :
    |(t - 6500) * (1000 + 8 * h)| ≤ 59035 * 525280 ∧ 0 ≤ 28 * h * h ∧ 28 * h * h ≤ 28 * 65535 * 65535 := by
  refine ⟨?_, by positivity, ?_⟩
  · rw [abs_mul]
    exact mul_le_mul (abs_le.mpr ⟨by omega, by omega⟩) (abs_le.mpr ⟨by omega, by omega⟩) (abs_nonneg _) (by norm_num)
  · exact mul_le_mul (by omega) hh hh0 (by norm_num)

/-- Settles O36: each stage under `Q`, and the bounds of the integers. -/
theorem exactIntegerForm : Obligations.ExactIntegerForm := by
  intro h t hi ti nc
  have hh : hi ≤ 65535 := Int.lt_add_one_iff.mp (Int.ofNat_lt.mpr h.isLt)
  have ht : ti ≤ 65535 := Int.lt_add_one_iff.mp (Int.ofNat_lt.mpr t.isLt)
  have hh0 : 0 ≤ hi := Int.natCast_nonneg _
  have ht0 : 0 ≤ ti := Int.natCast_nonneg _
  obtain ⟨hprod, hsq0, hsq⟩ := scaledRh_terms hh0 hh ht0 ht
  have hlow := scaledRh_ge hh0 hh ht0
  have hhigh : scaledRh hi ti < 2 ^ 63 := by
    have := (abs_le.mp hprod).2
    unfold scaledRh
    omega
  refine ⟨temperatureCelsius_q t, ?_, rhTrue_q h t, humidityPercent_q h t, humiTenths_q h t, by omega, hlow, rfl, rfl,
    abs_lt.mpr ⟨by omega, hhigh⟩, by omega, by omega⟩
  rw [tempTenths_q, tdiv_eq_sign_mul]

/-- Settles O43: the steps of the scaled integer are positive, and the clamp keeps the order. -/
theorem humidityIncreasesExactly : Obligations.HumidityIncreasesExactly := by
  refine ⟨fun h h' t hnext hmax => ?_, fun h t t' hlt => ?_⟩
  · have hstep : scaledRh h'.toNat t.toNat - scaledRh h.toNat t.toNat =
        8 * (t.toNat : Int) - 56 * h.toNat + 352972 := by
      rw [hnext]
      unfold scaledRh
      push_cast
      ring
    have hlt : rhTrue .q h t < rhTrue .q h' t := by
      rw [rhTrue_q, rhTrue_q]
      exact div_lt_div_of_pos_right (Int.cast_lt.mpr (by omega)) (by norm_num)
    exact ⟨hlt, clampRh_mono .q hlt.le⟩
  · have hstep : scaledRh h.toNat t'.toNat - scaledRh h.toNat t.toNat =
        ((t'.toNat : Int) - t.toNat) * (1000 + 8 * h.toNat) := by
      unfold scaledRh
      ring
    have hpos : 0 < ((t'.toNat : Int) - t.toNat) * (1000 + 8 * h.toNat) := mul_pos (by omega) (by omega)
    rw [rhTrue_q, rhTrue_q]
    exact div_lt_div_of_pos_right (Int.cast_lt.mpr (by omega)) (by norm_num)

/-! ### The tenths under both settings -/

/-- Settles O37: the ranges at `Q`. -/
theorem exactTenthsRanges : Obligations.ExactTenthsRanges := by
  intro h t
  obtain ⟨htemp, htemp'⟩ := tempTenths_range .q t
  exact ⟨htemp, htemp', humiTenths_range .q h t⟩

/-- The largest 14-bit raw value, and the two ends of the interval on which the tenths are zero (42_calibration.md
R149). -/
theorem tempTenths_ends (n : Numerics) :
    tempTenths n 16383#16 = 1238 ∧ tempTenths n 3991#16 = 0 ∧ tempTenths n 4009#16 = 0 := by
  cases n <;> decide +kernel

/-- Ten times the ends of the clamp is exact (42_calibration.md R149). -/
theorem mulNum_ten_ends (n : Numerics) : mulNum n (rhMin n) (ten n) = 1 ∧ mulNum n (rhMax n) (ten n) = 1000 := by
  cases n <;> decide +kernel

/-- Settles O38: the tenths keep the order of the raw values, so the ends of each range bound it. -/
theorem tenthsRanges : Obligations.TenthsRanges := by
  refine ⟨tempTenths_range, fun n raw hraw => ?_, fun n => ⟨tempTenths_min n, tempTenths_max n⟩,
    fun n raw hlow hhigh => ?_, mulNum_ten_ends, humiTenths_range⟩
  · rw [← (tempTenths_ends n).1]
    exact tempTenths_mono n (Nat.le_of_lt_succ hraw)
  · obtain ⟨-, hzero, hzero'⟩ := tempTenths_ends n
    have h1 := tempTenths_mono n (a := 3991#16) hlow
    have h2 := tempTenths_mono n (b := 4009#16) hhigh
    omega

/-- Rounding toward zero: within one, no larger in magnitude, of the same sign (00_scope.md R13). -/
theorem truncRat_towardZero (x : Rat) :
    |(truncRat x : Rat)| ≤ |x| ∧ |x| < |(truncRat x : Rat)| + 1 ∧ (0 ≤ x → 0 ≤ truncRat x) ∧
      (x ≤ 0 → truncRat x ≤ 0) := by
  have hpos {y : Rat} (hy : 0 ≤ y) : |(truncRat y : Rat)| ≤ |y| ∧ |y| < |(truncRat y : Rat)| + 1 := by
    have htrunc : (0 : Rat) ≤ truncRat y := Int.cast_nonneg (truncRat_nonneg hy)
    rw [abs_of_nonneg hy, abs_of_nonneg htrunc, truncRat_of_nonneg hy]
    exact ⟨Int.floor_le y, Int.lt_floor_add_one y⟩
  have hsign : x ≤ 0 → truncRat x ≤ 0 := truncRat_mono (y := 0)
  rcases le_total 0 x with hx | hx
  · obtain ⟨hle, hlt⟩ := hpos hx
    exact ⟨hle, hlt, truncRat_nonneg, hsign⟩
  · obtain ⟨hle, hlt⟩ := hpos (neg_nonneg.mpr hx)
    rw [truncRat_neg, Int.cast_neg, abs_neg, abs_neg] at hle hlt
    exact ⟨hle, hlt, truncRat_nonneg, hsign⟩

/-- Settles O39: truncation of the product, and the examples of the rule. -/
theorem tenthsRoundTowardZero : Obligations.TenthsRoundTowardZero := by
  refine ⟨fun n x => truncRat_towardZero _, fun n => ?_⟩
  cases n <;> decide +kernel

/-- The temperature on either side of 4000 (42_calibration.md R142). -/
theorem temperatureCelsius_near_zero (n : Numerics) :
    temperatureCelsius n 3999#16 < 0 ∧ temperatureCelsius n 4000#16 = 0 ∧ 0 < temperatureCelsius n 4001#16 := by
  cases n <;> decide +kernel

/-- Settles O40: the temperature keeps the order of the raw values, so its sign is that of `raw - 4000`. -/
theorem temperatureSign : Obligations.TemperatureSign := by
  intro n raw
  obtain ⟨hneg, hzero, hpos⟩ := temperatureCelsius_near_zero n
  rcases lt_trichotomy raw.toNat 4000 with hraw | hraw | hraw
  · have hlt := (temperatureCelsius_mono n (b := 3999#16) (Nat.le_of_lt_succ hraw)).trans_lt hneg
    simp only [hlt, hlt.ne, hraw, hraw.ne, and_self]
  · have hraw' : raw = 4000#16 := BitVec.eq_of_toNat_eq hraw
    simp only [hraw', hzero, lt_irrefl, BitVec.reduceToNat, and_self]
  · have hgt := hpos.trans_le (temperatureCelsius_mono n (a := 4001#16) hraw)
    simp only [not_lt.mpr hgt.le, hgt.ne', not_lt.mpr hraw.le, hraw.ne', and_self]

/-- Settles O48: the model evaluated under each setting. -/
theorem sourceExamplesAndDifferences : Obligations.SourceExamplesAndDifferences := by
  refine ⟨fun n => ?_, by decide +kernel⟩
  cases n <;> decide +kernel

end Sys2Proof.Machine

/-! # Proofs about the difference of the settings (42_calibration.md R151)

The temperature under `B64` lies between two neighbouring multiples of 1/128, which rounding leaves alone; so the tenths
can differ from those under `Q` only where the exact value is a whole number of tenths, at a multiple of ten. There the
tenths under `B64` are right above 14240, where the product is at most two fifths of a unit of the last place too low and
the last rounding makes that good; up to 14240 the multiples of ten are evaluated. -/

namespace Sys2Proof.Machine

theorem tdiv_of_nonpos {a : Int} (b : Int) (ha : a ≤ 0) : a.tdiv b = -(-a / b) := by
  rw [← Int.tdiv_eq_ediv_of_nonneg (neg_nonneg.mpr ha), Int.neg_tdiv, neg_neg]

/-! ### Between two multiples of 1/128 -/

/-- A multiple of 1/128 with a significand that fits is a binary64 number. -/
theorem isB64_div_128 {a : Int} (ha : |a| < 2 ^ 53) : IsB64 ((a : Rat) / 128) := by
  refine isB64_iff.mpr ⟨a.natAbs, -7, ?_, by norm_num, by norm_num, ?_⟩
  · rw [Int.abs_eq_natAbs] at ha
    exact_mod_cast ha
  · rw [abs_div, Nat.cast_natAbs, Int.cast_abs]
    norm_num [zpow_neg, div_eq_mul_inv]

theorem roundB64_between {a b : Int} {x : Rat} (ha : |a| < 2 ^ 53) (hb : |b| < 2 ^ 53) (hlow : (a : Rat) / 128 ≤ x)
    (hhigh : x ≤ (b : Rat) / 128) : (a : Rat) / 128 ≤ roundB64 x ∧ roundB64 x ≤ (b : Rat) / 128 := by
  rw [← roundB64_of_isB64 (isB64_div_128 ha), ← roundB64_of_isB64 (isB64_div_128 hb)]
  exact ⟨roundB64_mono hlow, roundB64_mono hhigh⟩

/-- `T_SCALE` under `B64` is a little above 1/100 (42_calibration.md R141). -/
theorem tScale_b64_bounds : 1 / 100 ≤ tScale .b64 ∧ tScale .b64 ≤ 1 / 100 + 1 / 10 ^ 12 := by
  decide +kernel

theorem mul_tScale_b64_bounds (v : Nat) :
    (v : Rat) / 100 ≤ v * tScale .b64 ∧ v * tScale .b64 ≤ (v : Rat) / 100 + v / 10 ^ 12 := by
  obtain ⟨hlow, hhigh⟩ := tScale_b64_bounds
  have hv : (0 : Rat) ≤ v := Nat.cast_nonneg v
  have hlow' := mul_le_mul_of_nonneg_left hlow hv
  have hhigh' := mul_le_mul_of_nonneg_left hhigh hv
  exact ⟨by linarith, by linarith⟩

theorem tOffset_b64 : tOffset .b64 = 40 := by
  decide +kernel

theorem ten_b64 : ten .b64 = 10 := by
  decide +kernel

theorem temperatureCelsius_b64 (raw : U16) :
    temperatureCelsius .b64 raw = roundB64 (roundB64 ((raw.toNat : Rat) * tScale .b64) - 40) := by
  rw [← tOffset_b64]
  rfl

theorem tempTenths_b64 (raw : U16) :
    tempTenths .b64 raw = truncRat (roundB64 (temperatureCelsius .b64 raw * 10)) := by
  rw [← ten_b64]
  rfl

/-- The temperature under `B64` lies between the two multiples of 1/128 around the exact value. -/
theorem temperatureCelsius_b64_between {raw : U16} {p : Int} (hp : p = 32 * (raw.toNat : Int) / 25) :
    ((p - 5120 : Int) : Rat) / 128 ≤ temperatureCelsius .b64 raw ∧
      temperatureCelsius .b64 raw ≤ ((p + 1 - 5120 : Int) : Rat) / 128 := by
  obtain ⟨hscale, hscale'⟩ := mul_tScale_b64_bounds raw.toNat
  have hlt := raw.isLt
  have hraw : (raw.toNat : Rat) ≤ 65535 := by exact_mod_cast Nat.le_of_lt_succ hlt
  have hpq : (25 * p : Rat) ≤ 32 * raw.toNat := by exact_mod_cast (by omega : 25 * p ≤ 32 * raw.toNat)
  have hpq' : (32 * raw.toNat + 1 : Rat) ≤ 25 * (p + 1) := by
    exact_mod_cast (by omega : 32 * (raw.toNat : Int) + 1 ≤ 25 * (p + 1))
  obtain ⟨hprod, hprod'⟩ := roundB64_between (a := p) (b := p + 1) (x := raw.toNat * tScale .b64)
    (abs_lt.mpr ⟨by omega, by omega⟩) (abs_lt.mpr ⟨by omega, by omega⟩) (by linarith) (by push_cast; linarith)
  rw [temperatureCelsius_b64]
  push_cast at hprod'
  exact roundB64_between (abs_lt.mpr ⟨by omega, by omega⟩) (abs_lt.mpr ⟨by omega, by omega⟩)
    (by push_cast; linarith) (by push_cast; linarith)

/-- The tenths under `B64` lie between those of the two multiples of 1/128 around the exact value. -/
theorem tempTenths_b64_between (raw : U16) :
    (10 * (32 * (raw.toNat : Int) / 25) - 51200).tdiv 128 ≤ tempTenths .b64 raw ∧
      tempTenths .b64 raw ≤ (10 * (32 * (raw.toNat : Int) / 25 + 1) - 51200).tdiv 128 := by
  obtain ⟨p, hp⟩ : ∃ p : Int, p = 32 * (raw.toNat : Int) / 25 := ⟨_, rfl⟩
  obtain ⟨htemp, htemp'⟩ := temperatureCelsius_b64_between hp
  have hlt := raw.isLt
  rw [← hp]
  push_cast at htemp htemp'
  obtain ⟨hten, hten'⟩ := roundB64_between (a := 10 * p - 51200) (b := 10 * (p + 1) - 51200)
    (x := temperatureCelsius .b64 raw * 10) (abs_lt.mpr ⟨by omega, by omega⟩) (abs_lt.mpr ⟨by omega, by omega⟩)
    (by push_cast; linarith) (by push_cast; linarith)
  rw [tempTenths_b64]
  exact ⟨(truncRat_intCast_div _ 128).symm.trans_le (truncRat_mono hten),
    (truncRat_mono hten').trans_eq (truncRat_intCast_div _ 128)⟩

/-- Away from the multiples of ten the settings agree. -/
theorem tempTenths_b64_of_not_dvd {raw : U16} (h : ¬ 10 ∣ raw.toNat) : tempTenths .b64 raw = tempTenths .q raw := by
  obtain ⟨hlow, hhigh⟩ := tempTenths_b64_between raw
  obtain ⟨k, hk⟩ : ∃ k : Int, k = (raw.toNat : Int) / 10 := ⟨_, rfl⟩
  obtain ⟨p, hp⟩ : ∃ p : Int, p = 32 * (raw.toNat : Int) / 25 := ⟨_, rfl⟩
  have hkp : 128 * k < 10 * p := by omega
  have hkp' : 10 * (p + 1) < 128 * (k + 1) := by omega
  rw [← hp] at hlow hhigh
  clear hp
  rw [tempTenths_q]
  rcases le_total 4000 raw.toNat with hraw | hraw
  · rw [Int.tdiv_eq_ediv_of_nonneg (by omega)] at hlow hhigh ⊢
    omega
  · rw [tdiv_of_nonpos _ (by omega)] at hlow hhigh ⊢
    omega

/-! ### High temperatures -/

/-- Subtracting a whole number from a larger number leaves its last place, and so is exact. -/
theorem isB64_sub_natCast {y : Rat} {c : Nat} (hc : 0 < c) (hy : IsB64 y) (hcy : (c : Rat) ≤ y)
    (hbound : y < 2 ^ (52 : Int)) : IsB64 (y - c) := by
  have hpos : 0 < y := (Nat.cast_pos.mpr hc).trans_le hcy
  obtain ⟨k, hk, hk53, -⟩ := isB64_significand hpos hy
  have hexp : lastPlace y ≤ 0 := by
    by_contra h
    have hle := two_zpow_lastPlace_le hpos (by omega)
    have := zpow_lt_two (hle.trans_lt hbound)
    omega
  obtain ⟨p, hp⟩ := Int.eq_ofNat_of_zero_le (neg_nonneg.mpr hexp)
  have hunit : (0 : Rat) < 2 ^ lastPlace y := by positivity
  have hone : (2 : Rat) ^ p * 2 ^ lastPlace y = 1 := two_pow_mul_zpow (by omega)
  have hcunits : (c : Rat) = ((c * 2 ^ p : Nat) : Rat) * 2 ^ lastPlace y := by
    rw [Nat.cast_mul, Nat.cast_pow, Nat.cast_ofNat, mul_assoc, hone, mul_one]
  have hck : c * 2 ^ p ≤ k := by
    rw [hcunits] at hcy
    conv_rhs at hcy => rw [hk]
    exact_mod_cast le_of_mul_le_mul_right hcy hunit
  have hsub : y - c = ((k - c * 2 ^ p : Nat) : Rat) * 2 ^ lastPlace y := by
    rw [Nat.cast_sub hck, sub_mul, ← hk, ← hcunits]
  rw [hsub]
  exact isB64_of_le (by omega) (le_lastPlace y) (by omega)

/-- Ties to even go up to an even number from one half below it. -/
theorem even_le_of_half_below {k N : Nat} (hhalf : |(k : Rat) - ((2 * N : Nat) - 1 / 2)| ≤ 1 / 2)
    (htie : |(k : Rat) - ((2 * N : Nat) - 1 / 2)| = 1 / 2 → k % 2 = 0) : 2 * N ≤ k := by
  by_contra hlt
  have hbelow : (k : Rat) + 1 ≤ (2 * N : Nat) := by exact_mod_cast not_le.mp hlt
  have heven := htie (le_antisymm hhalf (le_abs.mpr (.inr (by linarith))))
  have habove : (2 * N : Nat) ≤ (k : Rat) + 1 := by linarith [(abs_le.mp hhalf).1]
  have habove' : 2 * N ≤ k + 1 := by exact_mod_cast habove
  omega

/-- Half a unit of the last place below a whole number is rounded back to it (42_calibration.md R140, a tie). -/
theorem roundB64_half_unit_below {m s : Nat} (hs : s < 52) (hlow : 2 ^ s < m) (hhigh : m ≤ 2 ^ (s + 1)) :
    (m : Rat) ≤ roundB64 (m - 2 ^ ((s : Int) - 53)) := by
  obtain ⟨p, hp⟩ : ∃ p : Nat, 52 = s + 1 + p := ⟨51 - s, by omega⟩
  have hexp : (s : Int) - 53 = s - 52 - 1 := by ring
  rw [hexp, zpow_sub_one₀ two_ne_zero]
  have hcount : (2 : Rat) ^ (p + 1) * 2 ^ ((s : Int) - 52) = 1 := two_pow_mul_zpow (by omega)
  have hlowq : (2 : Rat) ^ (52 + ((s : Int) - 52)) + 1 ≤ m := by
    rw [add_sub_cancel, zpow_natCast]
    exact_mod_cast hlow
  have hhighq : (m : Rat) ≤ 2 ^ (53 + ((s : Int) - 52)) := by
    have hsucc : 53 + ((s : Int) - 52) = (s + 1 : Nat) := by push_cast; ring
    rw [hsucc, zpow_natCast]
    exact_mod_cast hhigh
  have hbase : (0 : Rat) < 2 ^ (52 + ((s : Int) - 52)) := by positivity
  have hunit : (0 : Rat) < 2 ^ ((s : Int) - 52) := by positivity
  have hunit1 : (2 : Rat) ^ ((s : Int) - 52) ≤ 1 := zpow_le_one_of_nonpos₀ one_le_two (by omega)
  have hlast : lastPlace ((m : Rat) - 2 ^ ((s : Int) - 52) * 2⁻¹) = (s : Int) - 52 :=
    lastPlace_eq (by omega) (by linarith) (by linarith)
  obtain ⟨k, hk, hhalf, htie⟩ := roundB64_units (x := (m : Rat) - 2 ^ ((s : Int) - 52) * 2⁻¹) (by linarith)
  rw [hlast] at hk hhalf htie
  rw [hk]
  generalize (2 : Rat) ^ ((s : Int) - 52) = u at *
  -- `m` is an even number of units, and `k` is within half a unit of `m` less a half
  have hm : (m : Rat) = ((2 * (m * 2 ^ p) : Nat) : Rat) * u := by
    push_cast
    linear_combination -(m : Rat) * hcount
  have hquot : ((m : Rat) - u * 2⁻¹) / u = ((2 * (m * 2 ^ p) : Nat) : Rat) - 1 / 2 := by
    rw [div_eq_iff hunit.ne', sub_mul, ← hm]
    ring
  rw [hquot] at hhalf htie
  rw [hm]
  exact mul_le_mul_of_nonneg_right (Nat.cast_le.mpr (even_le_of_half_below hhalf htie)) hunit.le

/-- The product of R142 under `B64` is at most two fifths of a unit below the exact one, at a multiple of ten. -/
theorem le_product_b64 {k p : Nat} {u : Rat} (hu : u = 2 ^ (-(p + 1 : Int))) (hp : p ≤ 1000) (hk0 : 0 < k)
    (hk : k * 2 ^ p ≤ 5 * 2 ^ 53 - 2) :
    (k : Rat) / 10 - 2 / 5 * u ≤ roundB64 (((10 * k : Nat) : Rat) * tScale .b64) := by
  have hunits : (2 : Rat) ^ (p + 1) * u = 1 := hu ▸ two_pow_mul_zpow (by omega)
  have hu0 : 0 < u := hu ▸ (by positivity)
  have hkq : (0 : Rat) < k / 10 := by positivity
  have hexact : (k : Rat) / 10 = (k * 2 ^ p : Nat) / 5 * u := by
    push_cast
    linear_combination -(k : Rat) / 10 * hunits
  -- the nearest whole number of units
  obtain ⟨j, hj⟩ : ∃ j, j = (k * 2 ^ p + 2) / 5 := ⟨_, rfl⟩
  have hjq : |(j : Rat) - (k * 2 ^ p : Nat) / 5| ≤ 2 / 5 := by
    have h1 : (5 * j : Rat) ≤ (k * 2 ^ p : Nat) + 2 := by exact_mod_cast (by omega : 5 * j ≤ k * 2 ^ p + 2)
    have h2 : ((k * 2 ^ p : Nat) : Rat) ≤ 5 * j + 2 := by exact_mod_cast (by omega : k * 2 ^ p ≤ 5 * j + 2)
    rw [abs_le]
    constructor <;> linarith
  have hrep : IsB64 (j * u) := hu ▸ isB64_of_le (by omega) (by omega) (by omega)
  have hnear := (roundB64_nearest_pos hkq hrep).1
  have hdist : |(j : Rat) * u - k / 10| ≤ 2 / 5 * u := by
    rw [hexact, ← sub_mul, abs_mul, abs_of_pos hu0]
    exact mul_le_mul_of_nonneg_right hjq hu0.le
  have hround := (abs_le.mp (hnear.trans hdist)).1
  have hmono : roundB64 ((k : Rat) / 10) ≤ roundB64 (((10 * k : Nat) : Rat) * tScale .b64) := by
    have hscale := (mul_tScale_b64_bounds (10 * k)).1
    refine roundB64_mono (le_trans (le_of_eq ?_) hscale)
    push_cast
    ring
  linarith

/-- The product of R142 under `B64` is a binary64 number, of at most 1024. -/
theorem product_b64_range (raw : U16) :
    IsB64 (roundB64 (raw.toNat * tScale .b64)) ∧ roundB64 (raw.toNat * tScale .b64) ≤ 1024 := by
  obtain ⟨hscale, hscale'⟩ := mul_tScale_b64_bounds raw.toNat
  have hraw : (raw.toNat : Rat) ≤ 65535 := by exact_mod_cast Nat.le_of_lt_succ raw.isLt
  have hnonneg : 0 ≤ raw.toNat * tScale .b64 := le_trans (by positivity) hscale
  have hle : raw.toNat * tScale .b64 ≤ 1024 := by linarith
  have hbound : |raw.toNat * tScale .b64| < 2 ^ 1000 := by
    rw [abs_of_nonneg hnonneg]
    refine (hle.trans_eq ?_).trans_lt (pow_lt_pow_right₀ one_lt_two (by norm_num : 10 < 1000))
    norm_num
  have hfixed : roundB64 1024 = 1024 := by decide +kernel
  exact ⟨(roundingIsToNearest _ hbound).1, hfixed ▸ roundB64_mono hle⟩

/-- A whole number of tenths above 1024 is reached: the error of the product is at most two fifths of a unit, the
difference is exact, and ten times it is at most half a unit of the last place of the tenths below them. -/
theorem le_tempTenths_b64 {raw : U16} {m s : Nat} (hraw : raw.toNat = 10 * (m + 400)) (hs : 10 ≤ s) (hs' : s < 52)
    (hlow : 2 ^ s < m) (hhigh : m ≤ 2 ^ (s + 1)) : (m : Int) ≤ tempTenths .b64 raw := by
  obtain ⟨p, hp⟩ : ∃ p : Nat, 54 = s + p := ⟨54 - s, by omega⟩
  obtain ⟨hrep, hmax⟩ := product_b64_range raw
  have hsig : (m + 400) * 2 ^ p ≤ 5 * 2 ^ 53 - 2 := by
    have hprod : 2 ^ (s + 1) * 2 ^ p = 2 ^ 55 := by
      rw [← pow_add]
      congr 1
      omega
    have hp44 : 2 ^ p ≤ 2 ^ 44 := Nat.pow_le_pow_right (by norm_num) (by omega)
    have := Nat.mul_le_mul_right (2 ^ p) hhigh
    rw [Nat.add_mul]
    omega
  obtain ⟨u, hu⟩ : ∃ u : Rat, u = 2 ^ (-(p + 1 : Int)) := ⟨_, rfl⟩
  have hproduct := le_product_b64 hu (by omega) (by omega) hsig
  have hu1 : u ≤ 1 := hu ▸ zpow_le_one_of_nonpos₀ one_le_two (by omega)
  have hhalf : (2 : Rat) ^ ((s : Int) - 53) = 4 * u := by
    have hexp : (s : Int) - 53 = 2 + -(p + 1 : Int) := by omega
    rw [hexp, zpow_add₀ two_ne_zero, ← hu]
    norm_num
  rw [← hraw] at hproduct
  have hm : (1024 : Rat) ≤ m := by
    have : 2 ^ 10 ≤ 2 ^ s := Nat.pow_le_pow_right (by norm_num) hs
    exact_mod_cast (by omega : 1024 ≤ m)
  have hexact := isB64_sub_natCast (c := 40) (by norm_num) hrep (by push_cast at hproduct ⊢; linarith)
    (hmax.trans_lt (by norm_num))
  have htimes : (m : Rat) - 2 ^ ((s : Int) - 53) ≤ temperatureCelsius .b64 raw * 10 := by
    rw [Nat.cast_ofNat] at hexact
    rw [temperatureCelsius_b64, roundB64_of_isB64 hexact, hhalf]
    push_cast at hproduct
    linarith
  have htrunc := truncRat_mono ((roundB64_half_unit_below hs' hlow hhigh).trans (roundB64_mono htimes))
  rwa [← tempTenths_b64, truncRat_of_nonneg (Nat.cast_nonneg m), Int.floor_natCast] at htrunc

/-- Above 14240 the settings agree. -/
theorem tempTenths_b64_of_high {raw : U16} (h : 14250 ≤ raw.toNat) : tempTenths .b64 raw = tempTenths .q raw := by
  by_cases hdvd : 10 ∣ raw.toNat
  · obtain ⟨k, hk⟩ := hdvd
    have hlt := raw.isLt
    obtain ⟨m, rfl⟩ : ∃ m, k = m + 400 := ⟨k - 400, by omega⟩
    have hlow : (m : Int) ≤ tempTenths .b64 raw := by
      rcases le_or_gt m 2048 with h11 | h11
      · exact le_tempTenths_b64 (s := 10) hk (by norm_num) (by norm_num) (by omega) (by omega)
      · rcases le_or_gt m 4096 with h12 | h12
        · exact le_tempTenths_b64 (s := 11) hk (by norm_num) (by norm_num) (by omega) (by omega)
        · exact le_tempTenths_b64 (s := 12) hk (by norm_num) (by norm_num) (by omega) (by omega)
    have hhigh := (tempTenths_b64_between raw).2
    rw [Int.tdiv_eq_ediv_of_nonneg (by omega)] at hhigh
    rw [tempTenths_q, Int.tdiv_eq_ediv_of_nonneg (by omega)]
    omega
  · exact tempTenths_b64_of_not_dvd hdvd

/-! ### The listed raw values -/

/-- The multiples of ten below 14250 on which the settings differ are those of the list (42_calibration.md R151). -/
theorem differing_below :
    ((List.range 1425).map (10 * ·)).filter
      (fun n => tempTenths .b64 (BitVec.ofNat 16 n) ≠ ((n : Int) - 4000).tdiv 10) = differingTemperatures := by
  decide +kernel

/-- On the list `B64` is one less in magnitude (42_calibration.md R151). -/
theorem differing_magnitude : ∀ n ∈ differingTemperatures,
    |tempTenths .b64 (BitVec.ofNat 16 n)| = |((n : Int) - 4000).tdiv 10| - 1 := by
  decide +kernel

theorem mem_differingTemperatures_iff (raw : U16) :
    raw.toNat ∈ differingTemperatures ↔
      (10 ∣ raw.toNat ∧ raw.toNat < 14250) ∧ tempTenths .b64 raw ≠ tempTenths .q raw := by
  rw [← differing_below, List.mem_filter, BitVec.ofNat_toNat, BitVec.setWidth_eq, ← tempTenths_q, decide_eq_true_eq]
  refine and_congr_left fun _ => ⟨fun h => ?_, fun h => ?_⟩
  · obtain ⟨k, hk, hraw⟩ := List.mem_map.mp h
    have := List.mem_range.mp hk
    omega
  · obtain ⟨⟨k, hk⟩, hlt⟩ := h
    exact List.mem_map.mpr ⟨k, List.mem_range.mpr (by omega), hk.symm⟩

/-- Settles O41: the settings agree above 14240 and away from the multiples of ten; the rest is the list. -/
theorem settingsDifferOnListedTemperatures : Obligations.SettingsDifferOnListedTemperatures := by
  refine ⟨rfl, fun raw => ⟨⟨fun hne => ?_, fun hmem => ((mem_differingTemperatures_iff raw).mp hmem).2⟩,
    fun hmem => ?_⟩⟩
  · refine (mem_differingTemperatures_iff raw).mpr ⟨⟨?_, ?_⟩, hne⟩
    · by_contra hdvd
      exact hne (tempTenths_b64_of_not_dvd hdvd)
    · by_contra hhigh
      exact hne (tempTenths_b64_of_high (not_lt.mp hhigh))
  · have h := differing_magnitude raw.toNat hmem
    rwa [BitVec.ofNat_toNat, BitVec.setWidth_eq, ← tempTenths_q] at h

end Sys2Proof.Machine

/-! # Proofs about the compound read (43_read_api.md)

From a ready state `READ` ends in `runRead s`, whose fields `runRead_leaves` gives in terms of the two stages the answers
decide. Left to say is what a stage leaves when it fails, what the slot takes from two codes, and that the humidity keeps
the order of the raw temperatures, so that `H10` at the last raw temperature of R163 bounds it at those below. -/

namespace Sys2Proof.Machine

/-! ### What a stage leaves (43_read_api.md R163) -/

/-- A failed stage leaves what `FAIL_RAW` selects. -/
theorem rawAfter_failed {g : Stage} (h : g.code ≠ .ok) (p : Params) (draw : Nat) (old : U16) :
    (p.failRaw = .zero → rawAfter p draw old g = 0#16) ∧ (p.failRaw = .stale → rawAfter p draw old g = old) ∧
      (p.failRaw = .any → rawAfter p draw old g = Config.freeRaw draw) := by
  unfold rawAfter
  cases hcode : g.code with
  | ok => exact absurd hcode h
  | writeError | timeout => exact ⟨fun hset => by rw [hset], fun hset => by rw [hset], fun hset => by rw [hset]⟩

theorem drawsOf_ok {g : Stage} (h : g.code = .ok) (p : Params) : drawsOf p g = 0 := by
  unfold drawsOf
  rw [h]

theorem drawsOf_failed {g : Stage} (h : g.code ≠ .ok) {p : Params} (hany : p.failRaw = .any) : drawsOf p g = 1 := by
  unfold drawsOf
  cases hcode : g.code with
  | ok => exact absurd hcode h
  | writeError | timeout => rw [hany]

/-- A measurement acknowledged and ready at its first poll, wherever its answers begin (41_sequencer.md R121). -/
theorem stageAt_atOnce {s : State} {k : Nat} (hack : upcoming s k = false) (hlow : upcoming s (k + 1) = false) :
    stageAt s k = ⟨.ok, assembleRaw (byteOf fun i => upcoming s (k + 2 + i))
      (byteOf fun i => upcoming s (k + 10 + i)), 1, 26⟩ :=
  stageAt_ready (j := 0) hack (by decide) nofun hlow

/-! ### The tenths after a failure -/

theorem mulNum_nonneg (n : Numerics) {x y : Rat} (hx : 0 ≤ x) (hy : 0 ≤ y) : 0 ≤ mulNum n x y :=
  literal_nonneg n (mul_nonneg hx hy)

theorem addNum_nonneg (n : Numerics) {x y : Rat} (hx : 0 ≤ x) (hy : 0 ≤ y) : 0 ≤ addNum n x y :=
  literal_nonneg n (add_nonneg hx hy)

/-- The humidity keeps the order of the raw temperatures (42_calibration.md R144 to R147). -/
theorem humiTenths_mono_temp (n : Numerics) (rawHumi : U16) {a b : U16} (h : a.toNat ≤ b.toNat) :
    humiTenths n rawHumi a ≤ humiTenths n rawHumi b := by
  have hdiff : subNum n (temperatureCelsius n a) (tRef n) ≤ subNum n (temperatureCelsius n b) (tRef n) :=
    roundNum_mono n (sub_le_sub_right (temperatureCelsius_mono n h) _)
  have ht1 : 0 ≤ t1 n := literal_nonneg n (by norm_num)
  have ht2 : 0 ≤ t2 n := literal_nonneg n (by norm_num)
  have hslope : 0 ≤ addNum n (t1 n) (mulNum n (t2 n) (ofU16 rawHumi)) :=
    addNum_nonneg n ht1 (mulNum_nonneg n ht2 (Nat.cast_nonneg _))
  have htrue : rhTrue n rawHumi a ≤ rhTrue n rawHumi b :=
    roundNum_mono n (add_le_add_left (mulNum_mono_left n hslope hdiff) _)
  exact tenths_mono n (clampRh_mono n htrue)

/-- The highest raw temperature at which R163 gives `H10 = 1` for a raw humidity of 0 (43_read_api.md). -/
theorem humiTenths_zero_last (n : Numerics) : humiTenths n 0#16 47500#16 = 1 := by
  cases n <;> decide +kernel

theorem humiTenths_zero {raw : U16} (n : Numerics) (h : raw.toNat ≤ 47500) : humiTenths n 0#16 raw = 1 := by
  have hhigh := humiTenths_mono_temp n 0#16 (b := 47500#16) h
  rw [humiTenths_zero_last] at hhigh
  exact le_antisymm hhigh (humiTenths_range n 0#16 raw).1

/-! ### The statements -/

theorem exec_read_ready {s : State} (h : Ready s) : exec .read s = .next (runRead s) := by
  rw [exec_read, accept_ready h]

/-- Settles O29: the fields `read` leaves, with the division of R164 written out. -/
theorem readRunsBothStages : Obligations.ReadRunsBothStages := by
  intro s hready
  have hr := runRead_leaves s
  refine ⟨runRead s, exec_read_ready hready, hr.rawT, hr.t10, hr.rawH, hr.h10, hr.lastErr,
    ⟨?_, hr.resWritten, hr.clk, hr.ddrv⟩, ?_, hr.seq, hr.log, hr.takes, hr.rawDraws, hr.calOut, hr.params, hr.requests,
    hr.bitcnt, hr.commandDue⟩
  · rw [hr.res]
    simp only [tenthsToNumber, divNum, ten, Int.cast_natCast]
  · rw [hr.res]
    rfl

/-- Settles O30: the three branches of the slot's update, and that only `read` writes it. -/
theorem lastErrorSlot : Obligations.LastErrorSlot := by
  constructor
  · intro s hready
    refine ⟨runRead s, exec_read_ready hready, ?_⟩
    rw [(runRead_leaves s).lastErr, lastErrAfter]
    refine ⟨fun hhumi => if_pos hhumi, fun hhumi htemp => ?_, fun hhumi htemp => ?_⟩
    · rw [if_neg (not_not.mpr hhumi), if_pos htemp]
    · rw [if_neg (not_not.mpr hhumi), if_neg (not_not.mpr htemp)]
  · intro i s t h hread
    obtain ⟨hkeeps, -⟩ := onlyReadWritesTheDataRegisters i s t h
    exact (hkeeps hread).1.lastErr

/-- Settles O31: the substitute of a failed stage, and the tenths of the raw temperature 0. -/
theorem failedTemperatureStage : Obligations.FailedTemperatureStage := by
  intro s hready hfailed
  have hr := runRead_leaves s
  obtain ⟨hzero, hstale, hany⟩ := rawAfter_failed hfailed s.params s.rawDraws s.rawT
  refine ⟨runRead s, exec_read_ready hready, fun hset => ?_, fun hset => hr.rawT.trans (hstale hset), fun hset => ?_⟩
  · have hraw : (runRead s).rawT = 0#16 := hr.rawT.trans (hzero hset)
    refine ⟨hraw, ?_⟩
    rw [hr.t10, hraw, tempTenths_min]
    rfl
  · have hdraws := hr.rawDraws
    rw [drawsOf_failed hfailed hset] at hdraws
    exact ⟨hr.rawT.trans (hany hset), by omega⟩

/-- Settles O32: both stages are decided at their first poll, the second from the 26th answer on. -/
theorem goodReadKeepsWhatWasSent : Obligations.GoodReadKeepsWhatWasSent := by
  intro s hready hackT hlowT hackH hlowH
  have hr := runRead_leaves s
  have hT := stageAt_firstPoll hackT hlowT
  have hH : stageAt s (stageAt s 0).used = ⟨.ok, assembleRaw (byteOf fun i => upcoming s (28 + i))
      (byteOf fun i => upcoming s (36 + i)), 1, 26⟩ := by
    rw [hT]
    exact stageAt_atOnce hackH hlowH
  refine ⟨runRead s, exec_read_ready hready, ?_, ?_, hr.t10, hr.h10, fun hclear => ?_, ?_, ?_⟩
  · rw [hr.rawT, hT]
    exact assembleRaw_toNat _ _
  · rw [hr.rawH, hH]
    exact assembleRaw_toNat _ _
  · rw [hr.lastErr, hH, hT, hclear]
    rfl
  · rw [hr.seq, hH]
    rfl
  · have htakes := hr.takes
    rwa [hH, hT] at htakes

/-- Settles O60: the substitute of a failed stage, numbered after a failed temperature's, and the tenths of the raw
humidity 0. -/
theorem failedHumidityStage : Obligations.FailedHumidityStage := by
  intro s hready hfailed
  have hr := runRead_leaves s
  obtain ⟨hzero, hstale, hany⟩ := rawAfter_failed hfailed s.params
    (s.rawDraws + drawsOf s.params (stageAt s 0)) s.rawH
  refine ⟨runRead s, exec_read_ready hready, fun hset => ?_, fun hset => hr.rawH.trans (hstale hset), fun hset => ?_⟩
  · have hraw : (runRead s).rawH = 0#16 := hr.rawH.trans (hzero hset)
    refine ⟨hraw, fun hlow => ?_⟩
    rw [hr.h10, hraw, humiTenths_zero _ hlow]
    rfl
  · have hdraw : s.rawDraws + drawsOf s.params (stageAt s 0) =
        if (stageAt s 0).code = .ok then s.rawDraws else s.rawDraws + 1 := by
      split
      · next hok => rw [drawsOf_ok hok, Nat.add_zero]
      · next hfailedT => rw [drawsOf_failed hfailedT hset]
    rw [← hdraw]
    exact ⟨hr.rawH.trans (hany hset), by rw [hr.rawDraws, drawsOf_failed hfailed hset]⟩

end Sys2Proof.Machine

/-! # Proofs about the exceptions (60_exceptions.md)

A sequencer operation ends by a code, which fixes the code of its result, its end state and its last events (`EndsBy`).
That every one of them ends so, by a code its row of R171 allows, is said once (`exec_endsBy`). -/

namespace Sys2Proof.Machine

/-! ### The end of a sequencer operation -/

/-- The last events of a sequencer operation, by the code it ends with (60_exceptions.md R175): after the sample that
fails only the end of its clock pulse, which a poll does not have, and the write of `SEQ`. -/
def endEvents : Code → List Event
  | .ok => [.seq .done]
  | .writeError => [.smp true, .clkLo, .seq .failed]
  | .timeout => [.smp true, .seq .failed]

/-- What the code of a sequencer operation decides about its end (41_sequencer.md R120, 60_exceptions.md R175). -/
structure EndsBy (c : Code) (s t : State) : Prop where
  code : resultCode t.res = some c
  seq : t.seq = seqOfCode c
  trace : ∃ before, Adds s t (before ++ endEvents c)

theorem endsBy_of_suffix {c : Code} {s t : State} {es : List Event} (hcode : resultCode t.res = some c)
    (hseq : t.seq = seqOfCode c) (hadds : Adds s t es) (hend : endEvents c <:+ es) : EndsBy c s t := by
  obtain ⟨before, rfl⟩ := hend
  exact ⟨hcode, hseq, before, hadds⟩

theorem seqOfCode_eq_failed {c : Code} : seqOfCode c = .failed ↔ c = .writeError ∨ c = .timeout := by
  cases c <;> decide

theorem seqOfCode_cases (c : Code) : seqOfCode c = .failed ∨ seqOfCode c = .done := by
  cases c <;> decide

/-- A failure code comes without payload (60_exceptions.md R170). -/
theorem resultCode_eq_failure {r : Result} {c : Code} (hc : c ≠ .ok) : resultCode r = some c ↔ r = .code c := by
  cases r with
  | code c' => simp [resultCode]
  | okRaw raw => simp [resultCode, hc.symm]
  | okStatus status chk => simp [resultCode, hc.symm]
  | _ => simp [resultCode]

/-- The result shows a failure exactly where the operation ended by it. -/
theorem EndsBy.res_eq_failure {c c' : Code} {s t : State} (h : EndsBy c s t) (hc' : c' ≠ .ok) :
    t.res = .code c' ↔ c = c' := by
  rw [← resultCode_eq_failure hc', h.code, Option.some.injEq]

/-! ### The last events of each operation -/

/-- A byte written last ends the operation: its answer decides how (40_transport.md R102). -/
theorem endEvents_suffix_write (before : List Event) (v : Byte) (ack : Bool) :
    endEvents (ackCode ack) <:+ before ++ writeEvents v ack ++ [.seq (seqOfCode (ackCode ack))] := by
  cases ack with
  | false => exact List.suffix_append _ _
  | true =>
    refine ⟨before ++ ((bitsMsb v).flatMap (fun b => [.drv b, .clkHi, .clkLo]) ++ [.rel, .clkHi]), ?_⟩
    simp [endEvents, writeEvents, ackCode, seqOfCode]

/-- The last poll that is answered High ends a measurement (41_sequencer.md R122). -/
theorem endEvents_suffix_poll (before : List Event) (n : Nat) :
    endEvents .timeout <:+ before ++ highPolls (n + 1) ++ [.seq .failed] := by
  refine ⟨before ++ (highPolls n ++ [.waitMs]), ?_⟩
  simp [endEvents, highPolls, List.replicate_succ']

theorem endEvents_suffix_measure (kind : Kind) (s : State) :
    endEvents (stageAt s 0).code <:+ measureEvents kind s 0 := by
  unfold measureEvents
  rcases stageAt_cases s 0 with ⟨hnack, hg⟩ | ⟨-, -, hg⟩ | ⟨j, -, -, -, -, hg⟩ <;> rw [hg]
  · rw [hnack]
    exact endEvents_suffix_write _ _ true
  · exact List.suffix_append_of_suffix (endEvents_suffix_poll _ 239)
  · exact List.suffix_append_of_suffix (List.suffix_append _ _)

theorem endEvents_suffix_statusRead (s : State) : endEvents (ackCode (upcoming s 0)) <:+ statusReadEvents s := by
  unfold statusReadEvents
  cases upcoming s 0 with
  | false => exact List.suffix_append _ _
  | true => exact endEvents_suffix_write _ _ true

/-- The code of a status register write: the value byte is sent where the command byte is acknowledged
(41_sequencer.md R124). -/
def statusWriteCode (s : State) : Code :=
  if upcoming s 0 then .writeError else ackCode (upcoming s 1)

theorem endEvents_suffix_statusWrite (v : Byte) (s : State) :
    endEvents (statusWriteCode s) <:+ statusWriteEvents v s := by
  unfold statusWriteEvents statusWriteCode
  cases upcoming s 0 with
  | false => exact endEvents_suffix_write _ _ _
  | true => exact endEvents_suffix_write _ _ true

theorem endEvents_suffix_softReset (s : State) : endEvents (ackCode (upcoming s 0)) <:+ softResetEvents s := by
  unfold softResetEvents
  cases upcoming s 0 with
  | false => exact List.suffix_append_of_suffix (List.suffix_append [Event.seq .commandSent] _)
  | true => exact endEvents_suffix_write _ _ true

/-! ### The code of each operation -/

theorem resultCode_stage (g : Stage) : resultCode g.result = some g.code := by
  unfold Stage.result
  split <;> simp [resultCode, *]

theorem runMeasure_endsBy (kind : Kind) (s : State) : EndsBy (stageAt s 0).code s (runMeasure kind s) := by
  refine endsBy_of_suffix ?_ ?_ (runMeasure_adds kind s) (endEvents_suffix_measure kind s)
  · rw [runMeasure_res, resultCode_stage]
  · rw [runMeasure_eq]
    rfl

theorem runReadStatus_endsBy (s : State) : EndsBy (ackCode (upcoming s 0)) s (runReadStatus s) := by
  refine endsBy_of_suffix ?_ ?_ (runReadStatus_adds s) (endEvents_suffix_statusRead s)
  all_goals
    cases h : upcoming s 0 with
    | false => rw [runReadStatus, readStatusRegister_ok h]; rfl
    | true => rw [runReadStatus, readStatusRegister_refused h]; rfl

theorem runWriteStatus_endsBy (v : Byte) (s : State) : EndsBy (statusWriteCode s) s (runWriteStatus v s) := by
  refine endsBy_of_suffix ?_ ?_ (runWriteStatus_adds v s) (endEvents_suffix_statusWrite v s)
  all_goals
    unfold statusWriteCode
    cases h : upcoming s 0 with
    | false => rw [runWriteStatus, writeStatusRegister_sent v h]; rfl
    | true => rw [runWriteStatus, writeStatusRegister_refused v h]; rfl

theorem runSoftReset_endsBy (s : State) : EndsBy (ackCode (upcoming s 0)) s (runSoftReset s) := by
  obtain ⟨hends, hseq⟩ := runSoftReset_ends s
  exact endsBy_of_suffix (by rw [hends.res]; rfl) hseq (runSoftReset_adds s) (endEvents_suffix_softReset s)

/-! ### The codes of the table -/

theorem mem_measureCodes (c : Code) : some c ∈ [some Code.ok, some .writeError, some .timeout] := by
  cases c <;> decide

theorem ackCode_mem_codes (ack : Bool) : some (ackCode ack) ∈ [some Code.ok, some .writeError] := by
  cases ack <;> decide

theorem statusWriteCode_mem_codes (s : State) : some (statusWriteCode s) ∈ [some Code.ok, some .writeError] := by
  unfold statusWriteCode
  cases upcoming s 0 with
  | false => exact ackCode_mem_codes _
  | true => exact ackCode_mem_codes true

theorem accept_endsBy {codes : List (Option Code)} {run : State → State} {c : Code} {s t : State}
    (h : accept s run = .next t) (hc : some c ∈ codes) (hends : EndsBy c s (run s)) :
    ∃ c, some c ∈ codes ∧ EndsBy c s t := by
  obtain ⟨-, rfl⟩ := accept_next.mp h
  exact ⟨c, hc, hends⟩

/-- Every sequencer operation ends by a code that the table gives it (60_exceptions.md R171, R175). -/
theorem exec_endsBy {i : Instr} {s t : State} (hi : isSequencerOp i = true) (h : exec i s = .next t) :
    ∃ c, some c ∈ allowedCodes i ∧ EndsBy c s t := by
  cases i with
  | measureTemp => exact accept_endsBy h (mem_measureCodes _) (runMeasure_endsBy _ s)
  | measureHumi => exact accept_endsBy h (mem_measureCodes _) (runMeasure_endsBy _ s)
  | meas k => exact accept_endsBy h (mem_measureCodes _) (runMeasure_endsBy k s)
  | statusRegW v => exact accept_endsBy h (statusWriteCode_mem_codes s) (runWriteStatus_endsBy v s)
  | wrstat v => exact accept_endsBy h (statusWriteCode_mem_codes s) (runWriteStatus_endsBy v s)
  | statusRegR => exact accept_endsBy h (ackCode_mem_codes _) (runReadStatus_endsBy s)
  | rdstat => exact accept_endsBy h (ackCode_mem_codes _) (runReadStatus_endsBy s)
  | resetCommand => exact accept_endsBy h (ackCode_mem_codes _) (runSoftReset_endsBy s)
  | sreset => exact accept_endsBy h (ackCode_mem_codes _) (runSoftReset_endsBy s)
  | _ => cases hi

/-- A sequencer operation writes no data register (60_exceptions.md R175). -/
theorem exec_keepsRest {i : Instr} {s t : State} (hi : isSequencerOp i = true) (h : exec i s = .next t) :
    KeepsRest s t := by
  cases exec_ran h with
  | read => cases hi
  | tcels => cases hi
  | hpct => cases hi
  | bus _ leaves => exact leaves.toKeepsRest

/-- Every instruction but the calibration functions writes `RES` (10_state.md R30). -/
theorem exec_resWritten {i : Instr} {s t : State} (h : exec i s = .next t) (htcels : ∀ raw, i ≠ .tcels raw)
    (hhpct : ∀ rawHumi rawTemp, i ≠ .hpct rawHumi rawTemp) : t.resWritten = true := by
  cases exec_ran h with
  | read => exact (runRead_leaves s).resWritten
  | tcels raw => exact absurd rfl (htcels raw)
  | hpct rawHumi rawTemp => exact absurd rfl (hhpct rawHumi rawTemp)
  | bus _ leaves => exact leaves.ends.resWritten

/-- The code of every result is one that the table gives the instruction (60_exceptions.md R171). -/
theorem exec_code_mem {i : Instr} {s t : State} (h : exec i s = .next t) (htcels : ∀ raw, i ≠ .tcels raw)
    (hhpct : ∀ rawHumi rawTemp, i ≠ .hpct rawHumi rawTemp) : resultCode t.res ∈ allowedCodes i := by
  cases hi : isSequencerOp i with
  | true =>
    obtain ⟨c, hc, hends⟩ := exec_endsBy hi h
    exact hends.code ▸ hc
  | false =>
    cases i with
    | read =>
      obtain ⟨-, rfl⟩ := accept_next.mp h
      rw [(runRead_leaves s).res]
      exact List.mem_singleton_self _
    | creset =>
      rw [exec_creset] at h
      obtain ⟨-, rfl⟩ := accept_next.mp h
      exact List.mem_singleton_self _
    | tstart =>
      rw [exec_tstart] at h
      obtain ⟨-, rfl⟩ := withClockLow_next.mp h
      exact List.mem_singleton_self _
    | rdbyte sendAck =>
      rw [exec_rdbyte] at h
      obtain ⟨-, rfl⟩ := withClockLow_next.mp h
      exact List.mem_singleton_self _
    | wrbyte v =>
      obtain ⟨-, -, rfl⟩ := exec_wrbyte_next.mp h
      exact ackCode_mem_codes _
    | tcels raw => exact absurd rfl (htcels raw)
    | hpct rawHumi rawTemp => exact absurd rfl (hhpct rawHumi rawTemp)
    | _ => cases hi

/-! ### The statements -/

/-- Settles O25: the code a sequencer operation ends by decides its result, its end state and its last events. -/
theorem failureEndsTheOperation : Obligations.FailureEndsTheOperation := by
  intro i s t hi h
  obtain ⟨c, -, hends⟩ := exec_endsBy hi h
  have hwrite := hends.res_eq_failure (c' := .writeError) nofun
  have htimeout := hends.res_eq_failure (c' := .timeout) nofun
  refine ⟨?_, ?_, exec_keepsRest hi h, fun hres => ?_, fun hres => ?_⟩
  · rw [hends.seq, seqOfCode_eq_failed, hwrite, htimeout]
  · rw [hends.seq]
    exact seqOfCode_cases c
  · obtain rfl := hwrite.mp hres
    exact hends.trace
  · obtain rfl := htimeout.mp hres
    exact hends.trace

/-- Settles O56: the table row by row, and that each of its operations gives a result. -/
theorem resultCodesByOperation : Obligations.ResultCodesByOperation :=
  fun _ _ _ h htcels hhpct => ⟨exec_code_mem h htcels hhpct, exec_resWritten h htcels hhpct⟩

end Sys2Proof.Machine

/-! # Proofs about reset and the counts (70_reset_and_hazards.md)

The delays of a trace are added up piece by piece (`delays`); for a measurement they and the samples go by how its stage
ended (`stageDelays`, `stageSamples`). What an accepted operation adds and what it samples then give its row of R206
(`accept_counted`). -/

namespace Sys2Proof.Machine

/-! ### The delays of a trace -/

/-- The short and the one-millisecond delays of a trace (70_reset_and_hazards.md R206). -/
def delays (es : List Event) : Nat × Nat :=
  (shortDelays es, msDelays es)

@[simp] theorem delays_append (l m : List Event) : delays (l ++ m) = delays l + delays m := by
  simp only [delays, shortDelays_append, msDelays_append, Prod.mk_add_mk]

@[simp] theorem delays_seq (q : Seq) (l : List Event) : delays (.seq q :: l) = delays l :=
  (delays_append [.seq q] l).trans (zero_add _)

@[simp] theorem delays_smp (answer : Bool) (l : List Event) : delays (.smp answer :: l) = delays l :=
  (delays_append [.smp answer] l).trans (zero_add _)

@[simp] theorem delays_rel (l : List Event) : delays (.rel :: l) = (1, 0) + delays l :=
  delays_append [.rel] l

@[simp] theorem delays_waitMs (l : List Event) : delays (.waitMs :: l) = (0, 1) + delays l :=
  delays_append [.waitMs] l

@[simp] theorem delays_nil : delays [] = (0, 0) := rfl

@[simp] theorem delays_tsEvents : delays tsEvents = (7, 0) := rfl

@[simp] theorem delays_crEvents : delays crEvents = (26, 0) := rfl

@[simp] theorem delays_writeEvents (v : Byte) (ack : Bool) : delays (writeEvents v ack) = (27, 0) := rfl

@[simp] theorem delays_readEvents (sendAck : Bool) (v : Byte) :
    delays (readEvents sendAck v) = (if sendAck then 21 else 19, 0) := by
  cases sendAck <;> rfl

@[simp] theorem delays_rawEvents (s : State) (b : Nat) : delays (rawEvents s b) = (61, 0) := by
  simp [rawEvents]

/-- The polls wait one millisecond each and nothing else (41_sequencer.md R122). -/
@[simp] theorem delays_highPolls (n : Nat) : delays (highPolls n) = (0, n) := by
  induction n with
  | zero => rfl
  | succ n ih =>
    have hpoll : highPolls (n + 1) = [.waitMs, .smp true] ++ highPolls n := rfl
    simp [hpoll, ih, Nat.add_comm 1 n]

/-! ### The counts of a measurement -/

/-- The delays of a measurement, by how it ended (70_reset_and_hazards.md R206). -/
def stageDelays (g : Stage) : Nat × Nat :=
  match g.code with
  | .writeError => (34, 0)
  | .timeout => (35, 240)
  | .ok => (96, g.polls)

/-- The samples of a measurement, by how it ended (70_reset_and_hazards.md R206). -/
def stageSamples (g : Stage) : Nat :=
  match g.code with
  | .writeError => 1
  | .timeout => 241
  | .ok => 25 + g.polls

theorem delays_measureEvents (kind : Kind) (s : State) (k : Nat) :
    delays (measureEvents kind s k) = stageDelays (stageAt s k) := by
  unfold measureEvents
  simp only [delays_append, delays_writeEvents, delays_tsEvents, delays_seq, delays_nil]
  rcases stageAt_cases s k with ⟨-, hg⟩ | ⟨-, -, hg⟩ | ⟨j, -, -, -, -, hg⟩ <;> rw [hg]
  · rfl
  · simp [stageDelays]
  · simp [stageDelays]

theorem stageAt_used (s : State) (k : Nat) : (stageAt s k).used = stageSamples (stageAt s k) := by
  rcases stageAt_cases s k with ⟨-, hg⟩ | ⟨-, -, hg⟩ | ⟨j, -, -, -, -, hg⟩ <;> rw [hg]
  · rfl
  · rfl
  · simp only [stageSamples]
    omega

theorem stageDelays_ok {g : Stage} (h : g.code = .ok) : stageDelays g = (96, g.polls) := by
  rw [stageDelays, h]

theorem stageAt_used_ok {s : State} {k : Nat} (h : (stageAt s k).code = .ok) :
    (stageAt s k).used = 25 + (stageAt s k).polls := by
  rw [stageAt_used, stageSamples, h]

/-- The poll counter of a measurement that succeeds holds its polls (41_sequencer.md R122). -/
theorem runMeasure_pollcnt_ok (kind : Kind) {s : State} (h : (stageAt s 0).code = .ok) :
    (runMeasure kind s).pollcnt = (stageAt s 0).polls := by
  rw [runMeasure_eq]
  exact if_neg (by rw [h]; nofun)

/-! ### The delays of the other operations -/

theorem delays_statusReadEvents_ack {s : State} (hack : upcoming s 0 = false) :
    delays (statusReadEvents s) = (74, 0) := by
  simp [statusReadEvents, hack]

theorem delays_statusReadEvents_nack {s : State} (hnack : upcoming s 0 = true) :
    delays (statusReadEvents s) = (34, 0) := by
  simp [statusReadEvents, hnack]

theorem delays_statusWriteEvents_ack (v : Byte) {s : State} (hack : upcoming s 0 = false) :
    delays (statusWriteEvents v s) = (61, 0) := by
  simp [statusWriteEvents, hack]

theorem delays_statusWriteEvents_nack (v : Byte) {s : State} (hnack : upcoming s 0 = true) :
    delays (statusWriteEvents v s) = (34, 0) := by
  simp [statusWriteEvents, hnack]

theorem delays_softResetEvents (s : State) : delays (softResetEvents s) = (53, 0) := by
  cases hack : upcoming s 0 <;> simp [softResetEvents, hack]

theorem delays_compoundReadEvents (s : State) :
    delays (compoundReadEvents s) = stageDelays (stageAt s 0) + stageDelays (stageAt s (stageAt s 0).used) := by
  simp [compoundReadEvents, delays_measureEvents]

/-! ### The samples of the status operations -/

theorem runReadStatus_takes_nack {s : State} (hnack : upcoming s 0 = true) : Takes 1 s (runReadStatus s) := by
  rw [runReadStatus, readStatusRegister_refused hnack]
  exact ⟨rfl, rfl⟩

theorem runWriteStatus_takes_ack (v : Byte) {s : State} (hack : upcoming s 0 = false) :
    Takes 2 s (runWriteStatus v s) := by
  rw [runWriteStatus, writeStatusRegister_sent v hack]
  exact ⟨rfl, rfl⟩

theorem runWriteStatus_takes_nack (v : Byte) {s : State} (hnack : upcoming s 0 = true) :
    Takes 1 s (runWriteStatus v s) := by
  rw [runWriteStatus, writeStatusRegister_refused v hnack]
  exact ⟨rfl, rfl⟩

/-! ### The rows of the table -/

/-- A row of R206: an operation that added `es` made the delays `d` and `n` samples (70_reset_and_hazards.md). -/
def Counted (d : Nat × Nat) (n : Nat) (s t : State) (es : List Event) : Prop :=
  shortDelays es = d.1 ∧ msDelays es = d.2 ∧ t.samples = s.samples + n

theorem counted_of_adds {d : Nat × Nat} {n : Nat} {s t : State} {es es' : List Event} (h : Adds s t es)
    (hadds : Adds s t es') (hdelays : delays es' = d) (hsamples : t.samples = s.samples + n) : Counted d n s t es := by
  obtain rfl := h.unique hadds
  subst hdelays
  exact ⟨rfl, rfl, hsamples⟩

theorem accept_counted {d : Nat × Nat} {n : Nat} {s t : State} {es es' : List Event} {run : State → State}
    (hexec : accept s run = .next t) (h : Adds s t es) (hadds : Adds s (run s) es') (hdelays : delays es' = d)
    (htakes : Takes n s (run s)) : Counted d n s t es := by
  obtain ⟨-, rfl⟩ := accept_next.mp hexec
  exact counted_of_adds h hadds hdelays htakes.samples

section
variable {i : Instr} {s t : State} {es : List Event}

theorem tstart_counted (h : exec .tstart s = .next t) (hes : Adds s t es) : Counted (7, 0) 0 s t es := by
  have hadds := exec_adds h
  rw [exec_tstart] at h
  obtain ⟨-, rfl⟩ := withClockLow_next.mp h
  exact counted_of_adds hes hadds rfl rfl

theorem rdbyte_counted {sendAck : Bool} (h : exec (.rdbyte sendAck) s = .next t) (hes : Adds s t es) :
    Counted (if sendAck then 21 else 19, 0) 8 s t es := by
  have hadds := exec_adds h
  rw [exec_rdbyte] at h
  obtain ⟨-, rfl⟩ := withClockLow_next.mp h
  exact counted_of_adds hes hadds (delays_readEvents _ _) rfl

theorem wrbyte_counted {v : Byte} (h : exec (.wrbyte v) s = .next t) (hes : Adds s t es) :
    Counted (27, 0) 1 s t es := by
  have hadds := exec_adds h
  obtain ⟨-, -, rfl⟩ := exec_wrbyte_next.mp h
  exact counted_of_adds hes hadds (delays_writeEvents _ _) rfl

theorem creset_counted (h : exec .creset s = .next t) (hes : Adds s t es) : Counted (26, 0) 0 s t es := by
  rw [exec_creset] at h
  exact accept_counted h hes rfl rfl ⟨rfl, rfl⟩

theorem statusRead_counted_ack (hi : i = .rdstat ∨ i = .statusRegR) (h : exec i s = .next t) (hes : Adds s t es)
    (hack : upcoming s 0 = false) : Counted (74, 0) 17 s t es := by
  rw [exec_statusRead hi] at h
  exact accept_counted h hes (runReadStatus_adds s) (delays_statusReadEvents_ack hack) (runReadStatus_takes_ok hack)

theorem statusRead_counted_nack (hi : i = .rdstat ∨ i = .statusRegR) (h : exec i s = .next t) (hes : Adds s t es)
    (hnack : upcoming s 0 = true) : Counted (34, 0) 1 s t es := by
  rw [exec_statusRead hi] at h
  exact accept_counted h hes (runReadStatus_adds s) (delays_statusReadEvents_nack hnack)
    (runReadStatus_takes_nack hnack)

theorem statusWrite_counted_ack {v : Byte} (hi : i = .wrstat v ∨ i = .statusRegW v) (h : exec i s = .next t)
    (hes : Adds s t es) (hack : upcoming s 0 = false) : Counted (61, 0) 2 s t es := by
  rw [exec_statusWrite hi] at h
  exact accept_counted h hes (runWriteStatus_adds v s) (delays_statusWriteEvents_ack v hack)
    (runWriteStatus_takes_ack v hack)

theorem statusWrite_counted_nack {v : Byte} (hi : i = .wrstat v ∨ i = .statusRegW v) (h : exec i s = .next t)
    (hes : Adds s t es) (hnack : upcoming s 0 = true) : Counted (34, 0) 1 s t es := by
  rw [exec_statusWrite hi] at h
  exact accept_counted h hes (runWriteStatus_adds v s) (delays_statusWriteEvents_nack v hnack)
    (runWriteStatus_takes_nack v hnack)

theorem softReset_counted (hi : i = .sreset ∨ i = .resetCommand) (h : exec i s = .next t) (hes : Adds s t es) :
    Counted (53, 0) 1 s t es := by
  rw [exec_softReset hi] at h
  exact accept_counted h hes (runSoftReset_adds s) (delays_softResetEvents s) (runSoftReset_takes s).1

/-- A measurement by any of its names runs as `runMeasure` and is counted by how its stage ended. -/
theorem measurement_counted (hi : (measures i).isSome = true) (h : exec i s = .next t) (hes : Adds s t es) :
    (∃ kind, t = runMeasure kind s) ∧ Counted (stageDelays (stageAt s 0)) (stageSamples (stageAt s 0)) s t es := by
  obtain ⟨kind, hkind⟩ := Option.isSome_iff_exists.mp hi
  rw [exec_measures hkind] at h
  exact ⟨⟨kind, (accept_next.mp h).2.symm⟩, accept_counted h hes (runMeasure_adds kind s)
    (delays_measureEvents kind s 0) (stageAt_used s 0 ▸ runMeasure_takes kind s)⟩

theorem measurement_counted_writeError (hi : (measures i).isSome = true) (h : exec i s = .next t) (hes : Adds s t es)
    (hres : t.res = .code .writeError) : Counted (34, 0) 1 s t es := by
  obtain ⟨⟨kind, rfl⟩, hcounted⟩ := measurement_counted hi h hes
  have hcode := ((runMeasure_endsBy kind s).res_eq_failure (c' := .writeError) nofun).mp hres
  rwa [stageDelays, stageSamples, hcode] at hcounted

theorem measurement_counted_timeout (hi : (measures i).isSome = true) (h : exec i s = .next t) (hes : Adds s t es)
    (hres : t.res = .code .timeout) : Counted (35, 240) 241 s t es := by
  obtain ⟨⟨kind, rfl⟩, hcounted⟩ := measurement_counted hi h hes
  have hcode := ((runMeasure_endsBy kind s).res_eq_failure (c' := .timeout) nofun).mp hres
  rwa [stageDelays, stageSamples, hcode] at hcounted

/-- A measurement that returns a raw value is counted by its polls, which the poll counter holds. -/
theorem measurement_counted_ok {raw : U16} (hi : (measures i).isSome = true) (h : exec i s = .next t)
    (hes : Adds s t es) (hres : t.res = .okRaw raw) : Counted (96, t.pollcnt) (25 + t.pollcnt) s t es := by
  obtain ⟨⟨kind, rfl⟩, hcounted⟩ := measurement_counted hi h hes
  have hcode := code_of_result_okRaw (runMeasure_res kind s ▸ hres)
  rw [stageDelays, stageSamples, hcode] at hcounted
  rwa [runMeasure_pollcnt_ok kind hcode]

/-- The two stages of `read` are counted one after the other (43_read_api.md R160). -/
theorem read_counted_ok (h : exec .read s = .next t) (hes : Adds s t es) (hT : (stageAt s 0).code = .ok)
    (hH : (stageAt s (stageAt s 0).used).code = .ok) :
    Counted (192, (stageAt s 0).polls + (stageAt s (stageAt s 0).used).polls)
      (50 + (stageAt s 0).polls + (stageAt s (stageAt s 0).used).polls) s t es := by
  have hr := runRead_leaves s
  have hdelays := delays_compoundReadEvents s
  rw [stageDelays_ok hT, stageDelays_ok hH, Prod.mk_add_mk] at hdelays
  have husedT := stageAt_used_ok hT
  have husedH := stageAt_used_ok hH
  have hsamples : (stageAt s 0).used + (stageAt s (stageAt s 0).used).used =
      50 + (stageAt s 0).polls + (stageAt s (stageAt s 0).used).polls := by omega
  exact accept_counted h hes hr.log hdelays (hsamples ▸ hr.takes)

end

/-! ### The statements -/

/-- Settles O57: the rows of the table, in its order. -/
theorem delayCounts : Obligations.DelayCounts := by
  intro i s t es h hes
  refine ⟨?tstart, ?rdbyteNack, ?rdbyteAck, ?wrbyte, ?creset, fun hi => measurement_counted_writeError hi h hes,
    fun hi => measurement_counted_timeout hi h hes, fun _ hi => measurement_counted_ok hi h hes,
    fun hi => statusRead_counted_ack hi h hes, fun hi => statusRead_counted_nack hi h hes,
    fun _ hi => statusWrite_counted_ack hi h hes, fun _ hi => statusWrite_counted_nack hi h hes,
    fun hi => softReset_counted hi h hes, ?read⟩
  case tstart =>
    rintro rfl
    exact tstart_counted h hes
  case rdbyteNack | rdbyteAck =>
    rintro rfl
    exact rdbyte_counted h hes
  case wrbyte =>
    rintro v rfl
    exact wrbyte_counted h hes
  case creset =>
    rintro rfl
    exact creset_counted h hes
  case read =>
    rintro rfl
    exact read_counted_ok h hes

theorem step_no_request {s : State} (h : s.requests = []) : step s = .next s := by
  simp only [step, h]

/-- Settles O9: the reset state has no request. -/
theorem noRequestNoAction : Obligations.NoRequestNoAction :=
  ⟨fun _ => step_no_request, step_no_request rfl⟩

end Sys2Proof.Machine
